-- ==== Sys2Proof/Word.lean ====
section
/-! DEFINITION. The words of the GroupFlame Huffman codec engine: the widths of `00_scope.md` rules R6, R7, R9 and
`10_state.md` rules R21, R22, R25, R26. -/

namespace Sys2Proof

/-- A byte, and a symbol: `SYM_W = 8` (R6). -/
abbrev Byte := BitVec 8

/-- A frequency count: `FREQ_W = 32` (R7). -/
abbrev Count := BitVec 32

/-- The original size and the emitted-byte count: `SIZE_W = 64` (R7, R35, R36). -/
abbrev Size := BitVec 64

/-- The combined frequency of a tree node: `NODE_FREQ_W = 64` (R10, R26). -/
abbrev Weight := BitVec 64

/-- The length of a code, 0 to 255 (R21). -/
abbrev CodeLen := BitVec 8

/-- The pattern of a code: `CODE_LEN_MAX = 255` bits (R22). -/
abbrev Pattern := BitVec 255

/-- A handle: an index into the node arena of `NODE_MAX = 511` entries (R25). Never added to or masked, so no bit vector. -/
abbrev Handle := Fin 511

/-- A register file with one entry for each symbol (R20 to R22). -/
abbrev Table (α : Type) := Vector α 256

end Sys2Proof
end

