-- ==== Sys2Proof/Config.lean ====
section
/-! DEFINITION. What is fixed for one machine: the parameters of `00_scope.md` rule R10, the open one among them, and the
free values the spec leaves open. -/

namespace Sys2Proof

/-- The byte order of the header integers (R67). -/
inductive HdrOrder where
  /-- least significant byte first -/
  | LE
  /-- most significant byte first -/
  | BE
  deriving DecidableEq, Repr, Inhabited

namespace Config

/-- The open parameter `HDR_ORDER` (R10, R67, D1): one value for the life of a machine, known to no proof. Log 2. -/
opaque hdrOrder : HdrOrder

/-- A free value: what the 3-bit register `BW_N` holds after the write of a filled byte failed (W16 of
`95_test_vectors.md`, U13: "not meaningful after the fault"). The argument numbers the draw. Log 12. -/
opaque freeBwN : Nat → Fin 8

/-- A free value: what a host reads from the write-only register `CMD` (R32, U12). Log 18. -/
opaque freeCmdRead : Nat → Byte

/-- `NSYM` (R6). -/
def nsym : Nat := 256

/-- `HDR_LEN` (R8; `90_conflicts.md` C1). -/
def hdrLen : Nat := 1036

/-- `NODE_MAX` (R9). -/
def nodeMax : Nat := 511

/-- `CODE_LEN_MAX` (R9). -/
def codeLenMax : Nat := 255

/-- `MAX_COUNT`: the largest number of occurrences of one byte value in an input (R10, R132, D5). -/
def maxCount : Nat := 2 ^ 32 - 1

/-- `MAX_LEN`: the largest length of an input (R10, R132, D5). -/
def maxLen : Nat := 2 ^ 64 - 1

end Config

end Sys2Proof
end

