-- ==== Sys2Proof/Machine/State.lean ====
section
/-! DEFINITION. The state of the engine as plain data (`10_state.md`), what its environment will do (`20_memory.md`), the
reasons a step can stop, and the state after reset (`10_state.md` rule R46, `70_reset_and_hazards.md` rule R280). -/

namespace Sys2Proof.Machine

/-- `STATUS` (R33). -/
inductive Status where
  /-- no command since reset -/
  | idle
  /-- a command is running -/
  | busy
  /-- the last command succeeded -/
  | done
  /-- the last command failed -/
  | fault
  deriving DecidableEq, Repr

/-- `PHASE`, the sequencer register that stands in for a program counter (R40, R112). The reserved codes `0xA` to `0xD`
are never held and have no constructor (U11). -/
inductive Phase where
  | idle
  | eCount
  | eBuild
  | eDerive
  | eHeader
  | eEmit
  | eFlush
  | dHeader
  | dBuild
  | dWalk
  | done
  | fault
  deriving DecidableEq, Repr

/-- `ERR` (R34, R250). The reserved codes are never held and have no constructor (U11). -/
inductive Err where
  /-- `E_NONE`, no error -/
  | none
  /-- `E_IO`, kind (a) -/
  | io
  /-- `E_BAD_MAGIC`, kind (b) -/
  | badMagic
  /-- `E_TRUNC_HEADER`, kind (b) -/
  | truncHeader
  /-- `E_NO_TREE`, kind (c) -/
  | noTree
  /-- `E_MISSING_CHILD`, kind (c) -/
  | missingChild
  /-- `E_UNEXPECTED_END`, kind (c) -/
  | unexpectedEnd
  /-- `E_NO_CODE`, kind (d) -/
  | noCode
  /-- `E_OVERRUN`, kind (d): raised by nothing (R225, `90_conflicts.md` C5) -/
  | overrun
  /-- `E_USAGE`, outside the taxonomy -/
  | usage
  deriving DecidableEq, Repr

/-- A tree node (R26). The fields that mean nothing for a kind (`sym` of an internal node, the children of a leaf: U5) do
not exist here (log 15). An absent child is `none`. -/
inductive Node where
  | leaf (sym : Byte) (freq : Weight)
  | internal (freq : Weight) (left right : Option Handle)
  deriving DecidableEq, Repr

/-- The tree registers: `NODE[0..510]`, `NODE_CNT`, `ROOT`, `PQ` (R25 to R31). -/
structure TreeRegs where
  /-- `NODE` -/
  node : Vector Node 511
  /-- `NODE_CNT`, 0 to 511 -/
  cnt : Nat
  /-- `ROOT`; `none` is the sentinel `NONE` -/
  root : Option Handle
  /-- `PQ`, front first -/
  pq : List Handle
  deriving DecidableEq, Repr

/-- The code table: `CODE_LEN[0..255]`, `CODE_PAT[0..255]` (R21, R22). -/
structure CodeTable where
  /-- `CODE_LEN` -/
  len : Table CodeLen
  /-- `CODE_PAT` -/
  pat : Table Pattern
  deriving DecidableEq, Repr

/-- What a collaborator answers to one stream access (R65): it works, or it fails; a failing write of `n` bytes lands the
first `min landed n` of them (R63, U6). Log 6. -/
inductive IOAnswer where
  | works
  | fails (landed : Nat)
  deriving DecidableEq, Repr

/-- The two byte streams (R60), their cursors (R43), and what the environment will do with them (U6, U8, U9). -/
structure Memory where
  /-- the content of the byte source -/
  src : List Byte
  /-- `SRC_POS`: bytes consumed since command start or the last rewind -/
  srcPos : Nat
  /-- what the source delivers after the next rewind, where that differs: `none` is a stable source (U8, log 10) -/
  rewound : Option (List Byte)
  /-- the content of the byte sink -/
  snk : List Byte
  /-- `SNK_POS`: bytes appended since command start -/
  snkPos : Nat
  /-- the answers to the coming accesses, in order; an access beyond the list works (log 6) -/
  io : List IOAnswer
  deriving DecidableEq, Repr

/-- What the host will do next (R282, R287, R288). Log 4. -/
inductive HostAction where
  /-- attach a source at its first byte and an empty sink (R283), with what their collaborators will do -/
  | attach (src : List Byte) (rewound : Option (List Byte)) (io : List IOAnswer)
  /-- write `CMD` and wait for the command to end: "a host that issues a command and waits for it" (R33) -/
  | runCmd (w : Byte)
  /-- write `CMD` without waiting -/
  | writeCmd (w : Byte)
  /-- wait while `STATUS = BUSY` (R282) -/
  | wait
  /-- drive one operation by hand, given as an operation word (R287, log 20) -/
  | operate (word : List Byte)
  deriving DecidableEq, Repr

/-- The state of the engine. -/
structure State where
  /-- `STATUS` (R33) -/
  status : Status
  /-- `ERR` (R34) -/
  err : Err
  /-- `PHASE` (R40) -/
  phase : Phase
  /-- `SIZE` (R35) -/
  size : Size
  /-- `EMITTED` (R36) -/
  emitted : Size
  /-- `FREQ` (R20) -/
  freq : Table Count
  /-- `CODE_LEN`, `CODE_PAT` (R21, R22) -/
  code : CodeTable
  /-- `NODE`, `NODE_CNT`, `ROOT`, `PQ` (R25 to R31) -/
  tree : TreeRegs
  /-- `BW_ACC` (R37) -/
  bwAcc : Byte
  /-- `BW_N`, 0 to 7 (R37) -/
  bwN : Fin 8
  /-- `BR_BUF` (R38) -/
  brBuf : Byte
  /-- `BR_N`, 0 to 8 (R38) -/
  brN : Fin 9
  /-- `BR_OK`, the one flag (R39) -/
  brOk : Bool
  /-- `CUR` (R42) -/
  cur : Handle
  /-- `SRC`, `SRC_POS`, `SNK`, `SNK_POS` and their environment (`20_memory.md`) -/
  mem : Memory
  /-- the pending host actions (log 4) -/
  host : List HostAction
  /-- how many free values have been drawn: the model's own field (log 12) -/
  draws : Nat
  deriving DecidableEq, Repr

/-- Why the machine stops without a next state. An error of the taxonomy R250 is not among these: it is taken, as a next
state (R256). -/
inductive Fault where
  /-- Raised by the step and by the two commands when the host acts while `STATUS = BUSY`, which the host contract forbids
  and to which the spec gives no step (R114, R288, U7). Safe: nothing is claimed of such a run. Log 14. -/
  | hostProtocol
  /-- Raised by `CDERIVE` when a node lies deeper than `CODE_LEN_MAX` edges below `ROOT`: an arena that is no tree of
  `TBUILD` (R9, R27, R147), which no run reaches. Safe. Log 16. -/
  | treeTooDeep
  /-- Raised by a loop over a stream when its bound (R224, R294) is used up: never, as the laws prove. Safe. Log 17. -/
  | nonTerminating
  deriving DecidableEq, Repr

/-- Why the model gives no result. -/
inductive Refusal where
  /-- Raised by the dispatch for an operation without a meaning: none is left. Safe. -/
  | notModelled (mnemonic : String)
  /-- Raised by `FCOUNT`, and by `ENCODE` through it, when a byte value occurs more than `MAX_COUNT` times: "the model
  refuses it (no step, no result)" (R132, D5, U1). Safe. Log 11. -/
  | countLimit
  /-- Raised by `FCOUNT`, and by `ENCODE` through it, when the input is longer than `MAX_LEN` (R132, D5, U1). Safe. Log 11. -/
  | lengthLimit
  /-- Raised by the step when a hand-driven operation word names no operation (R110). Safe. Log 5. -/
  | noOperation (word : List Byte)
  /-- Raised by `BWBITS` when the bit count is not 0 to 255 (R172): no decoded operation is so. Safe. Log 21. -/
  | operandRange
  deriving DecidableEq, Repr

/-- The streams at reset: the host has attached none yet, so both are empty (log 8). "Reset does not touch the streams"
(R280); the positions are column 2 of R46. -/
def Memory.reset : Memory where
  src := []
  srcPos := 0
  rewound := none
  snk := []
  snkPos := 0
  io := []

/-- The state after hardware reset: column 2 of the table under R46, and R280. Where that column says "unspecified"
(`FREQ`, `CODE_LEN`, `CODE_PAT`, `NODE`, `BR_BUF`, `CUR`) the value is the model's choice (DESIGN CHOICE, log 1). -/
def State.reset : State where
  status := .idle
  err := .none
  phase := .idle
  size := 0
  emitted := 0
  freq := Vector.replicate 256 0
  code := { len := Vector.replicate 256 0, pat := Vector.replicate 256 0 }
  tree := { node := Vector.replicate 511 (.leaf 0 0), cnt := 0, root := none, pq := [] }
  bwAcc := 0
  bwN := 0
  brBuf := 0
  brN := 0
  brOk := true
  cur := 0
  mem := Memory.reset
  host := []
  draws := 0

end Sys2Proof.Machine
end

