-- ==== Sys2Proof/Machine/Flags.lean ====
section
/-! DEFINITION. The one flag of the engine, `BR_OK` (`10_state.md` rule R39). There are no arithmetic condition codes. -/

namespace Sys2Proof.Machine

/-- `BRBIT` "sets it to 1 when it delivers a bit and to 0 when the read fails" (R39). -/
def setBrOk (ok : Bool) (s : State) : State := { s with brOk := ok }

/-- The result of the last `BRBIT`, `(bit, ok)` of R181, read from the registers: the bit delivered last is bit `BR_N` of
`BR_BUF`, and there is none when `BR_OK = 0` (R182, U2). Log 27. -/
def State.deliveredBit (s : State) : Option Bool := if s.brOk then some (s.brBuf.getLsbD s.brN.val) else none

end Sys2Proof.Machine
end

