-- ==== Sys2Proof/Syntax.lean ====
section
/-! DEFINITION. The operations of the engine: one constructor per row of `opcode_table.json`
(`30_encoding.md` rule R110). -/

namespace Sys2Proof

/-- The operation set of R110: the two host commands, then the eleven internal operations. -/
inductive Instr where
  /-- `ENCODE`, command (R200) -/
  | encode
  /-- `DECODE`, command (R215) -/
  | decode
  /-- `FCOUNT` (R131) -/
  | fcount
  /-- `TBUILD` (R141) -/
  | tbuild
  /-- `CDERIVE` (R161) -/
  | cderive
  /-- `BWBIT(b)`, one bit (R171) -/
  | bwbit (b : Bool)
  /-- `BWBITS(p, n)`: a pattern and a number of bits, 0 to 255 (R172) -/
  | bwbits (p : Pattern) (n : Nat)
  /-- `BWFLUSH` (R173) -/
  | bwflush
  /-- `BRBIT` (R181) -/
  | brbit
  /-- `HWRITE` (R191) -/
  | hwrite
  /-- `HREAD` (R193) -/
  | hread
  /-- `EEMIT` (R204) -/
  | eemit
  /-- `DWALK` (R219) -/
  | dwalk
  deriving DecidableEq, Repr

namespace Instr

/-- The 4-bit operation id of R110. Ids `0x0`, `0xE`, `0xF` name no operation. -/
def id : Instr → BitVec 4
  | .encode => 0x1
  | .decode => 0x2
  | .fcount => 0x3
  | .tbuild => 0x4
  | .cderive => 0x5
  | .bwbit _ => 0x6
  | .bwbits _ _ => 0x7
  | .bwflush => 0x8
  | .brbit => 0x9
  | .hwrite => 0xA
  | .hread => 0xB
  | .eemit => 0xC
  | .dwalk => 0xD

/-- Whether a host may start the operation by writing `CMD`: the two commands only (R110, R113). -/
def isCommand : Instr → Bool
  | .encode | .decode => true
  | .fcount | .tbuild | .cderive | .bwbit _ | .bwbits _ _ | .bwflush | .brbit | .hwrite | .hread | .eemit | .dwalk => false

end Instr

end Sys2Proof
end

