-- ==== Sys2Proof/WellFormed.lean ====
section
/-! DEFINITION. Which operations are well formed. Every operand's range but one is in its type; the bit count of `BWBITS`
is 0 to 255 (`30_encoding.md` rule R110, `43_bit_writer.md` rule R172). -/

namespace Sys2Proof

/-- The operand ranges of R110: `BWBITS` writes 0 to 255 bits. -/
def WellFormed : Instr → Bool
  | .bwbits _ n => decide (n ≤ Config.codeLenMax)
  | .encode | .decode | .fcount | .tbuild | .cderive | .bwbit _ | .bwflush | .brbit | .hwrite | .hread | .eemit | .dwalk => true

end Sys2Proof
end

