-- ==== Sys2Proof/Decode.lean ====
section
/-! DEFINITION. Encodings, both ways: the host's `CMD` word (`30_encoding.md` rules R111, R113), and the operation word of
this model, which is the 4-bit id of R110 in one byte followed by the operands. The spec gives the operands of `BWBIT` and
`BWBITS` no bits; their layout is the model's (DESIGN CHOICE, log 5). The byte helpers that the header fields use as well
(`00_scope.md` section 6.2, `30_encoding.md` rule R100) stand here too. -/

namespace Sys2Proof

/-- Byte `i` of a number, counting from the least significant. -/
def byteOf (v i : Nat) : Byte := BitVec.ofNat 8 (v >>> (8 * i))

/-- `le_N(v)`: the `n` low bytes of `v`, least significant first (`00_scope.md` section 6.2). -/
def bytesLE (n v : Nat) : List Byte := (List.range n).map (byteOf v)

/-- The number whose bytes are given least significant first (`00_scope.md` section 6.2). -/
def ofBytesLE : List Byte → Nat
  | [] => 0
  | b :: bs => b.toNat + 256 * ofBytesLE bs

/-- Why a byte string is no operation word. -/
inductive DecodeError where
  /-- there is no byte -/
  | empty
  /-- the first byte is no id of R110: its high half is not zero, or its low half is `0x0`, `0xE` or `0xF` -/
  | reservedId (w : Byte)
  /-- the operand bytes end too early -/
  | missingOperand
  /-- an operand byte holds a value the operand cannot take -/
  | operandRange
  deriving DecidableEq, Repr

/-- The operand of `BWBIT`: one byte, 0 or 1 (log 5). -/
def decodeBit : List Byte → Except DecodeError (Instr × List Byte)
  | [] => .error .missingOperand
  | b :: rest => if b = 0 then .ok (.bwbit false, rest) else if b = 1 then .ok (.bwbit true, rest) else .error .operandRange

/-- The operands of `BWBITS`: the bit count in one byte, then the pattern in 32 bytes, least significant first; the top
bit of the last byte is zero, since a pattern has 255 bits (log 5). -/
def decodeBits : List Byte → Except DecodeError (Instr × List Byte)
  | [] => .error .missingOperand
  | n :: rest =>
    if rest.length < 32 then .error .missingOperand
    else
      let p := ofBytesLE (rest.take 32)
      if p < 2 ^ 255 then .ok (.bwbits (BitVec.ofNat 255 p) n.toNat, rest.drop 32) else .error .operandRange

/-- The operation a byte string begins with, and the bytes after it (R110, log 5). Ids that name no operation are
refused by name. -/
def decode : List Byte → Except DecodeError (Instr × List Byte)
  | [] => .error .empty
  | w :: rest =>
    match w.toNat with
    | 0x1 => .ok (.encode, rest)
    | 0x2 => .ok (.decode, rest)
    | 0x3 => .ok (.fcount, rest)
    | 0x4 => .ok (.tbuild, rest)
    | 0x5 => .ok (.cderive, rest)
    | 0x6 => decodeBit rest
    | 0x7 => decodeBits rest
    | 0x8 => .ok (.bwflush, rest)
    | 0x9 => .ok (.brbit, rest)
    | 0xA => .ok (.hwrite, rest)
    | 0xB => .ok (.hread, rest)
    | 0xC => .ok (.eemit, rest)
    | 0xD => .ok (.dwalk, rest)
    | _ => .error (.reservedId w)

/-- What a host's write of `CMD` asks for: `0x01` is `ENCODE`, `0x02` is `DECODE`, every other word is reserved, the ids
of the internal operations among them (R111, R113). -/
def decodeCmd (w : Byte) : Option Instr :=
  if w = 0x01 then some .encode else if w = 0x02 then some .decode else none

/-- The operand bytes of an operation (log 5). -/
def encodeOperands : Instr → List Byte
  | .bwbit b => [BitVec.ofNat 8 b.toNat]
  | .bwbits p n => BitVec.ofNat 8 n :: bytesLE 32 p.toNat
  | .encode | .decode | .fcount | .tbuild | .cderive | .bwflush | .brbit | .hwrite | .hread | .eemit | .dwalk => []

/-- The operation word of an operation: its id in one byte, high half zero (R110, R111), then its operands (log 5). -/
def encode (i : Instr) : List Byte := i.id.setWidth 8 :: encodeOperands i

/-- The longest operation word, in bytes: that of `BWBITS`. -/
def maxWordBytes : Nat := 34

/-- The bytes of an opcode-table word: bit 0 is the least significant bit of the first byte, the bits above `nbits` are
zero, up to the longest operation word. -/
def tableBytes (nbits w : Nat) : List Byte := bytesLE maxWordBytes (w % 2 ^ nbits)

/-- The instruction this decoder reads from an opcode-table word. -/
def decodeTableWord (nbits w : Nat) : Option Instr :=
  match decode (tableBytes nbits w) with
  | .ok (i, _) => some i
  | .error _ => none

end Sys2Proof
end

