-- ==== Sys2Proof/Machine/Operands.lean ====
section
/-! DEFINITION. The operand forms: entries of the register files, code patterns as bit strings, header fields as bytes, and
the numeric codes of the registers a host reads (`00_scope.md` section 6, `30_encoding.md` section 3). -/

namespace Sys2Proof.Machine

/-- The symbols 0 to 255 in ascending order: `for s in 0..255` (`00_scope.md` section 6.3). -/
def symbols : List Byte := (List.range 256).map (BitVec.ofNat 8)

end Sys2Proof.Machine

namespace Sys2Proof.Table

variable {α : Type}

/-- Read of entry `b` of a register file, `x[i]` of `00_scope.md` section 6.3. -/
def entry (t : Table α) (b : Byte) : α := Vector.get t ⟨b.toNat, b.isLt⟩

/-- Write of entry `b` of a register file, `x[i] <- v` of `00_scope.md` section 6.3. -/
def put (t : Table α) (b : Byte) (v : α) : Table α := Vector.set t b.toNat v b.isLt

/-- A register file that holds `v` in every entry. -/
def all (v : α) : Table α := Vector.replicate 256 v

end Sys2Proof.Table

namespace Sys2Proof.Machine

/-- `pat2bits(p, n)`: bits `n-1` down to 0 of a pattern (`00_scope.md` section 6.2, R22, R101). -/
def pat2bits (p : Pattern) : Nat → List Bool
  | 0 => []
  | n + 1 => p.getLsbD n :: pat2bits p n

/-- A path grown by one edge, `path' = (path << 1) | bit` (R102). -/
def growPath (path : Pattern) (bit : Bool) : Pattern := (path <<< 1) ||| BitVec.setWidth 255 (BitVec.ofBool bit)

/-- Which byte of an `n`-byte integer stands at position `i` of its field (R67, R100). -/
def bytePlace (o : HdrOrder) (n i : Nat) : Nat :=
  match o with
  | .LE => i
  | .BE => n - 1 - i

/-- `hdr_N(v)` with `N = 8 * n` (`00_scope.md` section 6.2). -/
def hdrBytes (o : HdrOrder) (n v : Nat) : List Byte := (List.range n).map fun i => byteOf v (bytePlace o n i)

/-- `unhdr_N(bytes)` (`00_scope.md` section 6.2, R100). -/
def unhdr (o : HdrOrder) (bytes : List Byte) : Nat :=
  match o with
  | .LE => ofBytesLE bytes
  | .BE => ofBytesLE bytes.reverse

/-- The magic `H`, `U`, `F`, `1` (R91; the values are ASCII, G1). Log 23. -/
def magic : List Byte := [0x48, 0x55, 0x46, 0x31]

/-- The code of `STATUS` (R33). -/
def Status.code : Status → BitVec 2
  | .idle => 0
  | .busy => 1
  | .done => 2
  | .fault => 3

/-- The code of `PHASE` (R112). -/
def Phase.code : Phase → BitVec 4
  | .idle => 0x0
  | .eCount => 0x1
  | .eBuild => 0x2
  | .eDerive => 0x3
  | .eHeader => 0x4
  | .eEmit => 0x5
  | .eFlush => 0x6
  | .dHeader => 0x7
  | .dBuild => 0x8
  | .dWalk => 0x9
  | .done => 0xE
  | .fault => 0xF

/-- The code of `ERR` (R250). -/
def Err.code : Err → Byte
  | .none => 0x00
  | .io => 0x01
  | .badMagic => 0x02
  | .truncHeader => 0x03
  | .noTree => 0x04
  | .missingChild => 0x05
  | .unexpectedEnd => 0x06
  | .noCode => 0x07
  | .overrun => 0x08
  | .usage => 0x09

/-- The working phases `0x1` to `0x9` (R33, R112). -/
def Phase.working : Phase → Bool
  | .eCount | .eBuild | .eDerive | .eHeader | .eEmit | .eFlush | .dHeader | .dBuild | .dWalk => true
  | .idle | .done | .fault => false

/-- The combined frequency a node carries (R26). -/
def Node.freq : Node → Weight
  | .leaf _ f => f
  | .internal f _ _ => f

/-- The pending bits of the Bit Writer, first one first: bits 7 down to `8 - BW_N` of `BW_ACC` (R37). -/
def State.pendingBits (s : State) : List Bool := (List.range s.bwN.val).map fun i => s.bwAcc.getLsbD (7 - i)

/-- The bits of one byte, most significant first (R68). -/
def byteBits (b : Byte) : List Bool := (List.range 8).map fun i => b.getLsbD (7 - i)

/-- The bytes of the source that the next read begins at (R61). -/
def Memory.rest (m : Memory) : List Byte := m.src.drop m.srcPos

/-- The bits the Bit Reader has still to deliver: the rest of its byte, then the rest of the source (R38, R184). -/
def State.availableBits (s : State) : List Bool :=
  ((List.range s.brN.val).map fun i => s.brBuf.getLsbD (s.brN.val - 1 - i)) ++ s.mem.rest.flatMap byteBits

end Sys2Proof.Machine
end

