-- ==== Sys2Proof/Machine/Ops.lean ====
section
/-! DEFINITION. The shared operations: results of operations and their sequencing, taking an error (`60_exceptions.md` rule
R256), command start (`46_encoder.md` rule R201) and end, the stream accesses (`20_memory.md` rules R61 to R63), and the
actions on the node arena and the candidate list (`10_state.md` rule R28, `41_tree_builder.md` rules R143, R144). -/

namespace Sys2Proof.Machine

/-- How an operation ends: it returns, it raises an error that has been taken in the state given (R256), or the machine
stops. -/
inductive Res (α : Type) where
  | ok (a : α) (s : State)
  | raised (s : State)
  | fault (f : Fault)
  | refused (r : Refusal)

namespace Res

variable {α β : Type}

/-- Sequencing: after a raise "no later line of it, of its callers, or of the command runs" (R256). -/
def bind (r : Res α) (k : α → State → Res β) : Res β :=
  match r with
  | .ok a s => k a s
  | .raised s => .raised s
  | .fault f => .fault f
  | .refused f => .refused f

/-- The outcome of a step that runs the operation: a raised error is a next state. -/
def outcome (r : Res α) : Host.Outcome State Fault Refusal :=
  match r with
  | .ok _ s => .next s
  | .raised s => .next s
  | .fault f => .fault f
  | .refused f => .refused f

end Res

/-! ## Errors: entry, and the way on -/

/-- Taking an error, R256: `ERR <- code(X)`, `STATUS <- FAULT`, `PHASE <- FAULT`, and nothing else changes. No state is
saved and there is no handler: "control passes to nobody". -/
def takeError (e : Err) (s : State) : State := { s with err := e, status := .fault, phase := .fault }

/-- `raise X` (R256). -/
def raise {α : Type} (e : Err) (s : State) : Res α := .raised (takeError e s)

/-- Command start, R201 with R46 column 3 and R64: every register the column gives a value takes it, and the streams are
fresh. There is no return from an error (R260): this is the only way on. `CODE_PAT`, `NODE`, `BR_BUF`, `CUR` are
unspecified there and keep what they held (U4, log 13). Emptying the sink is D12 (log 7). -/
def commandStart (p : Phase) (s : State) : State :=
  { s with
    status := .busy
    err := .none
    phase := p
    size := 0
    emitted := 0
    freq := Table.all 0
    code := { s.code with len := Table.all 0 }
    tree := { s.tree with cnt := 0, root := none, pq := [] }
    bwAcc := 0
    bwN := 0
    brN := 0
    brOk := true
    mem := { s.mem with srcPos := 0, snk := [], snkPos := 0 } }

/-- A command starts when `STATUS ≠ BUSY` (R201); a start while `BUSY` has no meaning (R114, U7, log 14). -/
def startCommand (p : Phase) (s : State) : Res Unit :=
  if s.status = .busy then .fault .hostProtocol else .ok () (commandStart p s)

/-- `PHASE <- p` (R41). -/
def goPhase (p : Phase) (s : State) : State := { s with phase := p }

/-- `PHASE <- DONE; STATUS <- DONE` (R200, R215); `ERR` stays, and so does `BR_N`, as vector P1 has it at `DONE`: unread bits are
dropped (R183) in that no command reads them and `commandStart` clears `BR_N` (log 30 on operations driven by hand). -/
def finishCommand (s : State) : State := { s with phase := .done, status := .done }

/-! ## Streams -/

/-- The collaborator's answer to the access made now (R65). -/
def Memory.answer (m : Memory) : IOAnswer := m.io.headD .works

/-- The streams once the answer has been given. -/
def Memory.answered (m : Memory) : Memory := { m with io := m.io.tail }

/-- `MemRead(SRC, n)` (R61): the next `n` bytes of the source, fewer when it ends first. A read that fails delivers and
consumes nothing (log 25). -/
def memRead (n : Nat) (s : State) : Res (List Byte) :=
  match s.mem.answer with
  | .works =>
    let r := s.mem.rest.take n
    .ok r { s with mem := { s.mem.answered with srcPos := s.mem.srcPos + r.length } }
  | .fails _ => raise .io { s with mem := s.mem.answered }

/-- `SrcRewind()` (R62). A source that is not stable delivers other bytes from here on (R77, U8, log 10). -/
def srcRewind (s : State) : Res Unit :=
  match s.mem.answer with
  | .works => .ok () { s with mem := { s.mem.answered with src := s.mem.rewound.getD s.mem.src, srcPos := 0, rewound := none } }
  | .fails _ => raise .io { s with mem := s.mem.answered }

/-- `n` bytes appended to the sink. -/
def Memory.append (m : Memory) (v : List Byte) : Memory := { m with snk := m.snk ++ v, snkPos := m.snkPos + v.length }

/-- `MemWrite(SNK, n, v)` with `n = |v|` (R63). A write that fails lands a prefix of `v` of the length the collaborator
chose (U6). -/
def memWrite (v : List Byte) (s : State) : Res Unit :=
  match s.mem.answer with
  | .works => .ok () { s with mem := s.mem.answered.append v }
  | .fails landed => raise .io { s with mem := s.mem.answered.append (v.take landed) }

/-- `loop: r <- MemRead(SRC, 1); if |r| = 0: return; body`, the loop of R131 and R204. `fuel` bounds the number of reads;
one more than the bytes left is enough (R294, log 17). -/
def forEachByte (body : Byte → State → Res Unit) : Nat → State → Res Unit
  | 0, _ => .fault .nonTerminating
  | fuel + 1, s =>
    (memRead 1 s).bind fun r s =>
      match r with
      | [] => .ok () s
      | b :: _ => (body b s).bind fun _ s => forEachByte body fuel s

/-! ## Node arena and candidate list -/

/-- `NewNode` (R28): the node goes to `NODE[NODE_CNT]`, its index is the handle. The arena holds the largest tree (R25,
R262), so it is never full here; were it full, nothing would be stored (log 19). -/
def newNode (n : Node) (t : TreeRegs) : Handle × TreeRegs :=
  if h : t.cnt < 511 then (⟨t.cnt, h⟩, { t with node := t.node.set t.cnt n, cnt := t.cnt + 1 }) else (510, t)

/-- Where `PQInsert` puts a handle (R143): immediately before the first candidate of greater frequency, else at the back. -/
def insertByFreq (freq : Handle → Weight) (h : Handle) : List Handle → List Handle
  | [] => [h]
  | e :: es => if freq h < freq e then h :: e :: es else e :: insertByFreq freq h es

/-- `NODE[h]` (R25). -/
def TreeRegs.nodeAt (t : TreeRegs) (h : Handle) : Node := t.node.get h

/-- `NODE[h].freq` (R26). -/
def TreeRegs.freqAt (t : TreeRegs) (h : Handle) : Weight := (t.nodeAt h).freq

/-- `PQInsert(h)` (R143). -/
def pqInsert (h : Handle) (t : TreeRegs) : TreeRegs := { t with pq := insertByFreq t.freqAt h t.pq }

/-- `NewNode` and then `PQInsert` of its handle (R141). -/
def insertNode (n : Node) (t : TreeRegs) : TreeRegs := pqInsert (newNode n t).1 (newNode n t).2

end Sys2Proof.Machine
end

