-- ==== Sys2Proof/Machine/BitReader.lean ====
section
/-! DEFINITION. The Bit Reader: `BRBIT` (`44_bit_reader.md`). -/

namespace Sys2Proof.Machine

/-- The last lines of `BRBIT` (R181): bit `BR_N - 1` of `BR_BUF` is delivered. -/
def deliverBit (s : State) : Res (Option Bool) :=
  .ok (some (s.brBuf.getLsbD (s.brN.val - 1))) (setBrOk true { s with brN := s.brN - 1 })

/-- `BRBIT() -> (bit, ok)` (R181): a byte is pulled when the buffer is exhausted; at the end of the source there is no bit
(R182: the failed result carries none). -/
def brbit (s : State) : Res (Option Bool) :=
  if s.brN.val = 0 then
    (memRead 1 s).bind fun r s =>
      match r with
      | [] => .ok none (setBrOk false s)
      | b :: _ => deliverBit { s with brBuf := b, brN := 8 }
  else deliverBit s

/-- The meaning of `BRBIT`: its result stands in the registers (`State.deliveredBit`, log 27). -/
def execBrbit (s : State) : Host.Outcome State Fault Refusal := (brbit s).outcome

end Sys2Proof.Machine
end

