-- ==== Sys2Proof/Machine/ContainerFormat.lean ====
section
/-! DEFINITION. The Container Format: `HWRITE`, `HREAD` (`45_container_format.md`), for either `HDR_ORDER`. -/

namespace Sys2Proof.Machine

/-- `for s in 0..255: MemWrite(SNK, 4, hdr_32(FREQ[s]))` (R191), over the symbols given. -/
def writeCounts (o : HdrOrder) : List Byte → State → Res Unit
  | [], s => .ok () s
  | b :: bs, s => (memWrite (hdrBytes o 4 (Table.entry s.freq b).toNat) s).bind fun _ s => writeCounts o bs s

/-- `HWRITE` (R191): magic, size, 256 counts. -/
def hwrite (o : HdrOrder) (s : State) : Res Unit :=
  (memWrite magic s).bind fun _ s =>
    (memWrite (hdrBytes o 8 s.size.toNat) s).bind fun _ s => writeCounts o symbols s

/-- The loop over the counts of `HREAD` (R193), over the symbols given. -/
def readCounts (o : HdrOrder) : List Byte → State → Res Unit
  | [], s => .ok () s
  | b :: bs, s =>
    (memRead 4 s).bind fun f s =>
      if f.length < 4 then raise .truncHeader s
      else readCounts o bs { s with freq := Table.put s.freq b (BitVec.ofNat 32 (unhdr o f)) }

/-- `HREAD` (R193): the magic first, a short one included (R195), then the size and the 256 counts. What has been read
before a short field stays in `SIZE` and `FREQ` (R194, U13, log 24). -/
def hread (o : HdrOrder) (s : State) : Res Unit :=
  (memRead 4 s).bind fun m s =>
    if m = magic then
      (memRead 8 s).bind fun z s =>
        if z.length < 8 then raise .truncHeader s
        else readCounts o symbols { s with size := BitVec.ofNat 64 (unhdr o z) }
    else raise .badMagic s

/-- The meaning of `HWRITE`. -/
def execHwrite (s : State) : Host.Outcome State Fault Refusal := (hwrite Config.hdrOrder s).outcome

/-- The meaning of `HREAD`. -/
def execHread (s : State) : Host.Outcome State Fault Refusal := (hread Config.hdrOrder s).outcome

end Sys2Proof.Machine
end

