-- ==== Sys2Proof/Machine/TreeBuilder.lean ====
section
/-! DEFINITION. The Tree Builder: `TBUILD` (`41_tree_builder.md`). -/

namespace Sys2Proof.Machine

/-- Leaf collection for one symbol (R142): a leaf when its count is not zero. -/
def addLeaf (freq : Table Count) (t : TreeRegs) (b : Byte) : TreeRegs :=
  if Table.entry freq b = 0 then t else insertNode (.leaf b ((Table.entry freq b).setWidth 64)) t

/-- The leaves, in ascending order of symbol (R142, D2). -/
def collectLeaves (freq : Table Count) (t : TreeRegs) : TreeRegs := symbols.foldl (addLeaf freq) t

/-- The merge loop (R146, D3): while two candidates are left, the first one popped becomes `left`, the second `right`, and
the new node is inserted. `fuel` bounds the merges; the number of candidates is enough, since each merge takes one. -/
def mergeLoop : Nat → TreeRegs → TreeRegs
  | 0, t => t
  | fuel + 1, t =>
    match t.pq with
    | a :: b :: pq =>
      mergeLoop fuel (insertNode (.internal (t.freqAt a + t.freqAt b) (some a) (some b)) { t with pq := pq })
    | [_] => t
    | [] => t

/-- The end of `TBUILD` (R141): no candidate gives the sentinel, one leaf gets a synthetic root over it (R145), two or
more are merged and the last candidate is the root (R146). `PQ` is empty again. -/
def makeRoot (t : TreeRegs) : TreeRegs :=
  match t.pq with
  | [] => t
  | [a] =>
    let r := newNode (.internal (t.freqAt a) (some a) none) { t with pq := [] }
    { r.2 with root := some r.1 }
  | _ :: _ :: _ =>
    let m := mergeLoop t.pq.length t
    { m with root := m.pq.head?, pq := [] }

/-- `TBUILD` on the tree registers (R141): a function of `FREQ` (R140). -/
def buildTree (freq : Table Count) (t : TreeRegs) : TreeRegs :=
  makeRoot (collectLeaves freq { t with cnt := 0, pq := [], root := none })

/-- `TBUILD` (R141); it raises nothing (R149). -/
def tbuild (s : State) : Res Unit := .ok () { s with tree := buildTree s.freq s.tree }

/-- The meaning of `TBUILD`. -/
def execTbuild (s : State) : Host.Outcome State Fault Refusal := (tbuild s).outcome

end Sys2Proof.Machine
end

