-- ==== Sys2Proof/Machine/Decoder.lean ====
section
/-! DEFINITION. The Decoder: `DWALK` and the command `DECODE` (`47_decoder.md`). -/

namespace Sys2Proof.Machine

/-- An emit step (R221): the symbol is written, the count goes up, the walk returns to the root. -/
def emitStep (root : Handle) (b : Byte) (s : State) : Res Unit :=
  (memWrite [b] s).bind fun _ s => .ok () { s with emitted := s.emitted + 1, cur := root }

/-- A descend step (R221): one bit is read, left on 0, right on 1; exhaustion before a missing child (R222, R223, R259). -/
def descendStep (left right : Option Handle) (s : State) : Res Unit :=
  (brbit s).bind fun bit s =>
    match bit with
    | none => raise .unexpectedEnd s
    | some bit =>
      match if bit then right else left with
      | none => raise .missingChild s
      | some child => .ok () { s with cur := child }

/-- One step of the walk (R221): never both a byte out and a bit in. -/
def walkStep (root : Handle) (s : State) : Res Unit :=
  match s.tree.nodeAt s.cur with
  | .leaf b _ => emitStep root b s
  | .internal _ left right => descendStep left right s

/-- `while EMITTED != SIZE: Step` (R218, R219). `fuel` bounds the steps (R224, log 17). -/
def walkLoop (root : Handle) : Nat → State → Res Unit
  | 0, s => if s.emitted = s.size then .ok () s else .fault .nonTerminating
  | fuel + 1, s => if s.emitted = s.size then .ok () s else (walkStep root s).bind fun _ s => walkLoop root fuel s

/-- The bound of R224 on the steps of the walk: the bits the reader can still deliver, and `SIZE`, and one. -/
def walkBound (s : State) : Nat := 8 * s.mem.rest.length + s.brN.val + s.size.toNat + 1

/-- `DWALK` (R219): no tree is an error before anything is read (R220). The rule's precondition is `SIZE > 0`; for `SIZE = 0`,
which only an operation driven by hand can meet (R217), running the same pseudocode is the model's choice (log 31): `NoTree`
without a tree, else `CUR = ROOT` and `EMITTED = 0` at once. -/
def dwalk (s : State) : Res Unit :=
  match s.tree.root with
  | none => raise .noTree s
  | some root => walkLoop root (walkBound s) { s with cur := root, emitted := 0 }

/-- `DECODE` (R215), with the short cut for size 0 (R217). -/
def runDecode (o : HdrOrder) (s : State) : Res Unit :=
  (startCommand .dHeader s).bind fun _ s =>
  (hread o s).bind fun _ s =>
  (tbuild (goPhase .dBuild s)).bind fun _ s =>
  if s.size = 0 then .ok () (finishCommand s)
  else (dwalk (goPhase .dWalk s)).bind fun _ s => .ok () (finishCommand s)

/-- The meaning of `DWALK`. -/
def execDwalk (s : State) : Host.Outcome State Fault Refusal := (dwalk s).outcome

/-- The meaning of `DECODE`: the whole command. -/
def execDecode (s : State) : Host.Outcome State Fault Refusal := (runDecode Config.hdrOrder s).outcome

end Sys2Proof.Machine
end

