-- ==== Sys2Proof/Machine/BitWriter.lean ====
section
/-! DEFINITION. The Bit Writer: `BWBIT`, `BWBITS`, `BWFLUSH` (`43_bit_writer.md`). -/

namespace Sys2Proof.Machine

/-- `BW_ACC | (b << (7 - BW_N))` (R171). -/
def accWith (acc : Byte) (n : Nat) (b : Bool) : Byte := acc ||| (BitVec.setWidth 8 (BitVec.ofBool b) <<< (7 - n))

/-- `BWBIT(b)` (R171): the bit goes to the next most significant unfilled position; the eighth bit emits the byte. When
that write fails, `BW_N` would hold 8, which its three bits do not: its value is free (W16, U13, log 12). -/
def bwbit (b : Bool) (s : State) : Res Unit :=
  let acc := accWith s.bwAcc s.bwN.val b
  if s.bwN.val < 7 then .ok () { s with bwAcc := acc, bwN := s.bwN + 1 }
  else
    match memWrite [acc] { s with bwAcc := acc } with
    | .ok _ t => .ok () { t with bwAcc := 0, bwN := 0 }
    | .raised t => .raised { t with bwN := Config.freeBwN t.draws, draws := t.draws + 1 }
    | .fault f => .fault f
    | .refused r => .refused r

/-- `BWBITS(p, n)` (R172): `BWBIT(p[i])` for `i` from `n-1` down to 0. -/
def bwbits (p : Pattern) : Nat → State → Res Unit
  | 0, s => .ok () s
  | n + 1, s => (bwbit (p.getLsbD n) s).bind fun _ s => bwbits p n s

/-- `BWFLUSH` (R173): 1 to 7 pending bits are emitted as one byte, whose low bits are already zero. -/
def bwflush (s : State) : Res Unit :=
  if s.bwN.val = 0 then .ok () s
  else (memWrite [s.bwAcc] s).bind fun _ s => .ok () { s with bwAcc := 0, bwN := 0 }

/-- The meaning of `BWBIT`. -/
def execBwbit (b : Bool) (s : State) : Host.Outcome State Fault Refusal := (bwbit b s).outcome

/-- The meaning of `BWBITS`, whose bit count is 0 to 255 (R172, log 21). -/
def execBwbits (p : Pattern) (n : Nat) (s : State) : Host.Outcome State Fault Refusal :=
  if n ≤ Config.codeLenMax then (bwbits p n s).outcome else .refused .operandRange

/-- The meaning of `BWFLUSH`. -/
def execBwflush (s : State) : Host.Outcome State Fault Refusal := (bwflush s).outcome

end Sys2Proof.Machine
end

