-- ==== Sys2Proof/Machine/CodeTableDeriver.lean ====
section
/-! DEFINITION. The Code Table Deriver: `CDERIVE` (`42_code_table_deriver.md`). -/

namespace Sys2Proof.Machine

/-- A leaf's entry recorded (R161). -/
def CodeTable.record (c : CodeTable) (b : Byte) (path : Pattern) (len : CodeLen) : CodeTable where
  len := Table.put c.len b len
  pat := Table.put c.pat b path

/-- `Visit(h, path, len)` (R161): left before right, an absent child is skipped. `fuel` is the number of nodes a path may
still hold: a path of the tree has at most `CODE_LEN_MAX = 255` edges (R9), so 256 nodes, and `none` means that the arena
is no tree (log 16). -/
def visit (t : TreeRegs) : Nat → Handle → Pattern → CodeLen → CodeTable → Option CodeTable
  | 0, _, _, _, _ => none
  | fuel + 1, h, path, len, c =>
    match t.nodeAt h with
    | .leaf b _ => some (c.record b path len)
    | .internal _ left right =>
      let goLeft :=
        match left with
        | none => some c
        | some l => visit t fuel l (growPath path false) (len + 1) c
      goLeft.bind fun c =>
        match right with
        | none => some c
        | some r => visit t fuel r (growPath path true) (len + 1) c

/-- `CDERIVE` (R161): every length cleared, then the walk from `ROOT`, if there is one. -/
def cderive (s : State) : Res Unit :=
  let c : CodeTable := { s.code with len := Table.all 0 }
  match s.tree.root with
  | none => .ok () { s with code := c }
  | some root =>
    match visit s.tree (Config.codeLenMax + 1) root 0 0 c with
    | some c => .ok () { s with code := c }
    | none => .fault .treeTooDeep

/-- The meaning of `CDERIVE`. -/
def execCderive (s : State) : Host.Outcome State Fault Refusal := (cderive s).outcome

end Sys2Proof.Machine
end

