-- ==== Sys2Proof/Machine/FrequencyCounter.lean ====
section
/-! DEFINITION. The Frequency Counter: `FCOUNT` (`40_frequency_counter.md`). -/

namespace Sys2Proof.Machine

/-- One byte counted (R131): `FREQ[b] <- FREQ[b] + 1`, `SIZE <- SIZE + 1`. -/
def countByte (b : Byte) (s : State) : Res Unit :=
  .ok () { s with freq := Table.put s.freq b (Table.entry s.freq b + 1), size := s.size + 1 }

/-- `FCOUNT` (R131) on an input within `MAX_COUNT` and `MAX_LEN`; other inputs are refused before any access (R132, D5,
U1, log 11). Within the limits the two additions are exact. -/
def fcount (s : State) : Res Unit :=
  let input := s.mem.rest
  if Config.maxLen < input.length then .refused .lengthLimit
  else if input.any fun b => decide (Config.maxCount < input.count b) then .refused .countLimit
  else forEachByte countByte (input.length + 1) { s with freq := Table.all 0, size := 0 }

/-- The meaning of `FCOUNT`. -/
def execFcount (s : State) : Host.Outcome State Fault Refusal := (fcount s).outcome

end Sys2Proof.Machine
end

