-- ==== Sys2Proof/Machine/Encoder.lean ====
section
/-! DEFINITION. The Encoder: `EEMIT` and the command `ENCODE` (`46_encoder.md`). -/

namespace Sys2Proof.Machine

/-- One byte of the second pass (R204): its code is written, or `NoCode` is raised (R205). -/
def emitByte (b : Byte) (s : State) : Res Unit :=
  if Table.entry s.code.len b = 0 then raise .noCode s
  else bwbits (Table.entry s.code.pat b) (Table.entry s.code.len b).toNat s

/-- `EEMIT`, the second pass (R204): rewind, then every byte to the end of the source. -/
def eemit (s : State) : Res Unit :=
  (srcRewind s).bind fun _ s => forEachByte emitByte (s.mem.rest.length + 1) s

/-- `ENCODE` (R200), one line a phase. -/
def runEncode (o : HdrOrder) (s : State) : Res Unit :=
  (startCommand .eCount s).bind fun _ s =>
  (fcount s).bind fun _ s =>
  (tbuild (goPhase .eBuild s)).bind fun _ s =>
  (cderive (goPhase .eDerive s)).bind fun _ s =>
  (hwrite o (goPhase .eHeader s)).bind fun _ s =>
  (eemit (goPhase .eEmit s)).bind fun _ s =>
  (bwflush (goPhase .eFlush s)).bind fun _ s =>
  .ok () (finishCommand s)

/-- The meaning of `EEMIT`. -/
def execEemit (s : State) : Host.Outcome State Fault Refusal := (eemit s).outcome

/-- The meaning of `ENCODE`: the whole command. -/
def execEncode (s : State) : Host.Outcome State Fault Refusal := (runEncode Config.hdrOrder s).outcome

end Sys2Proof.Machine
end

