-- ==== Sys2Proof/Machine/Dispatch.lean ====
section
/-! DEFINITION. The dispatch: one arm per operation of `opcode_table.json`. -/

namespace Sys2Proof.Machine

def exec (i : Instr) (s : State) : Host.Outcome State Fault Refusal :=
  match i with
  | .encode => Sys2Proof.Machine.execEncode s
  | .decode => Sys2Proof.Machine.execDecode s
  | .fcount => Sys2Proof.Machine.execFcount s
  | .tbuild => Sys2Proof.Machine.execTbuild s
  | .cderive => Sys2Proof.Machine.execCderive s
  | .bwbit b => Sys2Proof.Machine.execBwbit b s
  | .bwbits p n => Sys2Proof.Machine.execBwbits p n s
  | .bwflush => Sys2Proof.Machine.execBwflush s
  | .brbit => Sys2Proof.Machine.execBrbit s
  | .hwrite => Sys2Proof.Machine.execHwrite s
  | .hread => Sys2Proof.Machine.execHread s
  | .eemit => Sys2Proof.Machine.execEemit s
  | .dwalk => Sys2Proof.Machine.execDwalk s

end Sys2Proof.Machine
end

