-- ==== Sys2Proof/Machine/Sequencer.lean ====
section
/-! DEFINITION. The sequencer: the finer steps of a running command, one working phase a step (`10_state.md` rules R33, R40,
R41, `30_encoding.md` rule R112). `PHASE` names the operation that runs; it stands in for a program counter. -/

namespace Sys2Proof.Machine

/-- The operation each working phase runs (R112). -/
def phaseOp : Phase → Option Instr
  | .eCount => some .fcount
  | .eBuild => some .tbuild
  | .eDerive => some .cderive
  | .eHeader => some .hwrite
  | .eEmit => some .eemit
  | .eFlush => some .bwflush
  | .dHeader => some .hread
  | .dBuild => some .tbuild
  | .dWalk => some .dwalk
  | .idle | .done | .fault => none

/-- Where `PHASE` moves when the operation of a phase returns (R41), with the short cut for `SIZE = 0` (R217). -/
def nextPhase (size : Size) : Phase → Phase
  | .eCount => .eBuild
  | .eBuild => .eDerive
  | .eDerive => .eHeader
  | .eHeader => .eEmit
  | .eEmit => .eFlush
  | .eFlush => .done
  | .dHeader => .dBuild
  | .dBuild => if size = 0 then .done else .dWalk
  | .dWalk => .done
  | .idle => .idle
  | .done => .done
  | .fault => .fault

/-- The move itself: into the next phase, or to the end of the command (R41, R294). -/
def advance (s : State) : State :=
  match nextPhase s.size s.phase with
  | .done => finishCommand s
  | p => goPhase p s

/-- One step of a running command: the operation of `PHASE` runs; when it has not raised, `PHASE` moves on. -/
def sequence (s : State) : Host.Outcome State Fault Refusal :=
  match phaseOp s.phase with
  | none => .next s
  | some i =>
    match exec i s with
    | .next t => .next (if t.phase = .fault then t else advance t)
    | .fault f => .fault f
    | .refused r => .refused r

end Sys2Proof.Machine
end

