-- ==== Sys2Proof/Machine/HostPort.lean ====
section
/-! DEFINITION. What the host does to the engine between commands, and what it reads (`10_state.md` section 3,
`30_encoding.md` rules R111, R113, R114, `70_reset_and_hazards.md` rules R282, R283, R288). -/

namespace Sys2Proof.Machine

/-- The streams a host attaches: the source at its first byte, the sink empty (R64, R283). -/
def freshStreams (src : List Byte) (rewound : Option (List Byte)) (io : List IOAnswer) : Memory where
  src := src
  srcPos := 0
  rewound := rewound
  snk := []
  snkPos := 0
  io := io

/-- A write of `CMD` that starts a command without waiting for it (R41 (1), R113). -/
def writeCmd (w : Byte) (s : State) : State :=
  match decodeCmd w with
  | some .encode => commandStart .eCount s
  | some .decode => commandStart .dHeader s
  | _ => takeError .usage s

/-- A write of `CMD` and the wait for the command's end (R33); a reserved word starts nothing (R113). -/
def runCmd (w : Byte) (s : State) : Host.Outcome State Fault Refusal :=
  match decodeCmd w with
  | some i => exec i s
  | none => .next (takeError .usage s)

/-- One operation driven by hand (R287, log 20). -/
def operate (word : List Byte) (s : State) : Host.Outcome State Fault Refusal :=
  match decode word with
  | .ok (i, _) => exec i s
  | .error _ => .refused (.noOperation word)

/-- One host action, already taken off the list. The host acts only between commands (R288): an action other than waiting
while `STATUS = BUSY` is a fault of the model (R114, U7, log 14). Waiting lets the running command take one step. -/
def hostAct (a : HostAction) (s : State) : Host.Outcome State Fault Refusal :=
  if s.status = .busy then
    match a with
    | .wait => sequence { s with host := .wait :: s.host }
    | .attach _ _ _ | .runCmd _ | .writeCmd _ | .operate _ => .fault .hostProtocol
  else
    match a with
    | .attach src rewound io => .next { s with mem := freshStreams src rewound io }
    | .runCmd w => runCmd w s
    | .writeCmd w => .next (writeCmd w s)
    | .wait => .next s
    | .operate word => operate word s

/-- The registers of the host's window, by number (`10_state.md` section 3). -/
inductive HostReg where
  | cmd
  | status
  | err
  | size
  | emitted
  | phase
  deriving DecidableEq, Repr

/-- What a host reads from a register, zero-extended. `CMD` is write-only: "a read returns no defined value" (R32, U12), a
free value (log 18). -/
def hostRead (r : HostReg) (s : State) : BitVec 64 :=
  match r with
  | .cmd => (Config.freeCmdRead s.draws).setWidth 64
  | .status => s.status.code.setWidth 64
  | .err => s.err.code.setWidth 64
  | .size => s.size
  | .emitted => s.emitted
  | .phase => s.phase.code.setWidth 64

end Sys2Proof.Machine
end

