-- ==== Sys2Proof/Machine/Step.lean ====
section
/-! DEFINITION. One step of the machine: the next host action; with none pending, a running command takes one step of its
sequencer, and an idle engine holds its state (`60_exceptions.md` rule R276). -/

namespace Sys2Proof.Machine

/-- One step. -/
def step (s : State) : Host.Outcome State Fault Refusal :=
  match s.host with
  | a :: rest => hostAct a { s with host := rest }
  | [] => if s.status = .busy then sequence s else .next s

/-- The state in which the very next step runs the instruction of an opcode-table word: the host's next action is the
write of `CMD` for the two command words, and a hand-driven operation for every other word (log 4, log 20). -/
def State.withFetchWord (s : State) (nbits w : Nat) : State :=
  match decodeTableWord nbits w with
  | some .encode => { s with host := .runCmd 0x01 :: s.host }
  | some .decode => { s with host := .runCmd 0x02 :: s.host }
  | _ => { s with host := .operate (tableBytes nbits w) :: s.host }

end Sys2Proof.Machine
end

