-- ==== Sys2Proof/Safety.lean ====
section
/-! DEFINITION. The terms claims are stated in: what the environment must do, what a safe state is, and what the rules say
of bit strings, codes, trees and containers, independently of how the operations compute them. -/

namespace Sys2Proof.Machine

/-! ## The environment -/

/-- No stream access fails from here on (the premise "no I/O failure" of `48_properties.md`). -/
abbrev Memory.NoFailure (m : Memory) : Prop := ∀ a ∈ m.io, a = IOAnswer.works

/-- The next `n` stream accesses work (R65). -/
abbrev Memory.WorksFor (m : Memory) (n : Nat) : Prop := ∀ i, i < n → m.io.getD i .works = .works

/-- The next `n` stream accesses work and the one behind them fails, a write landing `k` bytes (R65, R63). -/
abbrev Memory.FailsAfter (m : Memory) (n k : Nat) : Prop := m.WorksFor n ∧ m.io.getD n .works = .fails k

/-- The source is stable: both passes see the same bytes (R77, R286). -/
abbrev Memory.Stable (m : Memory) : Prop := m.rewound = none

/-- The inputs `ENCODE` is defined on: `MAX_LEN` and `MAX_COUNT` (R10, R132). -/
abbrev InLimits (input : List Byte) : Prop := input.length ≤ Config.maxLen ∧ ∀ b : Byte, input.count b ≤ Config.maxCount

/-- The form of the streams: the source cursor is inside the source, and `SNK_POS = |snk|` (R60). Equal streams are equal
data: a stream is the list of its bytes (log 8). -/
abbrev Memory.wf (m : Memory) : Prop := m.srcPos ≤ m.src.length ∧ m.snkPos = m.snk.length

/-- One byte of the sink, by its offset. -/
def Memory.sinkByte (m : Memory) (a : Nat) : Option Byte := m.snk[a]?

/-- One byte of the source, by its offset. -/
def Memory.sourceByte (m : Memory) (a : Nat) : Option Byte := m.src[a]?

/-! ## Bit strings (`00_scope.md` section 6) -/

/-- The byte whose bit 7 is the first bit, bits past the end being 0. -/
def byteFrom (bs : List Bool) : Byte := BitVec.ofNat 8 ((List.range 8).foldl (fun n j => 2 * n + (bs.getD j false).toNat) 0)

/-- `pack(s)`: bit `i` of `s` at bit `7 - (i mod 8)` of byte `i div 8`, zero padded (`00_scope.md` section 6.2, R95). -/
def pack (bs : List Bool) : List Byte := (List.range ((bs.length + 7) / 8)).map fun i => byteFrom (bs.drop (8 * i))

/-- The first `|s| div 8` bytes of `pack(s)`: those that hold no padding (R176). -/
def fullBytes (bs : List Bool) : List Byte := (List.range (bs.length / 8)).map fun i => byteFrom (bs.drop (8 * i))

/-- The last `|s| mod 8` bits of `s` (R176). -/
def leftover (bs : List Bool) : List Bool := bs.drop (8 * (bs.length / 8))

/-- The streams after bytes have been appended one access a byte, none failing (R66). -/
def Memory.wrote (m : Memory) (v : List Byte) : Memory := { m.append v with io := m.io.drop v.length }

/-- The streams after bytes have been appended in `k` accesses, none failing (R63). -/
def Memory.appended (m : Memory) (v : List Byte) (k : Nat) : Memory := { m.append v with io := m.io.drop k }

/-- The streams after `n` bytes have been read in `k` accesses, none failing (R61). -/
def Memory.consumed (m : Memory) (n k : Nat) : Memory := { m with srcPos := m.srcPos + n, io := m.io.drop k }

/-- The net effect of the Bit Writer on a string of bits, none of its writes failing (R176): with the bits that were
pending in front, the full bytes are in the sink and the rest is pending. -/
def State.afterBits (s : State) (bits : List Bool) : State :=
  { s with
    bwAcc := byteFrom (leftover (s.pendingBits ++ bits))
    bwN := Fin.ofNat 8 (s.pendingBits ++ bits).length
    mem := s.mem.wrote (fullBytes (s.pendingBits ++ bits)) }

/-! ## Codes and containers -/

/-- `code(s) = pat2bits(CODE_PAT[s], CODE_LEN[s])` (R22, R95). -/
def CodeTable.bits (c : CodeTable) (b : Byte) : List Bool := pat2bits (Table.entry c.pat b) (Table.entry c.len b).toNat

/-- `B = code(in[0]) ++ ... ++ code(in[L-1])` (R95, R206). -/
def CodeTable.encodeAll (c : CodeTable) (input : List Byte) : List Bool := input.flatMap c.bits

/-- The header bytes of R90 for a size and a frequency table. -/
def headerBytes (o : HdrOrder) (size : Size) (freq : Table Count) : List Byte :=
  magic ++ hdrBytes o 8 size.toNat ++ symbols.flatMap fun b => hdrBytes o 4 (Table.entry freq b).toNat

/-- The fields of the header in the order of their accesses: magic, size, 256 counts (R90, R191). -/
def headerFields (o : HdrOrder) (size : Size) (freq : Table Count) : List (List Byte) :=
  magic :: hdrBytes o 8 size.toNat :: symbols.map fun b => hdrBytes o 4 (Table.entry freq b).toNat

/-- Field `s` of the 1024 count bytes of a header (R90, R100). -/
def countField (o : HdrOrder) (bytes : List Byte) (b : Byte) : Count := BitVec.ofNat 32 (unhdr o ((bytes.drop (4 * b.toNat)).take 4))

/-- The frequency table of an input: entry `b` is the number of occurrences of `b` (R20, R131). -/
def countsOf (input : List Byte) : Table Count := Vector.ofFn fun i => BitVec.ofNat 32 (input.count (BitVec.ofNat 8 i.val))

/-! ## Trees -/

/-- The shape of a tree below a node: a leaf, the synthetic root over one leaf (R145), or a merged node (R146). -/
inductive Shape where
  | leaf (b : Byte)
  | one (l : Shape)
  | two (l r : Shape)
  deriving DecidableEq, Repr

/-- The root-to-leaf paths, left = 0 and right = 1, with the symbol each ends at (R23). -/
def Shape.paths : Shape → List (Byte × List Bool)
  | .leaf b => [(b, [])]
  | .one l => l.paths.map fun x => (x.1, false :: x.2)
  | .two l r => (l.paths.map fun x => (x.1, false :: x.2)) ++ r.paths.map fun x => (x.1, true :: x.2)

/-- The symbols at the leaves, from left to right. -/
def Shape.symbols : Shape → List Byte
  | .leaf b => [b]
  | .one l => l.symbols
  | .two l r => l.symbols ++ r.symbols

/-- The number of edges on a longest path. -/
def Shape.depth : Shape → Nat
  | .leaf _ => 0
  | .one l => l.depth + 1
  | .two l r => max l.depth r.depth + 1

/-- Whether the shape is an internal node (R29). -/
def Shape.isInternal : Shape → Bool
  | .leaf _ => false
  | .one _ | .two _ _ => true

/-- The arena holds a tree of the given shape at a handle, all its nodes in use (R26, R27). -/
inductive Rep (t : TreeRegs) : Handle → Shape → Prop where
  | leaf {h : Handle} {b : Byte} {f : Weight} (used : h.val < t.cnt) (node : t.nodeAt h = .leaf b f) : Rep t h (.leaf b)
  | one {h l : Handle} {f : Weight} {sl : Shape} (used : h.val < t.cnt) (node : t.nodeAt h = .internal f (some l) none)
      (left : Rep t l sl) : Rep t h (.one sl)
  | two {h l r : Handle} {f : Weight} {sl sr : Shape} (used : h.val < t.cnt)
      (node : t.nodeAt h = .internal f (some l) (some r)) (left : Rep t l sl) (right : Rep t r sr) : Rep t h (.two sl sr)

/-- The handles the arena's used internal nodes name as children, with repetition (R27). -/
def TreeRegs.childRefs (t : TreeRegs) : List Handle :=
  ((List.finRange 511).filter fun h => decide (h.val < t.cnt)).flatMap fun h =>
    match t.nodeAt h with
    | .leaf _ _ => []
    | .internal _ l r => l.toList ++ r.toList

/-- Handle `g` waits to be merged when node `h` is made: it is a handle below `h` that no node below `h` names as a child
(R144, R146). -/
def TreeRegs.Waiting (t : TreeRegs) (h g : Handle) : Prop :=
  g.val < h.val ∧ ∀ (p : Handle) (f : Weight) (l r : Option Handle), p.val < h.val → t.nodeAt p = .internal f l r →
    l ≠ some g ∧ r ≠ some g

/-- The order of the candidate list: frequency, then age (R31, R144). -/
def TreeRegs.Before (t : TreeRegs) (a b : Handle) : Prop :=
  t.freqAt a < t.freqAt b ∨ (t.freqAt a = t.freqAt b ∧ a.val < b.val)

/-- The node reached from a handle along a bit string, left on 0 and right on 1 (R97). -/
def TreeRegs.follow (t : TreeRegs) : Handle → List Bool → Option Handle
  | h, [] => some h
  | h, b :: bs =>
    match t.nodeAt h with
    | .leaf _ _ => none
    | .internal _ l r => (if b then r else l).bind fun c => t.follow c bs

/-- The same tree: `NODE_CNT`, `ROOT`, `PQ` and every node in use agree (R242). Entries at or above `NODE_CNT` hold no
value (R25). -/
def TreeRegs.Same (t u : TreeRegs) : Prop :=
  t.cnt = u.cnt ∧ t.root = u.root ∧ t.pq = u.pq ∧ ∀ h : Handle, h.val < t.cnt → t.nodeAt h = u.nodeAt h

/-- The symbols with a nonzero count, ascending (R142). -/
def usedSymbols (freq : Table Count) : List Byte := symbols.filter fun b => decide (Table.entry freq b ≠ 0)

/-! ## Results of commands -/

/-- Two states a host cannot tell apart after a command: the registers it reads and both streams agree (R45, R271). -/
structure SameResult (s t : State) : Prop where
  status : s.status = t.status
  err : s.err = t.err
  phase : s.phase = t.phase
  size : s.size = t.size
  emitted : s.emitted = t.emitted
  mem : s.mem = t.mem

/-- Two outcomes a host cannot tell apart. -/
def SameOutcome : Host.Outcome State Fault Refusal → Host.Outcome State Fault Refusal → Prop
  | .next s, .next t => SameResult s t
  | .fault f, .fault g => f = g
  | .refused f, .refused g => f = g
  | _, _ => False

/-! ## Operations in a row, and their errors -/

/-- Operations driven one after the other (R287), up to a stop. -/
def execAll : List Instr → State → Host.Outcome State Fault Refusal
  | [], s => .next s
  | i :: is, s =>
    match exec i s with
    | .next t => execAll is t
    | .fault f => .fault f
    | .refused r => .refused r

/-- The errors an operation may raise, those of the operations it runs included: the column "Raised by" of R250. -/
def raisedBy : Instr → List Err
  | .encode => [.io, .noCode]
  | .decode => [.io, .badMagic, .truncHeader, .noTree, .missingChild, .unexpectedEnd]
  | .fcount | .bwbit _ | .bwbits _ _ | .bwflush | .brbit | .hwrite => [.io]
  | .tbuild | .cderive => []
  | .hread => [.io, .badMagic, .truncHeader]
  | .eemit => [.io, .noCode]
  | .dwalk => [.io, .noTree, .missingChild, .unexpectedEnd]

/-! ## Safe states -/

/-- What the tree registers hold between operations: no candidate (R30), at most 511 nodes (R25), and at `ROOT`, if there
is one, a tree whose root is internal (R29), no deeper than 255 (R9), with no symbol twice (R27). -/
def TreeRegs.Ok (t : TreeRegs) : Prop :=
  t.pq = [] ∧ t.cnt ≤ 511 ∧
    ∀ r, t.root = some r → ∃ sh, Rep t r sh ∧ sh.isInternal = true ∧ sh.depth ≤ Config.codeLenMax ∧ sh.symbols.Nodup

/-- The invariant of the Bit Writer's buffer: the bits of `BW_ACC` below the pending ones are zero (R37). -/
abbrev State.WriterOk (s : State) : Prop := ∀ i : Nat, i < 8 - s.bwN.val → s.bwAcc.getLsbD i = false

/-- `STATUS`, `PHASE` and `ERR` agree: `BUSY` exactly in a working phase (R33), the ends of a command in both registers
(R294), an error code exactly on `FAULT` (R34). -/
abbrev State.ControlOk (s : State) : Prop :=
  (s.status = .busy ↔ s.phase.working = true) ∧ (s.status = .done ↔ s.phase = .done) ∧ (s.status = .fault ↔ s.phase = .fault) ∧
    (s.status = .idle ↔ s.phase = .idle) ∧ (s.status = .fault ↔ s.err ≠ .none)

/-- The invariant every step keeps. After a fault the Bit Writer's buffer means nothing (U13). -/
structure State.Inv (s : State) : Prop where
  control : s.ControlOk
  streams : s.mem.wf
  tree : s.tree.Ok
  writer : s.status ≠ .fault → s.WriterOk

/-- The moves of `PHASE` from one phase to another (R41): the two pipelines, the short cut for `SIZE = 0`, a command
written in `IDLE`, `DONE` or `FAULT`, and an error in a working phase or on a reserved command word (R113). -/
def PhaseMove (size : Size) : Phase → Phase → Prop
  | .idle, q | .done, q | .fault, q => q = .eCount ∨ q = .dHeader ∨ q = .fault
  | .eCount, q => q = .eBuild ∨ q = .fault
  | .eBuild, q => q = .eDerive
  | .eDerive, q => q = .eHeader
  | .eHeader, q => q = .eEmit ∨ q = .fault
  | .eEmit, q => q = .eFlush ∨ q = .fault
  | .eFlush, q => q = .done ∨ q = .fault
  | .dHeader, q => q = .dBuild ∨ q = .fault
  | .dBuild, q => (q = .dWalk ∧ size ≠ 0) ∨ (q = .done ∧ size = 0)
  | .dWalk, q => q = .done ∨ q = .fault

end Sys2Proof.Machine
end

