-- ==== Sys2Proof/Certificates/Slice0/Obligations.lean ====
section
/-! DEFINITION. The statements for the provers, each with the rules of the spec it formalises. `Memory.NoFailure` is the
premise "no I/O failure", `Memory.FailsAfter` says which access fails first, `Memory.Stable` is the premise of rule R286,
`InLimits` the domain of rule R132; a statement without them holds whatever the accesses answer. -/

open Sys2Proof Sys2Proof.Machine

/-! ## The machine: reset, the host, the sequencer, errors -/

/-- R46 (section 7 of `10_state.md`) column 2, R280: the registers with a stated reset value. That no host action is pending,
`host = []`, is the model's choice (log 4): the list is the model's own field. -/
def Obligations.ResetGivesTheStatedValues : Prop :=
  State.reset.status = .idle ∧ State.reset.err = .none ∧ State.reset.phase = .idle ∧ State.reset.size = 0 ∧
    State.reset.emitted = 0 ∧ State.reset.tree.cnt = 0 ∧ State.reset.tree.root = none ∧ State.reset.tree.pq = [] ∧
    State.reset.bwN = 0 ∧ State.reset.bwAcc = 0 ∧ State.reset.brN = 0 ∧ State.reset.brOk = true ∧
    State.reset.mem.srcPos = 0 ∧ State.reset.mem.snkPos = 0 ∧ State.reset.host = []

/-- R33, R112, R250: the codes a host reads from `STATUS`, `PHASE` and `ERR`. -/
def Obligations.HostReadsTheCodes : Prop :=
  ∀ s : State,
    (s.status = .idle → hostRead .status s = 0) ∧ (s.status = .busy → hostRead .status s = 1) ∧
    (s.status = .done → hostRead .status s = 2) ∧ (s.status = .fault → hostRead .status s = 3) ∧
    hostRead .size s = s.size ∧ hostRead .emitted s = s.emitted ∧
    (∀ p c, (p, c) ∈ [(Phase.idle, 0x0), (.eCount, 0x1), (.eBuild, 0x2), (.eDerive, 0x3), (.eHeader, 0x4), (.eEmit, 0x5),
      (.eFlush, 0x6), (.dHeader, 0x7), (.dBuild, 0x8), (.dWalk, 0x9), (.done, 0xE), (.fault, 0xF)] →
      s.phase = p → hostRead .phase s = c) ∧
    (∀ e c, (e, c) ∈ [(Err.none, 0x00), (.io, 0x01), (.badMagic, 0x02), (.truncHeader, 0x03), (.noTree, 0x04),
      (.missingChild, 0x05), (.unexpectedEnd, 0x06), (.noCode, 0x07), (.overrun, 0x08), (.usage, 0x09)] →
      s.err = e → hostRead .err s = c)

/-- R26, R29, R30, R33, R34, R37, R60, R294: reset meets the invariant. -/
def Obligations.ResetMeetsTheInvariant : Prop := State.reset.Inv

/-- R26, R29, R30, R33, R34, R37, R60, R294: from every state that meets the invariant, a step leads to one that does. -/
def Obligations.StepKeepsTheInvariant : Prop := ∀ s t : State, s.Inv → step s = .next t → t.Inv

/-- R33, R287, R288 (logs 4, 20): a step with a pending host action runs the operation the action names, that of an
opcode-table word included; attaching puts the source at its first byte and empties the sink (R282, R283); a wait ends when
no command runs; a hand-driven word that names no operation is refused (log 5); with no action, an idle engine stays as it is
(R276). While a command runs, a waiting host and one with no further action let it take one step: the operation of its
phase, and the move of `PHASE` when that has not raised (R41, R112, logs 3, 14). -/
def Obligations.StepRunsTheOperation : Prop :=
  (∀ s : State, s.status ≠ .busy →
    (∀ i word rest tail, decode word = .ok (i, rest) →
      step { s with host := .operate word :: tail } = exec i { s with host := tail }) ∧
    (∀ tail, step { s with host := .runCmd 0x01 :: tail } = exec .encode { s with host := tail }) ∧
    (∀ tail, step { s with host := .runCmd 0x02 :: tail } = exec .decode { s with host := tail }) ∧
    (∀ nbits w i, decodeTableWord nbits w = some i → step (s.withFetchWord nbits w) = exec i s) ∧
    (∀ src rewound io tail, step { s with host := .attach src rewound io :: tail } = .next { s with
      host := tail, mem := { src := src, srcPos := 0, rewound := rewound, snk := [], snkPos := 0, io := io } }) ∧
    (∀ tail, step { s with host := .wait :: tail } = .next { s with host := tail }) ∧
    (∀ word e tail, decode word = .error e → step { s with host := .operate word :: tail } = .refused (.noOperation word)) ∧
    (s.host = [] → step s = .next s)) ∧
  ∀ (s t : State) (i : Instr), s.status = .busy → s.host = [] ∨ (∃ tail, s.host = .wait :: tail) → phaseOp s.phase = some i →
    exec i s = .next t → step s = .next (if t.phase = .fault then t else advance t)

/-- R113: a reserved command word. -/
def Obligations.ReservedCommandWordIsUsageError : Prop :=
  ∀ (s : State) (w : Byte) (tail : List HostAction), s.status ≠ .busy → w ≠ 0x01 → w ≠ 0x02 →
    step { s with host := .runCmd w :: tail } = .next { s with host := tail, status := .fault, err := .usage, phase := .fault } ∧
    step { s with host := .writeCmd w :: tail } = .next { s with host := tail, status := .fault, err := .usage, phase := .fault }

/-- R114, R288, U7 (log 14): while `STATUS = BUSY` the host may only wait (what a wait does then: `StepRunsTheOperation`). -/
def Obligations.HostActionWhileBusyHasNoStep : Prop :=
  ∀ (s : State) (a : HostAction) (tail : List HostAction), s.status = .busy → a ≠ .wait →
    step { s with host := a :: tail } = .fault .hostProtocol ∧
    exec .encode s = .fault .hostProtocol ∧ exec .decode s = .fault .hostProtocol

/-- R201 with R46 (section 7 of `10_state.md`) column 3 and R64: command start; the action is taken off the pending ones. Of `CODE_PAT`, `NODE`, `BR_BUF`, `CUR`, unspecified there, nothing is said
(U4). -/
def Obligations.CommandStartSetsEveryRegister : Prop :=
  ∀ (s : State) (w : Byte) (tail : List HostAction), s.status ≠ .busy → w = 0x01 ∨ w = 0x02 →
    ∃ t, step { s with host := .writeCmd w :: tail } = .next t ∧
      t.status = .busy ∧ t.err = .none ∧ t.phase = (if w = 0x01 then .eCount else .dHeader) ∧ t.size = 0 ∧ t.emitted = 0 ∧
      (∀ b, Table.entry t.freq b = 0) ∧ (∀ b, Table.entry t.code.len b = 0) ∧
      t.tree.cnt = 0 ∧ t.tree.root = none ∧ t.tree.pq = [] ∧ t.bwAcc = 0 ∧ t.bwN = 0 ∧ t.brN = 0 ∧ t.brOk = true ∧
      t.mem = { s.mem with srcPos := 0, snk := [], snkPos := 0 } ∧ t.host = tail ∧
      { t with
        host := s.host, status := s.status, err := s.err, phase := s.phase, size := s.size, emitted := s.emitted
        freq := s.freq, code := s.code, tree := s.tree, bwAcc := s.bwAcc, bwN := s.bwN
        brBuf := s.brBuf, brN := s.brN, brOk := s.brOk, cur := s.cur, mem := s.mem } = s

/-- R41, R113, R217: the moves of `PHASE`, a command that is not waited for being run step by step. -/
def Obligations.PhaseMovesAlongThePipelines : Prop :=
  ∀ s t : State, s.Inv → (∀ w tail, s.host ≠ .runCmd w :: tail) → (∀ word tail, s.host ≠ .operate word :: tail) →
    step s = .next t → t.phase = s.phase ∨ PhaseMove s.size s.phase t.phase

/-- R33, R41, R112, R200, R215: a command run step by step ends as the command does that a host waits for. -/
def Obligations.PhaseStepsMakeUpTheCommands : Prop :=
  ∀ s : State,
    Host.Core.run core 7 { s with host := [.writeCmd 0x01] } = exec .encode { s with host := [] } ∧
    Host.Core.run core 4 { s with host := [.writeCmd 0x02] } = exec .decode { s with host := [] }

/-- R256, and R34: what a raise does, and that nothing else touches the three registers in an internal operation. That the
other registers keep their values after a raise is R256 against U13 (log 26); the one operation that changes something behind
its raise is a failing `BWBIT`, whose `BW_N` is the free value of log 12. -/
def Obligations.RaiseTakesTheError : Prop :=
  (∀ (e : Err) (s : State) (k : Unit → State → Res Unit),
    (raise e s : Res Unit).bind k = .raised { s with err := e, status := .fault, phase := .fault }) ∧
  ∀ (i : Instr) (s t : State), i.isCommand = false → exec i s = .next t →
    (t.status = s.status ∧ t.err = s.err ∧ t.phase = s.phase) ∨ (t.status = .fault ∧ t.err ≠ .none ∧ t.phase = .fault)

/-- R250 column "Raised by", R225, R252, R254: which operation may raise which error; `E_OVERRUN` and the usage error are
in no operation's list. Header errors and `NoTree` leave the sink of `DECODE` empty (R226). -/
def Obligations.OperationsRaiseOnlyTheirErrors : Prop :=
  (∀ (i : Instr) (s t : State), exec i s = .next t →
    (i.isCommand = false ∧ t.err = s.err) ∨ (i.isCommand = true ∧ t.status = .done ∧ t.err = .none) ∨
      (t.err ∈ raisedBy i ∧ t.status = .fault)) ∧
  ∀ s t : State, exec .decode s = .next t → t.err = .badMagic ∨ t.err = .truncHeader ∨ t.err = .noTree → t.mem.snk = []

/-- R294, R149, R224: every operation ends, whatever the accesses answer and whether or not the source is stable. On an arena
that is no tree, which no run reaches, `CDERIVE` may stop (the model's choice, log 16); that `DWALK` ends for `SIZE = 0`, outside
its precondition, is the model's choice too (log 31). -/
def Obligations.EveryOperationEnds : Prop :=
  ∀ s : State,
    (s.status ≠ .busy → InLimits s.mem.src →
      ∃ t, exec .encode s = .next t ∧ (t.status = .done ∧ t.phase = .done ∨ t.status = .fault ∧ t.phase = .fault)) ∧
    (s.status ≠ .busy →
      ∃ t, exec .decode s = .next t ∧ (t.status = .done ∧ t.phase = .done ∨ t.status = .fault ∧ t.phase = .fault)) ∧
    (InLimits s.mem.rest → ∃ t, exec .fcount s = .next t) ∧ (∃ t, exec .tbuild s = .next t) ∧
    (s.tree.Ok → ∃ t, exec .cderive s = .next t) ∧
    ((∃ t, exec .cderive s = .next t) ∨ exec .cderive s = .fault .treeTooDeep) ∧ (∀ b, ∃ t, exec (.bwbit b) s = .next t) ∧
    (∀ p n, n ≤ 255 → ∃ t, exec (.bwbits p n) s = .next t) ∧ (∃ t, exec .bwflush s = .next t) ∧
    (∃ t, exec .brbit s = .next t) ∧ (∃ t, exec .hwrite s = .next t) ∧ (∃ t, exec .hread s = .next t) ∧
    (∃ t, exec .eemit s = .next t) ∧ (∃ t, exec .dwalk s = .next t)

/-- R65, R251, with R63 (U6): an operation whose first access fails takes `E_IO` and does nothing more; a failing write
lands a prefix of what it writes. What `BW_N` holds after a failing `BWBIT` is open, the model's free value (log 12). The
second part: wherever an access of `FCOUNT`, `HWRITE` or `HREAD` fails, what the accesses before it did stays (logs 6, 24
to 26). Later accesses of `BWBITS`: `BwbitsAppendsThePattern`; of `EEMIT` and `DWALK`: `LaterFailingAccessEndsThePass`. -/
def Obligations.FailingAccessIsFatal : Prop :=
  (∀ (s : State) (k : Nat), s.mem.answer = .fails k →
    (InLimits s.mem.rest → ∃ t, exec .fcount s = .next t ∧ t.err = .io ∧ t.status = .fault ∧ t.mem = s.mem.answered) ∧
    exec .hread s = .next (takeError .io { s with mem := s.mem.answered }) ∧
    exec .hwrite s = .next (takeError .io { s with mem := s.mem.answered.append (magic.take k) }) ∧
    exec .eemit s = .next (takeError .io { s with mem := s.mem.answered }) ∧
    (s.brN = 0 → exec .brbit s = .next (takeError .io { s with mem := s.mem.answered })) ∧
    (s.bwN ≠ 0 → exec .bwflush s = .next (takeError .io { s with mem := s.mem.answered.append ([s.bwAcc].take k) })) ∧
    (∀ root f l r, s.tree.root = some root → s.tree.nodeAt root = .internal f l r → s.size ≠ 0 → s.brN = 0 →
      exec .dwalk s = .next (takeError .io { s with cur := root, emitted := 0, mem := s.mem.answered })) ∧
    ∀ b, s.bwN.val = 7 →
      let acc : Byte := if b then s.bwAcc ||| 0x01 else s.bwAcc
      ∃ n d, exec (.bwbit b) s =
        .next (takeError .io { s with bwAcc := acc, bwN := n, draws := d, mem := s.mem.answered.append ([acc].take k) })) ∧
  ∀ (s : State) (j k : Nat), s.mem.FailsAfter j k →
    (InLimits s.mem.rest → j ≤ s.mem.rest.length →
      exec .fcount s = .next (takeError .io { s with
        freq := countsOf (s.mem.rest.take j), size := BitVec.ofNat 64 j, mem := s.mem.consumed j (j + 1) })) ∧
    (j < 258 →
      let fields := headerFields Config.hdrOrder s.size s.freq
      exec .hwrite s = .next (takeError .io { s with
        mem := s.mem.appended ((fields.take j).flatten ++ (fields.getD j []).take k) (j + 1) })) ∧
    (j < 2 → j = 0 ∨ s.mem.rest.take 4 = [0x48, 0x55, 0x46, 0x31] →
      exec .hread s = .next (takeError .io { s with mem := s.mem.consumed (4 * j) (j + 1) })) ∧
    ∀ i, j = i + 2 → i < 256 → s.mem.rest.take 4 = [0x48, 0x55, 0x46, 0x31] → 12 + 4 * i ≤ s.mem.rest.length →
      ∃ freq, exec .hread s = .next (takeError .io { s with
          size := BitVec.ofNat 64 (unhdr Config.hdrOrder ((s.mem.rest.drop 4).take 8))
          freq := freq, mem := s.mem.consumed (12 + 4 * i) (i + 3) }) ∧
        ∀ b, Table.entry freq b = if b.toNat < i then
            BitVec.ofNat 32 (unhdr Config.hdrOrder ((s.mem.rest.drop (12 + 4 * b.toNat)).take 4))
          else Table.entry s.freq b

/-- R281, R45: the result of a command is a function of its word, the source, the parameters and the answers. -/
def Obligations.ResultIsAFunctionOfTheSource : Prop :=
  ∀ s t : State, s.status ≠ .busy → t.status ≠ .busy → s.mem.src = t.mem.src → s.mem.rewound = t.mem.rewound →
    s.mem.io = t.mem.io →
    SameOutcome (exec .encode s) (exec .encode t) ∧ SameOutcome (exec .decode s) (exec .decode t)

/-! ## Encodings -/

/-- R110, R111, and the layout of operands of log 5: words written out from the ids. -/
def Obligations.WordsDecodeToTheirOperations : Prop :=
  decode [0x01] = .ok (.encode, []) ∧ decode [0x02] = .ok (.decode, []) ∧ decode [0x03] = .ok (.fcount, []) ∧
    decode [0x04] = .ok (.tbuild, []) ∧ decode [0x05] = .ok (.cderive, []) ∧ decode [0x06, 0x01] = .ok (.bwbit true, []) ∧
    decode [0x08] = .ok (.bwflush, []) ∧ decode [0x09] = .ok (.brbit, []) ∧ decode [0x0A] = .ok (.hwrite, []) ∧
    decode [0x0B] = .ok (.hread, []) ∧ decode [0x0C] = .ok (.eemit, []) ∧ decode [0x0D] = .ok (.dwalk, []) ∧
    decodeCmd 0x01 = some .encode ∧ decodeCmd 0x02 = some .decode

/-- R110 with log 5: decoding undoes encoding, for every operation and every operand. -/
def Obligations.DecodeUndoesEncode : Prop :=
  ∀ (i : Instr) (rest : List Byte), WellFormed i = true → decode (encode i ++ rest) = .ok (i, rest)

/-- R110 with log 5: what decodes is the encoding of a well-formed operation, first bytes that are no id are refused, and so
is a bit count beyond 255 (log 21). -/
def Obligations.OnlyEncodingsDecode : Prop :=
  (∀ (word rest : List Byte) (i : Instr), decode word = .ok (i, rest) → word = encode i ++ rest ∧ WellFormed i = true) ∧
  (∀ (w : Byte) (rest : List Byte), w = 0 ∨ 0x0E ≤ w → decode (w :: rest) = .error (.reservedId w)) ∧
  ∀ (p : Pattern) (n : Nat) (s : State), 255 < n →
    WellFormed (.bwbits p n) = false ∧ exec (.bwbits p n) s = .refused .operandRange

/-! ## Frequency Counter -/

/-- R131: `FCOUNT`. -/
def Obligations.FcountCountsTheSource : Prop :=
  (∀ s : State, s.mem.wf → s.mem.NoFailure → InLimits s.mem.rest →
    ∃ t, exec .fcount s = .next t ∧ (∀ b, (Table.entry t.freq b).toNat = s.mem.rest.count b) ∧
      t.size.toNat = s.mem.rest.length ∧ (symbols.map fun b => (Table.entry t.freq b).toNat).sum = t.size.toNat ∧
      t.mem.srcPos = s.mem.src.length ∧
      { t with freq := s.freq, size := s.size, mem := { t.mem with srcPos := s.mem.srcPos, io := s.mem.io } } = s) ∧
  ∀ s t : State, exec .fcount s = .next t →
    (t.status = s.status ∧ t.err = s.err ∧ t.phase = s.phase) ∨ (t.status = .fault ∧ t.err = .io ∧ t.phase = .fault)

/-- R132 (D5, log 11): inputs beyond the limits are refused, by `FCOUNT` and by `ENCODE`. -/
def Obligations.InputsBeyondTheLimitsAreRefused : Prop :=
  ∀ s : State,
    (¬ InLimits s.mem.rest → exec .fcount s = .refused .lengthLimit ∨ exec .fcount s = .refused .countLimit) ∧
    (s.status ≠ .busy → ¬ InLimits s.mem.src → exec .encode s = .refused .lengthLimit ∨ exec .encode s = .refused .countLimit)

/-! ## Tree Builder and Code Table Deriver -/

/-- R143, with the order it keeps (R31). -/
def Obligations.InsertGoesBehindEqualFrequency : Prop :=
  ∀ (h : Handle) (t : TreeRegs), ∃ before after,
    t.pq = before ++ after ∧ pqInsert h t = { t with pq := before ++ h :: after } ∧
    (∀ e ∈ before, t.freqAt e ≤ t.freqAt h) ∧ (∀ e es, after = e :: es → t.freqAt h < t.freqAt e) ∧
    (t.pq.Pairwise (fun a b => t.freqAt a ≤ t.freqAt b) →
      (∀ e ∈ after, t.freqAt h < t.freqAt e) ∧ (pqInsert h t).pq.Pairwise fun a b => t.freqAt a ≤ t.freqAt b)

/-- R141, R142, R144, R145, R146, R147: what `TBUILD` leaves, for no symbol, one symbol, and more. The children of a merged
node are the two first candidates in the order of frequency and then age, the first on the left, also on a tie (D3): among
the handles below it that no earlier node names, the least and the next. -/
def Obligations.TbuildBuildsTheTree : Prop :=
  ∀ s : State, ∃ t, exec .tbuild s = .next t ∧ { t with tree := s.tree } = s ∧ t.tree.pq = [] ∧
    (usedSymbols s.freq = [] → t.tree.root = none ∧ t.tree.cnt = 0) ∧
    (∀ v, usedSymbols s.freq = [v] → t.tree.cnt = 2 ∧ t.tree.root = some 1 ∧
      t.tree.nodeAt 0 = .leaf v ((Table.entry s.freq v).setWidth 64) ∧
      t.tree.nodeAt 1 = .internal ((Table.entry s.freq v).setWidth 64) (some 0) none) ∧
    (2 ≤ (usedSymbols s.freq).length →
      t.tree.cnt = 2 * (usedSymbols s.freq).length - 1 ∧
      (∃ r, t.tree.root = some r ∧ r.val = 2 * (usedSymbols s.freq).length - 2 ∧
        (t.tree.freqAt r).toNat = (symbols.map fun b => (Table.entry s.freq b).toNat).sum) ∧
      (∀ (i : Nat) (hi : i < (usedSymbols s.freq).length) (h : i < 511),
        t.tree.nodeAt ⟨i, h⟩ = .leaf (usedSymbols s.freq)[i] ((Table.entry s.freq (usedSymbols s.freq)[i]).setWidth 64)) ∧
      (∀ h : Handle, (usedSymbols s.freq).length ≤ h.val → h.val < t.tree.cnt →
        ∃ f l r, t.tree.nodeAt h = .internal f (some l) (some r) ∧ l.val < h.val ∧ r.val < h.val ∧
          f.toNat = (t.tree.freqAt l).toNat + (t.tree.freqAt r).toNat ∧ t.tree.freqAt l ≤ t.tree.freqAt r ∧
          t.tree.Waiting h l ∧ t.tree.Waiting h r ∧ t.tree.Before l r ∧
          ∀ g, t.tree.Waiting h g → g = l ∨ g = r ∨ t.tree.Before r g)) ∧
    (∀ r, t.tree.root = some r → ∃ sh, Rep t.tree r sh ∧ sh.isInternal = true ∧ sh.symbols.Perm (usedSymbols s.freq) ∧
      sh.depth ≤ max 1 ((usedSymbols s.freq).length - 1))

/-- R27: one rooted tree, no sharing, no cycles, from the end of `TBUILD` on: no other operation touches it, until the next
command releases it. -/
def Obligations.TreeHasNoSharingAndNoCycles : Prop :=
  (∀ s t : State, exec .tbuild s = .next t → ∀ r, t.tree.root = some r → ∀ h : Handle, h.val < t.tree.cnt →
    (h ≠ r → t.tree.childRefs.count h = 1) ∧ (h = r → t.tree.childRefs.count h = 0) ∧ ∃! p, t.tree.follow r p = some h) ∧
  ∀ (i : Instr) (s t : State), i.isCommand = false → i ≠ .tbuild → exec i s = .next t → t.tree = s.tree

/-- R140, R151 (5): the same table always gives the same tree, whatever the arena held. -/
def Obligations.TbuildIsAFunctionOfTheTable : Prop :=
  ∀ s s' t t' : State, s.freq = s'.freq → exec .tbuild s = .next t → exec .tbuild s' = .next t' → t.tree.Same t'.tree

/-- R161, R162: `CDERIVE` records, for each leaf, the path to it from the root, its pattern read as a binary number, and
clears the length of every other symbol; it changes the code table only. Of the pattern of a symbol without a code nothing is
said (U5). -/
def Obligations.CderiveRecordsThePaths : Prop :=
  ∀ s : State, s.tree.Ok → ∃ t, exec .cderive s = .next t ∧ { t with code := s.code } = s ∧
    (s.tree.root = none → ∀ b, Table.entry t.code.len b = 0) ∧
    ∀ r, s.tree.root = some r → ∀ b,
      (∀ p g f, s.tree.follow r p = some g → s.tree.nodeAt g = .leaf b f →
        t.code.bits b = p ∧ (Table.entry t.code.len b).toNat = p.length ∧ p ≠ [] ∧
        (Table.entry t.code.pat b).toNat = p.foldl (fun n x => 2 * n + x.toNat) 0) ∧
      ((∀ p g f, s.tree.follow r p = some g → s.tree.nodeAt g ≠ .leaf b f) → Table.entry t.code.len b = 0)

/-- R162, R163: a symbol has a code exactly when its count is not zero; one symbol alone has the code "0". -/
def Obligations.CodesGoToSymbolsThatOccur : Prop :=
  ∀ s : State, ∃ u t, exec .tbuild s = .next u ∧ exec .cderive u = .next t ∧
    (∀ b, 0 < (Table.entry t.code.len b).toNat ↔ Table.entry s.freq b ≠ 0) ∧
    (∀ b, (Table.entry t.code.len b).toNat ≤ 255) ∧
    (usedSymbols s.freq = [] → ∀ b, Table.entry t.code.len b = 0) ∧
    ∀ v, usedSymbols s.freq = [v] → t.code.bits v = [false] ∧ (Table.entry t.code.len v).toNat = 1

/-- R239: the assigned codes are prefix-free, for every frequency table. -/
def Obligations.CodesArePrefixFree : Prop :=
  ∀ s : State, ∃ u t, exec .tbuild s = .next u ∧ exec .cderive u = .next t ∧
    ∀ a b : Byte, a ≠ b → 0 < (Table.entry t.code.len a).toNat → 0 < (Table.entry t.code.len b).toNat →
      ¬ t.code.bits a <+: t.code.bits b

/-! ## Bit Writer -/

/-- R171: `BWBIT`. -/
def Obligations.BwbitAppendsOneBit : Prop :=
  ∀ (b : Bool) (s : State),
    let acc : Byte := if b then s.bwAcc ||| (0x80#8 >>> s.bwN.val) else s.bwAcc
    (s.bwN.val < 7 → exec (.bwbit b) s = .next { s with bwAcc := acc, bwN := s.bwN + 1 }) ∧
    (s.bwN.val = 7 → s.mem.answer = .works →
      exec (.bwbit b) s = .next { s with bwAcc := 0, bwN := 0, mem := s.mem.answered.append [acc] }) ∧
    (s.bwN.val = 7 → s.mem.answer ≠ .works →
      ∃ t, exec (.bwbit b) s = .next t ∧ t.err = .io ∧ t.status = .fault ∧ t.phase = .fault)

/-- R172: `BWBITS(p, n)` is `BWBIT` on each bit of `pat2bits(p, n)`, with its effect on the buffer and the sink; when a write
fails in mid-pattern, the bytes emitted before it stay in the sink, behind them what the failing write of the next one landed
(R63), and no byte after it; a failure beyond the bytes filled is not met. -/
def Obligations.BwbitsAppendsThePattern : Prop :=
  ∀ (p : Pattern) (n : Nat) (s : State),
    (n ≤ 255 → s.mem.NoFailure → exec (.bwbits p n) s = execAll ((pat2bits p n).map Instr.bwbit) s) ∧
    (n ≤ 255 → s.mem.NoFailure → s.WriterOk → exec (.bwbits p n) s = .next (s.afterBits (pat2bits p n))) ∧
    (n ≤ 255 → s.WriterOk → ∃ t v, exec (.bwbits p n) s = .next t ∧ t.mem.snk = s.mem.snk ++ v ∧
      v <+: fullBytes (s.pendingBits ++ pat2bits p n) ∧
      ((t.status = s.status ∧ t.err = s.err ∧ t.phase = s.phase ∧ v = fullBytes (s.pendingBits ++ pat2bits p n)) ∨
        (t.status = .fault ∧ t.err = .io ∧ t.phase = .fault))) ∧
    (n ≤ 255 → s.WriterOk → ∀ j k, s.mem.FailsAfter j k →
      let full := fullBytes (s.pendingBits ++ pat2bits p n)
      (j < full.length → ∃ t, exec (.bwbits p n) s = .next (takeError .io t) ∧
        t.mem.snk = s.mem.snk ++ full.take j ++ ((full.drop j).take 1).take k) ∧
      (full.length ≤ j → exec (.bwbits p n) s = .next (s.afterBits (pat2bits p n))))

/-- R173: `BWFLUSH`. The byte emitted is `BW_ACC` itself, in a sound buffer the pending bits and zeros in the low bits. -/
def Obligations.BwflushEmitsThePendingBits : Prop :=
  ∀ s : State,
    (s.bwN = 0 → exec .bwflush s = .next s) ∧
    (s.bwN ≠ 0 → s.mem.answer = .works →
      exec .bwflush s = .next { s with bwAcc := 0, bwN := 0, mem := s.mem.answered.append [s.bwAcc] }) ∧
    (s.bwN ≠ 0 → s.WriterOk → [s.bwAcc] = pack s.pendingBits) ∧
    (s.bwN ≠ 0 → s.mem.answer ≠ .works →
      ∃ t, exec .bwflush s = .next t ∧ t.err = .io ∧ t.status = .fault ∧ t.phase = .fault)

/-- R174: flush twice, and write after flush. -/
def Obligations.FlushAgainEmitsNothing : Prop :=
  ∀ s : State, s.mem.NoFailure → s.WriterOk →
    ∃ t, exec .bwflush s = .next t ∧ t.mem.snk = s.mem.snk ++ pack s.pendingBits ∧ exec .bwflush t = .next t ∧
      ∀ b, exec (.bwbit b) t = .next { t with bwAcc := if b then 0x80 else 0x00, bwN := 1 }

/-- R176: from an empty buffer, bits written one by one and then flushed arrive as `pack` of them. -/
def Obligations.BitsThenFlushIsPack : Prop :=
  ∀ (bits : List Bool) (s : State), s.mem.NoFailure → s.bwN = 0 → s.bwAcc = 0 →
    ∃ t u, execAll (bits.map Instr.bwbit) s = .next t ∧ exec .bwflush t = .next u ∧
      t.mem.snk = s.mem.snk ++ (pack bits).take (bits.length / 8) ∧ t.bwN.val = bits.length % 8 ∧
      u.mem.snk = s.mem.snk ++ pack bits ∧ (pack bits).length = (bits.length + 7) / 8 ∧ u.bwN = 0 ∧ u.bwAcc = 0 ∧
      ∀ i, i < 8 * (pack bits).length →
        ((pack bits).getD (i / 8) 0).getLsbD (7 - i % 8) = if i < bits.length then bits.getD i false else false

/-- R37, R170, R171 to R173: the frame of the Bit Writer, whatever the writes answer. The bytes appended stand at the end of
the sink, at most as many as fill; every other register, and every other byte of either stream, is as before. -/
def Obligations.WriterFrame : Prop :=
  ∀ (i : Instr) (s t : State) (n : Nat),
    (∃ b, i = .bwbit b ∧ n = (s.bwN.val + 1) / 8) ∨ (∃ p k, i = .bwbits p k ∧ n = (s.bwN.val + k) / 8) ∨
      (i = .bwflush ∧ n = if s.bwN.val = 0 then 0 else 1) →
    exec i s = .next t →
      (∀ a, a < s.mem.snk.length ∨ s.mem.snk.length + n ≤ a → t.mem.sinkByte a = s.mem.sinkByte a) ∧
      (∀ a, t.mem.sourceByte a = s.mem.sourceByte a) ∧
      { t with
        bwAcc := s.bwAcc, bwN := s.bwN, draws := s.draws, status := s.status, err := s.err, phase := s.phase
        mem := { t.mem with snk := s.mem.snk, snkPos := s.mem.snkPos, io := s.mem.io } } = s

/-! ## Bit Reader -/

/-- R181, R256: `BRBIT` delivers the most significant unconsumed bit, pulling a byte when the buffer is exhausted; where there
is none it returns `ok = 0`, and a failing read raises `IOFailure`. Two points are the model's, not the spec's: a failing read
leaves `SRC_POS` and all else as before (log 25, DEDUCED, unsafe), and the bit is read as `deliveredBit` (log 27, DESIGN
CHOICE). -/
def Obligations.BrbitDeliversTheNextBit : Prop :=
  ∀ s : State,
    (s.brN.val ≠ 0 → ∃ t, exec .brbit s = .next t ∧ t.deliveredBit = some (s.brBuf.getLsbD (s.brN.val - 1)) ∧
      t = { s with brN := s.brN - 1, brOk := true }) ∧
    (∀ b l, s.brN.val = 0 → s.mem.answer = .works → s.mem.rest = b :: l →
      ∃ t, exec .brbit s = .next t ∧ t.deliveredBit = some (b.getLsbD 7) ∧
        t = { s with brBuf := b, brN := 7, brOk := true, mem := { s.mem.answered with srcPos := s.mem.srcPos + 1 } }) ∧
    (s.brN.val = 0 → s.mem.answer = .works → s.mem.rest = [] →
      ∃ t, exec .brbit s = .next t ∧ t.deliveredBit = none ∧ t = { s with brOk := false, mem := s.mem.answered }) ∧
    (s.brN.val = 0 → s.mem.answer ≠ .works →
      exec .brbit s = .next (takeError .io { s with mem := s.mem.answered }))

/-- R182: a failed read returns no bit and changes only `BR_OK`; a further one fails in the same way (the spec's decision
D15). The result is read as `deliveredBit`, the model's choice (log 27, DESIGN CHOICE). -/
def Obligations.BrbitFailsAtTheEnd : Prop :=
  ∀ s : State, s.mem.NoFailure → s.brN = 0 → s.mem.rest = [] →
    ∃ t, exec .brbit s = .next t ∧ t.deliveredBit = none ∧ { t with brOk := s.brOk, mem := { t.mem with io := s.mem.io } } = s ∧
      t.brOk = false ∧ ∃ u, exec .brbit t = .next u ∧ u.deliveredBit = none ∧ { u with mem := { u.mem with io := t.mem.io } } = t

/-- R183, R184: over a payload, call number `i` returns bit `7 - (i mod 8)` of byte `i div 8`, bytes being pulled only when
needed, and no call succeeds beyond the last; reading back `pack` of a bit string returns it. The results are read as
`deliveredBit`, the model's choice (log 27, DESIGN CHOICE). -/
def Obligations.ReaderReturnsThePayloadBits : Prop :=
  ∀ s : State, s.mem.NoFailure → s.brN = 0 →
    (∀ i, i < 8 * s.mem.rest.length → ∃ t, execAll (List.replicate (i + 1) Instr.brbit) s = .next t ∧
      t.deliveredBit = some ((s.mem.rest.getD (i / 8) 0).getLsbD (7 - i % 8)) ∧
      t.mem.srcPos = s.mem.srcPos + (i + 8) / 8) ∧
    (∀ i, 8 * s.mem.rest.length ≤ i → ∃ t, execAll (List.replicate (i + 1) Instr.brbit) s = .next t ∧ t.deliveredBit = none) ∧
    ∀ bits, s.mem.rest = pack bits → ∀ i, i < bits.length →
      ∃ t, execAll (List.replicate (i + 1) Instr.brbit) s = .next t ∧ t.deliveredBit = some (bits.getD i false)

/-! ## Container Format -/

/-- R191, R192 with R90: `HWRITE` appends the 1036 bytes of the header, whatever the table. -/
def Obligations.HwriteAppendsTheHeader : Prop :=
  ∀ s : State, s.mem.NoFailure →
    ∃ t, exec .hwrite s = .next t ∧ t.mem.snk = s.mem.snk ++ headerBytes Config.hdrOrder s.size s.freq ∧
      (headerBytes Config.hdrOrder s.size s.freq).length = 1036 ∧ t.mem.snkPos = s.mem.snkPos + 1036 ∧
      { t with mem := { t.mem with snk := s.mem.snk, snkPos := s.mem.snkPos, io := s.mem.io } } = s

/-- R193 on a good header: `SIZE` and `FREQ` from their fields (R100), the source at the first payload byte. -/
def Obligations.HreadReadsTheHeader : Prop :=
  ∀ s : State, s.mem.NoFailure → s.mem.rest.take 4 = [0x48, 0x55, 0x46, 0x31] → 1036 ≤ s.mem.rest.length →
    ∃ t, exec .hread s = .next t ∧
      t.size = BitVec.ofNat 64 (unhdr Config.hdrOrder ((s.mem.rest.drop 4).take 8)) ∧
      (∀ b, Table.entry t.freq b = BitVec.ofNat 32 (unhdr Config.hdrOrder ((s.mem.rest.drop (12 + 4 * b.toNat)).take 4))) ∧
      t.mem.srcPos = s.mem.srcPos + 1036 ∧
      { t with size := s.size, freq := s.freq, mem := { t.mem with srcPos := s.mem.srcPos, io := s.mem.io } } = s

/-- R194, R195: the magic is checked first, a short one being a bad one; a good magic and a source that ends inside the
header is a truncated header. Neither touches the sink. -/
def Obligations.HreadRejectsBadHeaders : Prop :=
  ∀ s : State, s.mem.NoFailure →
    (s.mem.rest.take 4 ≠ [0x48, 0x55, 0x46, 0x31] → ∃ t, exec .hread s = .next (takeError .badMagic t) ∧
      t.mem.srcPos = s.mem.srcPos + min 4 s.mem.rest.length ∧
      { t with mem := { t.mem with srcPos := s.mem.srcPos, io := s.mem.io } } = s) ∧
    (s.mem.rest.take 4 = [0x48, 0x55, 0x46, 0x31] → s.mem.rest.length < 1036 →
      ∃ t, exec .hread s = .next (takeError .truncHeader t) ∧
        { t with size := s.size, freq := s.freq, mem := { t.mem with srcPos := s.mem.srcPos, io := s.mem.io } } = s)

/-- R197: what `HWRITE` wrote, `HREAD` restores, for either value of `HDR_ORDER`; under the other value it reads the fields
byte-reversed, and nothing tells. -/
def Obligations.HeaderRoundTrip : Prop :=
  ∀ (o o' : HdrOrder) (s s' : State) (tail : List Byte), s.mem.NoFailure → s'.mem.NoFailure →
    ∃ t t', (hwrite o s).outcome = .next t ∧
      (s'.mem.rest = t.mem.snk.drop s.mem.snk.length ++ tail → (hread o' s').outcome = .next t' ∧
        (o = o' → t'.size = s.size ∧ t'.freq = s.freq) ∧
        (o ≠ o' → t'.size.toNat = ofBytesLE (bytesLE 8 s.size.toNat).reverse ∧
          ∀ b, (Table.entry t'.freq b).toNat = ofBytesLE (bytesLE 4 (Table.entry s.freq b).toNat).reverse))

/-- R131, R181, R193, R24: the frame of the operations that read the source, whatever the reads answer: neither stream's
bytes change. -/
def Obligations.ReadingFrame : Prop :=
  ∀ s t : State,
    (exec .fcount s = .next t →
      { t with
        freq := s.freq, size := s.size, status := s.status, err := s.err, phase := s.phase
        mem := { t.mem with srcPos := s.mem.srcPos, io := s.mem.io } } = s) ∧
    (exec .hread s = .next t →
      { t with
        freq := s.freq, size := s.size, status := s.status, err := s.err, phase := s.phase
        mem := { t.mem with srcPos := s.mem.srcPos, io := s.mem.io } } = s) ∧
    (exec .brbit s = .next t →
      { t with
        brBuf := s.brBuf, brN := s.brN, brOk := s.brOk, status := s.status, err := s.err, phase := s.phase
        mem := { t.mem with srcPos := s.mem.srcPos, io := s.mem.io } } = s)

/-! ## Encoder -/

/-- R204, R206: the second pass hands the codes of the bytes to the Bit Writer, in order. -/
def Obligations.EemitWritesTheCodes : Prop :=
  ∀ s : State, s.mem.NoFailure → s.WriterOk →
    (∀ b ∈ s.mem.rewound.getD s.mem.src, Table.entry s.code.len b ≠ 0) →
    ∃ t, exec .eemit s = .next t ∧
      let input := s.mem.rewound.getD s.mem.src
      let bits := s.pendingBits ++ s.code.encodeAll input
      t.mem.src = input ∧ t.mem.srcPos = input.length ∧ t.mem.snk = s.mem.snk ++ (pack bits).take (bits.length / 8) ∧
      t.mem.snkPos = s.mem.snkPos + bits.length / 8 ∧ t.bwN.val = bits.length % 8 ∧
      t.pendingBits = bits.drop (8 * (bits.length / 8)) ∧
      { t with bwAcc := s.bwAcc, bwN := s.bwN, mem := s.mem } = s

/-- R205, R258: `NoCode` at the first byte of the second pass without a code. -/
def Obligations.EemitStopsAtAByteWithoutACode : Prop :=
  ∀ (s : State) (l tail : List Byte) (b : Byte), s.mem.NoFailure → s.WriterOk →
    s.mem.rewound.getD s.mem.src = l ++ b :: tail → (∀ c ∈ l, Table.entry s.code.len c ≠ 0) → Table.entry s.code.len b = 0 →
    ∃ t, exec .eemit s = .next t ∧ t.err = .noCode ∧ t.status = .fault ∧ t.phase = .fault ∧
      t.mem.srcPos = l.length + 1 ∧
      t.mem.snk = s.mem.snk ++ fullBytes (s.pendingBits ++ s.code.encodeAll l) ∧
      t.mem.snkPos = s.mem.snkPos + (s.pendingBits ++ s.code.encodeAll l).length / 8

/-- R208, R236 (and R206, R209): `ENCODE` of a stable source within the limits. For each input there is one container. -/
def Obligations.EncodeWritesTheContainer : Prop :=
  ∀ input : List Byte, InLimits input → ∃ container : List Byte, ∀ s : State, s.status ≠ .busy → s.mem.NoFailure →
    s.mem.Stable → s.mem.src = input →
    ∃ t, exec .encode s = .next t ∧ t.status = .done ∧ t.err = .none ∧ t.phase = .done ∧ t.size.toNat = input.length ∧
      t.emitted = 0 ∧ (∀ b, (Table.entry t.freq b).toNat = input.count b) ∧ t.mem.snk = container ∧
      container = headerBytes Config.hdrOrder t.size t.freq ++ pack (t.code.encodeAll input) ∧
      container.length = 1036 + ((t.code.encodeAll input).length + 7) / 8 ∧ t.mem.snkPos = container.length

/-- R241, R96: the length of the payload. -/
def Obligations.PayloadLengthIsTheWeightedSum : Prop :=
  ∀ s : State, s.status ≠ .busy → s.mem.NoFailure → s.mem.Stable → InLimits s.mem.src → s.mem.src ≠ [] →
    ∃ t, exec .encode s = .next t ∧
      t.mem.snk.length = 1036 +
        ((symbols.map fun b => (Table.entry t.freq b).toNat * (Table.entry t.code.len b).toNat).sum + 7) / 8 ∧
      ∀ lo hi : Nat, (∀ b, Table.entry t.code.len b ≠ 0 →
          lo ≤ (Table.entry t.code.len b).toNat ∧ (Table.entry t.code.len b).toNat ≤ hi) →
        (s.mem.src.length * lo + 7) / 8 ≤ t.mem.snk.length - 1036 ∧ t.mem.snk.length - 1036 ≤ (s.mem.src.length * hi + 7) / 8

/-- R74, R191, R204, R221: the frame of the operations that write the sink, whatever the accesses answer. The bytes appended
stand at the end of the sink, no more than the header, the code bits fill, and `SIZE` says. For `DWALK` with `SIZE = 0`, outside
its precondition, this rests on the model's choice (log 31, DESIGN CHOICE). -/
def Obligations.WritingFrame : Prop :=
  ∀ s t : State,
    (exec .hwrite s = .next t →
      (∀ a, a < s.mem.snk.length ∨ s.mem.snk.length + 1036 ≤ a → t.mem.sinkByte a = s.mem.sinkByte a) ∧
      { t with
        status := s.status, err := s.err, phase := s.phase
        mem := { t.mem with snk := s.mem.snk, snkPos := s.mem.snkPos, io := s.mem.io } } = s) ∧
    (exec .eemit s = .next t →
      (∀ a, a < s.mem.snk.length ∨
          s.mem.snk.length + (s.bwN.val + (s.code.encodeAll (s.mem.rewound.getD s.mem.src)).length) / 8 ≤ a →
        t.mem.sinkByte a = s.mem.sinkByte a) ∧
      (s.mem.Stable → ∀ a, t.mem.sourceByte a = s.mem.sourceByte a) ∧
      { t with
        bwAcc := s.bwAcc, bwN := s.bwN, draws := s.draws, status := s.status, err := s.err, phase := s.phase
        mem := s.mem } = s) ∧
    (exec .dwalk s = .next t →
      (∀ a, a < s.mem.snk.length ∨ s.mem.snk.length + s.size.toNat ≤ a → t.mem.sinkByte a = s.mem.sinkByte a) ∧
      { t with
        emitted := s.emitted, brBuf := s.brBuf, brN := s.brN, brOk := s.brOk, cur := s.cur
        status := s.status, err := s.err, phase := s.phase
        mem := { t.mem with srcPos := s.mem.srcPos, snk := s.mem.snk, snkPos := s.mem.snkPos, io := s.mem.io } } = s)

/-! ## Decoder -/

/-- R220: no tree. That it is `NoTree` for `SIZE = 0` too, outside the precondition of `DWALK`, is the model's choice (log 31,
DESIGN CHOICE). -/
def Obligations.DwalkWithoutATreeRaises : Prop :=
  ∀ s : State, s.tree.root = none →
    exec .dwalk s = .next { s with err := .noTree, status := .fault, phase := .fault }

/-- R218, with R97, R219, R221: `DWALK` writes the symbol at the end of each path, stops after `SIZE` of them, and stands on
the root with the bits behind them unread and no byte pulled for them. That it does so for `SIZE = 0` too, outside the
precondition of `DWALK`, is the model's choice (log 31, DESIGN CHOICE). -/
def Obligations.DwalkDecodesPaths : Prop :=
  ∀ (s : State) (root : Handle) (ps : List (Byte × List Bool)) (rest : List Bool), s.tree.root = some root →
    s.mem.NoFailure → s.availableBits = ps.flatMap Prod.snd ++ rest →
    (∀ x ∈ ps, ∃ g f, s.tree.follow root x.2 = some g ∧ s.tree.nodeAt g = .leaf x.1 f) → ps.length = s.size.toNat →
    ∃ t, exec .dwalk s = .next t ∧ t.mem.snk = s.mem.snk ++ ps.map Prod.fst ∧ t.mem.snkPos = s.mem.snkPos + ps.length ∧
      t.emitted = s.size ∧ t.cur = root ∧ t.availableBits = rest ∧
      (s.brN = 0 → s.mem.srcPos ≤ s.mem.src.length →
        t.mem.srcPos = s.mem.srcPos + ((ps.flatMap Prod.snd).length + 7) / 8) ∧
      { t with
        emitted := s.emitted, brBuf := s.brBuf, brN := s.brN, brOk := s.brOk, cur := s.cur
        mem := { t.mem with srcPos := s.mem.srcPos, snk := s.mem.snk, snkPos := s.mem.snkPos, io := s.mem.io } } = s

/-- R223: the bits run out inside a code, or before one, with fewer than `SIZE` bytes produced. -/
def Obligations.DwalkRunsOutOfBits : Prop :=
  ∀ (s : State) (root g : Handle) (ps : List (Byte × List Bool)) (q : List Bool) (f : Weight) (l r : Option Handle),
    s.tree.root = some root → s.mem.NoFailure → s.availableBits = ps.flatMap Prod.snd ++ q →
    (∀ x ∈ ps, ∃ g f, s.tree.follow root x.2 = some g ∧ s.tree.nodeAt g = .leaf x.1 f) →
    s.tree.follow root q = some g → s.tree.nodeAt g = .internal f l r → ps.length < s.size.toNat →
    ∃ t, exec .dwalk s = .next t ∧ t.err = .unexpectedEnd ∧ t.status = .fault ∧ t.phase = .fault ∧
      t.mem.snk = s.mem.snk ++ ps.map Prod.fst ∧ t.emitted.toNat = ps.length ∧ t.brOk = false ∧ t.cur = g

/-- R222: a bit selects an absent child. -/
def Obligations.DwalkMeetsAMissingChild : Prop :=
  ∀ (s : State) (root g : Handle) (ps : List (Byte × List Bool)) (q rest : List Bool) (b : Bool) (f : Weight)
    (l r : Option Handle), s.tree.root = some root → s.mem.NoFailure →
    s.availableBits = ps.flatMap Prod.snd ++ (q ++ b :: rest) →
    (∀ x ∈ ps, ∃ g f, s.tree.follow root x.2 = some g ∧ s.tree.nodeAt g = .leaf x.1 f) →
    s.tree.follow root q = some g → s.tree.nodeAt g = .internal f l r → (if b then r else l) = none → ps.length < s.size.toNat →
    ∃ t, exec .dwalk s = .next t ∧ t.err = .missingChild ∧ t.status = .fault ∧ t.phase = .fault ∧
      t.mem.snk = s.mem.snk ++ ps.map Prod.fst ∧ t.emitted.toNat = ps.length ∧ t.availableBits = rest

/-- R221: a step of the walk puts one byte out or takes one bit in, never both. -/
def Obligations.WalkStepEmitsOrDescends : Prop :=
  ∀ (s t : State) (root : Handle), s.mem.NoFailure → (walkStep root s).outcome = .next t →
    (∃ b f, s.tree.nodeAt s.cur = .leaf b f ∧ t.mem.snk = s.mem.snk ++ [b] ∧ t.emitted = s.emitted + 1 ∧ t.cur = root ∧
      t.availableBits = s.availableBits) ∨
    (∃ f l r, s.tree.nodeAt s.cur = .internal f l r ∧ t.mem.snk = s.mem.snk ∧ t.emitted = s.emitted ∧
      ((s.availableBits = [] ∧ t.err = .unexpectedEnd ∧ t.cur = s.cur) ∨
        ∃ b bs, s.availableBits = b :: bs ∧ t.availableBits = bs ∧
          (((if b then r else l) = some t.cur ∧ t.err = s.err) ∨ ((if b then r else l) = none ∧ t.err = .missingChild))))

/-- R217: a container with size 0 decodes to nothing, whatever its table and whatever follows; the header has been read and the
tree built by then. -/
def Obligations.DecodeOfSizeZeroIsEmpty : Prop :=
  ∀ (s : State) (freq : Table Count) (tail : List Byte), s.status ≠ .busy → s.mem.NoFailure →
    s.mem.src = headerBytes Config.hdrOrder 0 freq ++ tail →
    ∃ t, exec .decode s = .next t ∧ t.status = .done ∧ t.phase = .done ∧ t.err = .none ∧ t.mem.snk = [] ∧ t.emitted = 0 ∧
      t.mem.srcPos = 1036 ∧ t.size = 0 ∧ t.freq = freq ∧
      ∀ u v : State, u.freq = freq → exec .tbuild u = .next v → t.tree.Same v.tree

/-- R45, R71, R200, R215: the frame of the two commands, whatever the accesses answer: the source's bytes of a stable source,
what only the other command uses at its command-start value, and the sink: its bytes are those appended. Of what command start
leaves unspecified nothing is said (U4). The first clause, that what the sink held before a command makes no difference, is the
model's reading of R64 and D12 (log 7, DEDUCED): unsafe for a host that breaks its duty R283 to attach an empty sink, since R283
says that the bytes of a non-empty one displace the header. -/
def Obligations.CommandFrame : Prop :=
  (∀ (s : State) (v : List Byte) (n : Nat),
    exec .encode { s with mem := { s.mem with snk := v, snkPos := n } } = exec .encode s ∧
    exec .decode { s with mem := { s.mem with snk := v, snkPos := n } } = exec .decode s) ∧
  ∀ s t : State,
    (exec .encode s = .next t →
      (s.mem.Stable → ∀ a, t.mem.sourceByte a = s.mem.sourceByte a) ∧ t.host = s.host ∧ t.brN = 0 ∧ t.brOk = true ∧
      t.emitted = 0 ∧ t.mem.snkPos = t.mem.snk.length) ∧
    (exec .decode s = .next t →
      (∀ a, t.mem.sourceByte a = s.mem.sourceByte a) ∧ t.host = s.host ∧ t.draws = s.draws ∧ t.bwAcc = 0 ∧ t.bwN = 0 ∧
      (∀ b, Table.entry t.code.len b = 0) ∧ t.mem.rewound = s.mem.rewound ∧
      t.mem.snkPos = t.mem.snk.length)

/-! ## The laws of `48_properties.md` -/

/-- R235, and R116: what `ENCODE` made of an input, `DECODE` turns back into it, whatever bytes follow the container. -/
def Obligations.DecodeUndoesEncodeCommand : Prop :=
  ∀ (s s' : State) (extra : List Byte), s.status ≠ .busy → s.mem.NoFailure → s.mem.Stable → InLimits s.mem.src →
    s'.status ≠ .busy → s'.mem.NoFailure →
    ∃ t, exec .encode s = .next t ∧ t.status = .done ∧
      (s'.mem.src = t.mem.snk ++ extra →
        ∃ t', exec .decode s' = .next t' ∧ t'.status = .done ∧ t'.err = .none ∧ t'.mem.snk = s.mem.src ∧
          t'.emitted = t'.size ∧ t'.size = t.size)

/-- R237: one byte value, repeated. -/
def Obligations.OneRepeatedByte : Prop :=
  ∀ (s s' : State) (v : Byte) (n : Nat), 1 ≤ n → n ≤ 2 ^ 32 - 1 → s.status ≠ .busy → s.mem.NoFailure → s.mem.Stable →
    s.mem.src = List.replicate n v → s'.status ≠ .busy → s'.mem.NoFailure →
    ∃ t, exec .encode s = .next t ∧ t.status = .done ∧
      (∀ b, (Table.entry t.freq b).toNat = if b = v then n else 0) ∧
      t.mem.snk.drop 1036 = List.replicate ((n + 7) / 8) 0x00 ∧
      (s'.mem.src = t.mem.snk → ∃ t', exec .decode s' = .next t' ∧ t'.status = .done ∧ t'.mem.snk = List.replicate n v)

/-- R238: the empty input. -/
def Obligations.EmptyInput : Prop :=
  ∀ s s' : State, s.status ≠ .busy → s.mem.NoFailure → s.mem.Stable → s.mem.src = [] → s'.status ≠ .busy →
    s'.mem.NoFailure →
    ∃ t, exec .encode s = .next t ∧ t.status = .done ∧ t.mem.snk = headerBytes Config.hdrOrder 0 (Table.all 0) ∧
      t.mem.snk.length = 1036 ∧
      (s'.mem.src = t.mem.snk → ∃ t', exec .decode s' = .next t' ∧ t'.status = .done ∧ t'.mem.snk = [] ∧ t'.mem.srcPos = 1036)

/-- R240: corruption is rejected. The magic's byte values are ASCII (log 23, G1), a magic of fewer than four bytes is a bad
one (decision D6), and the bytes decoded before the end of a cut payload stay in the sink (decision D17). -/
def Obligations.CorruptContainersAreRejected : Prop :=
  (∀ s : State, s.status ≠ .busy → s.mem.NoFailure → s.mem.src.take 4 ≠ [0x48, 0x55, 0x46, 0x31] →
    ∃ t, exec .decode s = .next t ∧ t.status = .fault ∧ t.err = .badMagic ∧ t.mem.snk = []) ∧
  (∀ s : State, s.status ≠ .busy → s.mem.NoFailure → s.mem.src.take 4 = [0x48, 0x55, 0x46, 0x31] → s.mem.src.length < 1036 →
    ∃ t, exec .decode s = .next t ∧ t.status = .fault ∧ t.err = .truncHeader ∧ t.mem.snk = []) ∧
  ∀ (s s' t : State) (n : Nat), s.status ≠ .busy → s.mem.NoFailure → s.mem.Stable → InLimits s.mem.src →
    exec .encode s = .next t → s'.status ≠ .busy → s'.mem.NoFailure → 1036 ≤ n → n < t.mem.snk.length →
    s'.mem.src = t.mem.snk.take n →
    ∃ t' k, exec .decode s' = .next t' ∧ t'.status = .fault ∧ t'.err = .unexpectedEnd ∧ k < s.mem.src.length ∧
      t'.mem.snk = s.mem.src.take k ∧ (t.code.encodeAll (s.mem.src.take k)).length ≤ 8 * (n - 1036) ∧
      8 * (n - 1036) < (t.code.encodeAll (s.mem.src.take (k + 1))).length

/-- R242: the decoder's tree is the encoder's. It compares the tree registers after both commands: R47 lets a model drop the
tree by then, and that this one keeps it is log 28. -/
def Obligations.DecoderRebuildsTheTree : Prop :=
  ∀ (s s' t : State) (extra : List Byte), s.status ≠ .busy → s.mem.NoFailure → s.mem.Stable → InLimits s.mem.src →
    exec .encode s = .next t → s'.status ≠ .busy → s'.mem.NoFailure → s'.mem.src = t.mem.snk ++ extra →
    ∃ t', exec .decode s' = .next t' ∧ t.tree.Same t'.tree

/-- R244: all or nothing, whatever the accesses answer, on a source that is not stable, too. That a failed `ENCODE` leaves a
prefix of what a successful one on the same source leaves is R73 (1) of `20_memory.md`. -/
def Obligations.CommandsSucceedOrFailOutright : Prop :=
  (∀ s : State, s.status ≠ .busy → InLimits s.mem.src →
    ∃ t, exec .encode s = .next t ∧ (t.status = .done ∧ t.phase = .done ∨ t.status = .fault ∧ t.phase = .fault)) ∧
  (∀ s : State, s.status ≠ .busy → s.mem.Stable → InLimits s.mem.src →
    ∃ t, exec .encode s = .next t ∧
      ((t.status = .done ∧ t.phase = .done ∧ t.err = .none ∧
          t.mem.snk = headerBytes Config.hdrOrder (BitVec.ofNat 64 s.mem.src.length) (countsOf s.mem.src) ++
            pack (t.code.encodeAll s.mem.src) ∧
          t.mem.snk.length = 1036 + ((t.code.encodeAll s.mem.src).length + 7) / 8) ∨
        (t.status = .fault ∧ t.phase = .fault ∧ t.err = .io)) ∧
      ∀ u v : State, u.status ≠ .busy → u.mem.NoFailure → u.mem.Stable → u.mem.src = s.mem.src → exec .encode u = .next v →
        t.mem.snk <+: v.mem.snk) ∧
  ∀ s : State, s.status ≠ .busy →
    ∃ t, exec .decode s = .next t ∧ t.mem.snk.length ≤ t.size.toNat ∧
      ((t.status = .done ∧ t.phase = .done ∧ t.err = .none ∧ t.mem.snk.length = t.size.toNat ∧ t.emitted = t.size) ∨
        (t.status = .fault ∧ t.phase = .fault ∧ t.err ≠ .none))

/-! ## A later access fails -/

/-- R251 ("surfaced immediately"), with R63, R71, X15 (logs 6, 12, 25, 26): where a later access of the two operations over the
payload fails, what the accesses before it did stays and nothing follows. `EEMIT` makes one access for the rewind, then one
for each byte read and one for each byte the codes fill (R204, R171); `DWALK` makes one for each byte pulled and one for each
symbol written (R219, R221). The four clauses: a read of `EEMIT`; a write of `EEMIT`; a symbol write of `DWALK`; a payload
read of `DWALK`, at a node that wants a bit while the buffer is exhausted. -/
def Obligations.LaterFailingAccessEndsThePass : Prop :=
  (∀ (s : State) (l tail : List Byte) (k : Nat), s.WriterOk → s.mem.rewound.getD s.mem.src = l ++ tail →
    (∀ c ∈ l, Table.entry s.code.len c ≠ 0) →
    let full := fullBytes (s.pendingBits ++ s.code.encodeAll l)
    s.mem.FailsAfter (1 + (l.length + full.length)) k →
    ∃ t, exec .eemit s = .next (takeError .io t) ∧ t.mem.srcPos = l.length ∧ t.mem.snk = s.mem.snk ++ full ∧
      t.mem.snkPos = s.mem.snkPos + full.length ∧ t.pendingBits = leftover (s.pendingBits ++ s.code.encodeAll l) ∧
      { t with bwAcc := s.bwAcc, bwN := s.bwN, mem := s.mem } = s) ∧
  (∀ (s : State) (l tail : List Byte) (b : Byte) (m k : Nat), s.WriterOk → s.mem.rewound.getD s.mem.src = l ++ b :: tail →
    (∀ c ∈ l ++ [b], Table.entry s.code.len c ≠ 0) →
    let full := fullBytes (s.pendingBits ++ s.code.encodeAll (l ++ [b]))
    (fullBytes (s.pendingBits ++ s.code.encodeAll l)).length ≤ m → m < full.length → s.mem.FailsAfter (l.length + 2 + m) k →
    ∃ t, exec .eemit s = .next (takeError .io t) ∧ t.mem.srcPos = l.length + 1 ∧
      t.mem.snk = s.mem.snk ++ (full.take m ++ ((full.drop m).take 1).take k) ∧
      t.mem.snkPos = s.mem.snkPos + (full.take m ++ ((full.drop m).take 1).take k).length ∧
      { t with bwAcc := s.bwAcc, bwN := s.bwN, draws := s.draws, mem := s.mem } = s) ∧
  (∀ (s : State) (root g : Handle) (ps : List (Byte × List Bool)) (p rest : List Bool) (b : Byte) (f : Weight) (k : Nat),
    s.tree.root = some root → s.availableBits = ps.flatMap Prod.snd ++ (p ++ rest) →
    (∀ x ∈ ps, ∃ g f, s.tree.follow root x.2 = some g ∧ s.tree.nodeAt g = .leaf x.1 f) →
    s.tree.follow root p = some g → s.tree.nodeAt g = .leaf b f → ps.length < s.size.toNat →
    let reads := ((ps.flatMap Prod.snd).length + p.length + 7 - s.brN.val) / 8
    s.mem.FailsAfter (reads + ps.length) k →
    ∃ t, exec .dwalk s = .next (takeError .io t) ∧ t.mem.snk = s.mem.snk ++ ps.map Prod.fst ++ [b].take k ∧
      t.emitted.toNat = ps.length ∧ t.cur = g ∧ t.availableBits = rest ∧ t.mem.srcPos = s.mem.srcPos + reads ∧
      { t with
        emitted := s.emitted, brBuf := s.brBuf, brN := s.brN, brOk := s.brOk, cur := s.cur
        mem := { t.mem with srcPos := s.mem.srcPos, snk := s.mem.snk, snkPos := s.mem.snkPos, io := s.mem.io } } = s) ∧
  ∀ (s : State) (root g : Handle) (ps : List (Byte × List Bool)) (q rest : List Bool) (f : Weight) (l r : Option Handle)
    (reads k : Nat), s.tree.root = some root → s.availableBits = ps.flatMap Prod.snd ++ (q ++ rest) →
    (∀ x ∈ ps, ∃ g f, s.tree.follow root x.2 = some g ∧ s.tree.nodeAt g = .leaf x.1 f) →
    s.tree.follow root q = some g → s.tree.nodeAt g = .internal f l r → ps.length < s.size.toNat →
    (ps.flatMap Prod.snd).length + q.length = s.brN.val + 8 * reads → s.mem.FailsAfter (reads + ps.length) k →
    ∃ t, exec .dwalk s = .next (takeError .io t) ∧ t.mem.snk = s.mem.snk ++ ps.map Prod.fst ∧ t.emitted.toNat = ps.length ∧
      t.cur = g ∧ t.brN = 0 ∧ t.availableBits = rest ∧ t.mem.srcPos = s.mem.srcPos + reads ∧
      { t with
        emitted := s.emitted, brBuf := s.brBuf, brN := s.brN, brOk := s.brOk, cur := s.cur
        mem := { t.mem with srcPos := s.mem.srcPos, snk := s.mem.snk, snkPos := s.mem.snkPos, io := s.mem.io } } = s
end

