-- ==== Sys2Proof/Laws/Tables.lean ====
section
/-! SUPPORT. The register files: what a write of one entry changes, and the symbols in order. -/

namespace Sys2Proof.Table

variable {α : Type}

@[simp] theorem entry_put_same (t : Table α) (b : Byte) (v : α) : entry (put t b v) b = v := by
  simp [entry, put, Vector.get_eq_getElem]

theorem entry_put_ne (t : Table α) {b c : Byte} (h : c ≠ b) (v : α) : entry (put t b v) c = entry t c := by
  have : b.toNat ≠ c.toNat := fun e => h (BitVec.eq_of_toNat_eq e.symm)
  simp [entry, put, Vector.get_eq_getElem, Vector.getElem_set_ne, this]

theorem entry_put (t : Table α) (b c : Byte) (v : α) : entry (put t b v) c = if c = b then v else entry t c := by
  split
  next h => subst h; simp
  next h => exact entry_put_ne t h v

@[simp] theorem entry_all (v : α) (b : Byte) : entry (all v) b = v := by
  simp [entry, all, Vector.get_eq_getElem]

theorem ext_entry {t u : Table α} (h : ∀ b, entry t b = entry u b) : t = u := by
  apply Vector.ext
  intro i hi
  have := h (BitVec.ofNat 8 i)
  simpa [entry, Vector.get_eq_getElem, Nat.mod_eq_of_lt hi] using this

end Sys2Proof.Table

namespace Sys2Proof.Machine

theorem symbols_length : symbols.length = 256 := by simp [symbols]

theorem mem_symbols (b : Byte) : b ∈ symbols := by
  simp only [symbols, List.mem_map, List.mem_range]
  exact ⟨b.toNat, b.isLt, by simp⟩

theorem symbols_nodup : symbols.Nodup := by
  refine List.Nodup.map_on ?_ List.nodup_range
  intro x hx y hy h
  have := congrArg BitVec.toNat h
  simp only [List.mem_range] at hx hy
  simpa [Nat.mod_eq_of_lt hx, Nat.mod_eq_of_lt hy] using this

theorem symbols_sorted : symbols.Pairwise fun a b => a.toNat < b.toNat := by
  refine List.pairwise_map.2 (List.Pairwise.imp_of_mem ?_ List.pairwise_lt_range)
  intro a b ha hb h
  simp only [List.mem_range] at ha hb
  simpa [Nat.mod_eq_of_lt ha, Nat.mod_eq_of_lt hb] using h

theorem countsOf_entry (input : List Byte) (b : Byte) :
    Table.entry (countsOf input) b = BitVec.ofNat 32 (input.count b) := by
  simp [countsOf, Table.entry, Vector.get_eq_getElem]

theorem sum_counts_of {syms : List Byte} (hn : syms.Nodup) (hm : ∀ b, b ∈ syms) (l : List Byte) :
    (syms.map fun b => l.count b).sum = l.length := by
  rw [← List.sum_toFinset _ hn]
  have h := Multiset.sum_count_eq_card (s := syms.toFinset) (m := (l : Multiset Byte)) fun a _ => List.mem_toFinset.2 (hm a)
  simpa only [Multiset.coe_count, Multiset.coe_card] using h

/-- The counts of all symbols add up to the length (R131). -/
theorem sum_counts (l : List Byte) : (symbols.map fun b => l.count b).sum = l.length :=
  sum_counts_of symbols_nodup mem_symbols l

/-- A sum over the bytes of an input, taken symbol by symbol (R241). -/
theorem weighted_sum {syms : List Byte} (hn : syms.Nodup) (hm : ∀ b, b ∈ syms) (w : Byte → Nat) (l : List Byte) :
    (syms.map fun b => l.count b * w b).sum = (l.map w).sum := by
  rw [← List.sum_toFinset _ hn]
  induction l with
  | nil => simp
  | cons c l ih =>
    have e : ∀ b ∈ syms.toFinset, List.count b (c :: l) * w b = List.count b l * w b + if c = b then w b else 0 := by
      intro b _
      rw [List.count_cons]
      by_cases h : c = b
      · rw [if_pos h, if_pos (by rw [h]; exact beq_self_eq_true b), Nat.add_mul, Nat.one_mul]
      · rw [if_neg h, if_neg (by simpa using h)]; simp
    rw [Finset.sum_congr rfl e, Finset.sum_add_distrib, ih, Finset.sum_ite_eq, if_pos (List.mem_toFinset.2 (hm c)), List.map_cons, List.sum_cons, Nat.add_comm]

end Sys2Proof.Machine
end

