-- ==== Sys2Proof/Laws/Arena.lean ====
section
/-! SUPPORT. The node arena and the candidate list: what `NewNode`, `PQInsert` and the two together do
(`10_state.md` rule R28, `41_tree_builder.md` rule R143). -/

namespace Sys2Proof.Machine

/-- The handles below a count, ascending. -/
def handlesBelow (n : Nat) : List Handle := (List.finRange 511).filter fun h => decide (h.val < n)

/-- The children a node names (R26). -/
def Node.children : Node → List Handle
  | .leaf _ _ => []
  | .internal _ l r => l.toList ++ r.toList

theorem childRefs_eq (t : TreeRegs) : t.childRefs = (handlesBelow t.cnt).flatMap fun h => (t.nodeAt h).children := by
  unfold TreeRegs.childRefs handlesBelow
  congr 1

theorem handlesBelow_succ {n : Nat} (h : n < 511) : handlesBelow (n + 1) = handlesBelow n ++ [⟨n, h⟩] := by
  have key : ∀ (m n : Nat) (h : n < m),
      (List.finRange m).filter (fun x => decide (x.val < n + 1)) =
        (List.finRange m).filter (fun x => decide (x.val < n)) ++ [⟨n, h⟩] := by
    intro m
    induction m with
    | zero => intro n h; cases h
    | succ m ih =>
      intro n h
      rw [List.finRange_succ, List.filter_cons, List.filter_cons, List.filter_map, List.filter_map]
      cases n with
      | zero => simp [Function.comp_def]
      | succ n =>
        have := ih n (by omega)
        simp only [Function.comp_def, Fin.val_succ, Nat.add_lt_add_iff_right, Fin.val_zero, Nat.zero_lt_succ, decide_true, if_true]
        rw [this]
        simp
  exact key 511 n h

theorem mem_handlesBelow {n : Nat} {h : Handle} : h ∈ handlesBelow n ↔ h.val < n := by
  simp [handlesBelow]

theorem handlesBelow_nodup (n : Nat) : (handlesBelow n).Nodup := (List.nodup_finRange 511).filter _

theorem handlesBelow_zero : handlesBelow 0 = [] := by simp [handlesBelow]

theorem handlesBelow_length {n : Nat} (h : n ≤ 511) : (handlesBelow n).length = n := by
  induction n with
  | zero => simp [handlesBelow_zero]
  | succ n ih => rw [handlesBelow_succ h, List.length_append, ih (by omega)]; rfl

/-! ### `PQInsert` -/

/-- `PQInsert` splits the list: behind every candidate of lower or equal frequency before the first greater one (R143). -/
theorem insertByFreq_eq (freq : Handle → Weight) (h : Handle) (l : List Handle) :
    insertByFreq freq h l =
      l.takeWhile (fun e => decide (freq e ≤ freq h)) ++ h :: l.dropWhile fun e => decide (freq e ≤ freq h) := by
  induction l with
  | nil => rfl
  | cons e es ih =>
    by_cases hlt : freq h < freq e
    · have : ¬ freq e ≤ freq h := BitVec.not_le.2 hlt
      simp [insertByFreq, hlt, this]
    · have : freq e ≤ freq h := BitVec.not_lt.1 hlt
      simp [insertByFreq, hlt, this, ih]

theorem insertByFreq_perm (freq : Handle → Weight) (h : Handle) (l : List Handle) : (insertByFreq freq h l).Perm (h :: l) := by
  rw [insertByFreq_eq]
  refine List.perm_middle.trans ?_
  rw [List.takeWhile_append_dropWhile]

/-- The candidates stay in order of frequency (R31). -/
theorem insertByFreq_sorted {freq : Handle → Weight} {l : List Handle} (h : Handle)
    (hs : l.Pairwise fun a b => freq a ≤ freq b) : (insertByFreq freq h l).Pairwise fun a b => freq a ≤ freq b := by
  induction l with
  | nil => simp [insertByFreq]
  | cons e es ih =>
    rw [List.pairwise_cons] at hs
    by_cases hlt : freq h < freq e
    · rw [insertByFreq, if_pos hlt, List.pairwise_cons, List.pairwise_cons]
      refine ⟨?_, hs⟩
      intro a ha
      rcases List.mem_cons.1 ha with rfl | ha
      · exact BitVec.le_of_lt hlt
      · exact BitVec.le_trans (BitVec.le_of_lt hlt) (hs.1 a ha)
    · rw [insertByFreq, if_neg hlt, List.pairwise_cons]
      refine ⟨?_, ih hs.2⟩
      intro a ha
      rcases List.mem_cons.1 ((insertByFreq_perm freq h es).mem_iff.1 ha) with rfl | ha
      · exact BitVec.not_lt.1 hlt
      · exact hs.1 a ha

theorem TreeRegs.Before.le {t : TreeRegs} {a b : Handle} (h : t.Before a b) : t.freqAt a ≤ t.freqAt b :=
  h.elim BitVec.le_of_lt fun e => Nat.le_of_eq (congrArg BitVec.toNat e.1)

theorem TreeRegs.before_congr {t u : TreeRegs} {a b : Handle} (ha : u.freqAt a = t.freqAt a) (hb : u.freqAt b = t.freqAt b) :
    u.Before a b ↔ t.Before a b := by rw [TreeRegs.Before, ha, hb, TreeRegs.Before]

/-- A handle younger than every candidate goes to its place in the order of frequency and age (R31, R143). -/
theorem insertByFreq_before {t : TreeRegs} {l : List Handle} (h : Handle) (hs : l.Pairwise t.Before)
    (hl : ∀ e ∈ l, e.val < h.val) : (insertByFreq t.freqAt h l).Pairwise t.Before := by
  induction l with
  | nil => simp [insertByFreq]
  | cons e es ih =>
    rw [List.pairwise_cons] at hs
    by_cases hlt : t.freqAt h < t.freqAt e
    · rw [insertByFreq, if_pos hlt, List.pairwise_cons, List.pairwise_cons]
      refine ⟨fun a ha => .inl ?_, hs⟩
      rcases List.mem_cons.1 ha with rfl | ha
      · exact hlt
      · exact Nat.lt_of_lt_of_le hlt (hs.1 a ha).le
    · rw [insertByFreq, if_neg hlt, List.pairwise_cons]
      refine ⟨fun a ha => ?_, ih hs.2 fun x hx => hl x (List.mem_cons_of_mem _ hx)⟩
      rcases List.mem_cons.1 ((insertByFreq_perm t.freqAt h es).mem_iff.1 ha) with rfl | ha
      · rcases Nat.lt_or_eq_of_le (BitVec.not_lt.1 hlt) with h1 | h1
        · exact .inl h1
        · exact .inr ⟨BitVec.eq_of_toNat_eq h1, hl e (by simp)⟩
      · exact hs.1 a ha

theorem insertByFreq_congr {f g : Handle → Weight} {h : Handle} {l : List Handle} (hh : f h = g h) (hl : ∀ e ∈ l, f e = g e) :
    insertByFreq f h l = insertByFreq g h l := by
  induction l with
  | nil => rfl
  | cons e es ih =>
    rw [insertByFreq, insertByFreq, hh, hl e (by simp), ih fun a ha => hl a (by simp [ha])]

/-! ### `NewNode` and `PQInsert` -/

/-- The handle the next new node gets. -/
def nextHandle (t : TreeRegs) (h : t.cnt < 511) : Handle := ⟨t.cnt, h⟩

theorem newNode_eq {t : TreeRegs} (h : t.cnt < 511) (n : Node) :
    newNode n t = (nextHandle t h, { t with node := t.node.set t.cnt n, cnt := t.cnt + 1 }) := by
  simp [newNode, h, nextHandle]

theorem insertNode_cnt {t : TreeRegs} (h : t.cnt < 511) (n : Node) : (insertNode n t).cnt = t.cnt + 1 := by
  simp [insertNode, newNode_eq h, pqInsert]

theorem insertNode_root (n : Node) (t : TreeRegs) : (insertNode n t).root = t.root := by
  by_cases h : t.cnt < 511
  · simp [insertNode, newNode_eq h, pqInsert]
  · simp [insertNode, newNode, h, pqInsert]

theorem insertNode_nodeAt {t : TreeRegs} (h : t.cnt < 511) (n : Node) (x : Handle) :
    (insertNode n t).nodeAt x = if x.val = t.cnt then n else t.nodeAt x := by
  simp only [insertNode, newNode_eq h, pqInsert, TreeRegs.nodeAt, Vector.get_eq_getElem]
  rw [Vector.getElem_set]
  simp only [eq_comm]

theorem insertNode_nodeAt_new {t : TreeRegs} (h : t.cnt < 511) (n : Node) : (insertNode n t).nodeAt (nextHandle t h) = n := by
  rw [insertNode_nodeAt h, if_pos (show (nextHandle t h).val = t.cnt from rfl)]

theorem insertNode_nodeAt_old {t : TreeRegs} (h : t.cnt < 511) (n : Node) {x : Handle} (hx : x.val < t.cnt) :
    (insertNode n t).nodeAt x = t.nodeAt x := by
  rw [insertNode_nodeAt h, if_neg (Nat.ne_of_lt hx)]

theorem insertNode_freqAt_old {t : TreeRegs} (h : t.cnt < 511) (n : Node) {x : Handle} (hx : x.val < t.cnt) :
    (insertNode n t).freqAt x = t.freqAt x := by
  rw [TreeRegs.freqAt, insertNode_nodeAt_old h n hx, TreeRegs.freqAt]

theorem insertNode_pq {t : TreeRegs} (h : t.cnt < 511) (n : Node) :
    (insertNode n t).pq = insertByFreq (insertNode n t).freqAt (nextHandle t h) t.pq := by
  simp only [insertNode, newNode_eq h, pqInsert]
  rfl

theorem insertNode_pq_perm {t : TreeRegs} (h : t.cnt < 511) (n : Node) :
    (insertNode n t).pq.Perm (nextHandle t h :: t.pq) := by
  rw [insertNode_pq h]
  exact insertByFreq_perm _ _ _

theorem insertNode_childRefs {t : TreeRegs} (h : t.cnt < 511) (n : Node) :
    (insertNode n t).childRefs = t.childRefs ++ n.children := by
  have h1 : ((handlesBelow t.cnt).flatMap fun x => ((insertNode n t).nodeAt x).children) =
      (handlesBelow t.cnt).flatMap fun x => (t.nodeAt x).children := by
    apply List.flatMap_congr
    intro x hx
    rw [insertNode_nodeAt_old h n (mem_handlesBelow.1 hx)]
  have h2 : (insertNode n t).nodeAt ⟨t.cnt, h⟩ = n := insertNode_nodeAt_new h n
  rw [childRefs_eq, childRefs_eq, insertNode_cnt h, handlesBelow_succ h, List.flatMap_append, h1, List.flatMap_cons,
    List.flatMap_nil, List.append_nil, h2]

theorem mem_childRefs {t : TreeRegs} {g : Handle} :
    g ∈ t.childRefs ↔ ∃ (p : Handle) (f : Weight) (l r : Option Handle), p.val < t.cnt ∧ t.nodeAt p = .internal f l r ∧
      (l = some g ∨ r = some g) := by
  rw [childRefs_eq, List.mem_flatMap]
  constructor
  · rintro ⟨p, hp, hg⟩
    cases hn : t.nodeAt p with
    | leaf b f => rw [hn] at hg; cases hg
    | internal f l r =>
      rw [hn] at hg
      refine ⟨p, f, l, r, mem_handlesBelow.1 hp, hn, ?_⟩
      simpa [Node.children, eq_comm] using hg
  · rintro ⟨p, f, l, r, hp, hn, hg⟩
    refine ⟨p, mem_handlesBelow.2 hp, ?_⟩
    rw [hn]
    simpa [Node.children, eq_comm] using hg

/-- What waits when the next node is made: the handles in use that no node names. -/
theorem waiting_next {t : TreeRegs} {h g : Handle} (hh : h.val = t.cnt) : t.Waiting h g ↔ g.val < t.cnt ∧ g ∉ t.childRefs := by
  rw [TreeRegs.Waiting, hh, mem_childRefs]
  refine and_congr_right fun _ => ⟨?_, ?_⟩
  · rintro k ⟨p, f, l, r, hp, hn, hg⟩
    exact hg.elim (k p f l r hp hn).1 (k p f l r hp hn).2
  · intro k p f l r hp hn
    exact ⟨fun e => k ⟨p, f, l, r, hp, hn, .inl e⟩, fun e => k ⟨p, f, l, r, hp, hn, .inr e⟩⟩

/-! ### Growing an arena keeps the trees in it -/

/-- The nodes in use stay what they are. -/
def Extends (t u : TreeRegs) : Prop := t.cnt ≤ u.cnt ∧ ∀ h : Handle, h.val < t.cnt → u.nodeAt h = t.nodeAt h

theorem Extends.refl (t : TreeRegs) : Extends t t := ⟨Nat.le_refl _, fun _ _ => rfl⟩

theorem Extends.trans {t u v : TreeRegs} (h : Extends t u) (k : Extends u v) : Extends t v :=
  ⟨Nat.le_trans h.1 k.1, fun x hx => (k.2 x (Nat.lt_of_lt_of_le hx h.1)).trans (h.2 x hx)⟩

theorem extends_insertNode {t : TreeRegs} (h : t.cnt < 511) (n : Node) : Extends t (insertNode n t) :=
  ⟨by rw [insertNode_cnt h]; omega, fun _ hx => insertNode_nodeAt_old h n hx⟩

theorem Extends.freqAt {t u : TreeRegs} (e : Extends t u) {h : Handle} (hh : h.val < t.cnt) : u.freqAt h = t.freqAt h := by
  rw [TreeRegs.freqAt, e.2 h hh, TreeRegs.freqAt]

theorem Extends.waiting {t u : TreeRegs} (e : Extends t u) {h g : Handle} (hh : h.val ≤ t.cnt) : u.Waiting h g ↔ t.Waiting h g := by
  have hn : ∀ p : Handle, p.val < h.val → u.nodeAt p = t.nodeAt p := fun p hp => e.2 p (Nat.lt_of_lt_of_le hp hh)
  refine and_congr_right fun _ => ⟨fun k p f l r hp h' => k p f l r hp ((hn p hp).trans h'), fun k p f l r hp h' => ?_⟩
  exact k p f l r hp ((hn p hp).symm.trans h')

theorem Rep.used {t : TreeRegs} {h : Handle} {sh : Shape} (r : Rep t h sh) : h.val < t.cnt := by
  cases r <;> assumption

theorem Rep.extends {t u : TreeRegs} (e : Extends t u) {h : Handle} {sh : Shape} (r : Rep t h sh) : Rep u h sh := by
  induction r with
  | leaf used node => exact .leaf (Nat.lt_of_lt_of_le used e.1) ((e.2 _ used).trans node)
  | one used node _ ih => exact .one (Nat.lt_of_lt_of_le used e.1) ((e.2 _ used).trans node) ih
  | two used node _ _ ihl ihr => exact .two (Nat.lt_of_lt_of_le used e.1) ((e.2 _ used).trans node) ihl ihr

/-- Registers other than the arena play no part. -/
theorem Rep.congr {t u : TreeRegs} (hn : u.node = t.node) (hc : u.cnt = t.cnt) {h : Handle} {sh : Shape} (r : Rep t h sh) :
    Rep u h sh :=
  r.extends ⟨Nat.le_of_eq hc.symm, fun _ _ => by rw [TreeRegs.nodeAt, hn, TreeRegs.nodeAt]⟩

end Sys2Proof.Machine
end

