-- ==== Sys2Proof/Laws/Bits.lean ====
section
/-! SUPPORT. Bit strings and bytes: `pack`, its full bytes and its leftover bits (`00_scope.md` section 6.2). -/

namespace Sys2Proof.Machine

/-- Bit `7 - j` of the byte is bit `j` of the string. -/
theorem byteFrom_bit (bs : List Bool) {j : Nat} (hj : j < 8) : (byteFrom bs).getLsbD (7 - j) = bs.getD j false := by
  have key : ∀ b0 b1 b2 b3 b4 b5 b6 b7 : Bool, ∀ j : Fin 8,
      (BitVec.ofNat 8 (2 * (2 * (2 * (2 * (2 * (2 * (2 * (2 * 0 + b0.toNat) + b1.toNat) + b2.toNat) + b3.toNat) + b4.toNat)
        + b5.toNat) + b6.toNat) + b7.toNat)).getLsbD (7 - j.val) = [b0, b1, b2, b3, b4, b5, b6, b7].getD j.val false := by
    decide
  have h := key (bs.getD 0 false) (bs.getD 1 false) (bs.getD 2 false) (bs.getD 3 false) (bs.getD 4 false) (bs.getD 5 false)
    (bs.getD 6 false) (bs.getD 7 false) ⟨j, hj⟩
  refine Eq.trans h ?_
  interval_cases j <;> rfl

/-- A byte is determined by its bits, most significant first. -/
theorem byte_ext {x y : Byte} (h : ∀ j, j < 8 → x.getLsbD (7 - j) = y.getLsbD (7 - j)) : x = y := by
  apply BitVec.eq_of_getLsbD_eq
  intro i hi
  have := h (7 - i) (by omega)
  rwa [show 7 - (7 - i) = i by omega] at this

theorem byteFrom_take (bs : List Bool) : byteFrom (bs.take 8) = byteFrom bs := by
  apply byte_ext
  intro j hj
  rw [byteFrom_bit _ hj, byteFrom_bit _ hj]
  simp [List.getD_eq_getElem?_getD, hj]

theorem byteBits_length (b : Byte) : (byteBits b).length = 8 := by simp [byteBits]

theorem byteFrom_byteBits (b : Byte) : byteFrom (byteBits b) = b := by
  apply byte_ext
  intro j hj
  rw [byteFrom_bit _ hj]
  simp [byteBits, List.getD_eq_getElem?_getD, hj]

/-- Reading a byte back gives the bits it was made of, then zeros. -/
theorem byteBits_byteFrom (bs : List Bool) (h : bs.length ≤ 8) :
    byteBits (byteFrom bs) = bs ++ List.replicate (8 - bs.length) false := by
  apply List.ext_getElem
  · simp [byteBits]; omega
  · intro i h1 h2
    have hi : i < 8 := by simpa [byteBits] using h1
    rw [List.getElem_append]
    simp only [byteBits, List.getElem_map, List.getElem_range, byteFrom_bit bs hi, List.getD_eq_getElem?_getD]
    split
    next hl => simp [hl]
    next hl => simp [List.getElem?_eq_none (Nat.le_of_not_lt hl)]

/-! ### Full bytes and leftover bits -/

theorem fullBytes_of_lt {bs : List Bool} (h : bs.length < 8) : fullBytes bs = [] := by
  simp [fullBytes, Nat.div_eq_of_lt h]

theorem leftover_of_lt {bs : List Bool} (h : bs.length < 8) : leftover bs = bs := by
  simp [leftover, Nat.div_eq_of_lt h]

theorem fullBytes_chunk {c : List Bool} (hc : c.length = 8) (bs : List Bool) :
    fullBytes (c ++ bs) = byteFrom c :: fullBytes bs := by
  have hlen : (c ++ bs).length / 8 = bs.length / 8 + 1 := by simp [hc]
  simp only [fullBytes, hlen, List.range_succ_eq_map, List.map_cons, List.map_map]
  congr 1
  · simp only [Nat.mul_zero, List.drop_zero]
    rw [← byteFrom_take, List.take_left' hc]
  · apply List.map_congr_left
    intro i _
    simp only [Function.comp, Nat.succ_eq_add_one]
    rw [show 8 * (i + 1) = c.length + 8 * i by omega, ← List.drop_drop, List.drop_left]

theorem leftover_chunk {c : List Bool} (hc : c.length = 8) (bs : List Bool) : leftover (c ++ bs) = leftover bs := by
  have hlen : (c ++ bs).length / 8 = bs.length / 8 + 1 := by simp [hc]
  simp only [leftover, hlen]
  rw [show 8 * (bs.length / 8 + 1) = c.length + 8 * (bs.length / 8) by omega, ← List.drop_drop, List.drop_left]

theorem leftover_length (bs : List Bool) : (leftover bs).length = bs.length % 8 := by
  simp [leftover]; omega

theorem fullBytes_length (bs : List Bool) : (fullBytes bs).length = bs.length / 8 := by simp [fullBytes]

/-- A string of at least eight bits begins with a chunk of eight. -/
theorem exists_chunk {bs : List Bool} (h : 8 ≤ bs.length) :
    ∃ c rest, c.length = 8 ∧ bs = c ++ rest ∧ rest.length + 8 = bs.length :=
  ⟨bs.take 8, bs.drop 8, by simp; omega, by simp, by simp; omega⟩

/-- Bits put after a string go behind its leftover bits. -/
theorem fullBytes_append (bs cs : List Bool) : fullBytes (bs ++ cs) = fullBytes bs ++ fullBytes (leftover bs ++ cs) := by
  by_cases h : bs.length < 8
  · rw [fullBytes_of_lt h, leftover_of_lt h, List.nil_append]
  · obtain ⟨c, rest, hc, rfl, hl⟩ := exists_chunk (Nat.le_of_not_lt h)
    have ih := fullBytes_append rest cs
    rw [List.append_assoc, fullBytes_chunk hc, fullBytes_chunk hc, leftover_chunk hc, ih, List.cons_append]
  termination_by bs.length

theorem leftover_append (bs cs : List Bool) : leftover (bs ++ cs) = leftover (leftover bs ++ cs) := by
  by_cases h : bs.length < 8
  · rw [leftover_of_lt h]
  · obtain ⟨c, rest, hc, rfl, hl⟩ := exists_chunk (Nat.le_of_not_lt h)
    have ih := leftover_append rest cs
    rw [List.append_assoc, leftover_chunk hc, leftover_chunk hc, ih]
  termination_by bs.length

/-- `pack` is the full bytes and, where bits are left over, one padded byte (R176). -/
theorem pack_eq (bs : List Bool) : pack bs = fullBytes bs ++ if leftover bs = [] then [] else [byteFrom (leftover bs)] := by
  by_cases h : bs.length % 8 = 0
  · have h1 : leftover bs = [] := List.eq_nil_of_length_eq_zero (by rw [leftover_length, h])
    have h2 : (bs.length + 7) / 8 = bs.length / 8 := by omega
    simp [pack, fullBytes, h1, h2]
  · have h1 : leftover bs ≠ [] := fun e => h (by rw [← leftover_length, e]; rfl)
    have h2 : (bs.length + 7) / 8 = bs.length / 8 + 1 := by omega
    rw [if_neg h1]
    simp [pack, fullBytes, h2, List.range_succ, leftover]

theorem pack_length (bs : List Bool) : (pack bs).length = (bs.length + 7) / 8 := by simp [pack]

/-- Reading the bits of a packed string gives the string back, then padding zeros (R184). -/
theorem pack_bits (bs : List Bool) :
    ∃ pad, (pack bs).flatMap byteBits = bs ++ List.replicate pad false ∧ pad = (8 - bs.length % 8) % 8 := by
  by_cases h : bs.length < 8
  · rw [pack_eq, fullBytes_of_lt h, leftover_of_lt h]
    cases bs with
    | nil => exact ⟨0, by simp, by simp⟩
    | cons b rest =>
      refine ⟨8 - (b :: rest).length, ?_, ?_⟩
      · simp only [reduceCtorEq, if_false, List.nil_append, List.flatMap_cons, List.flatMap_nil, List.append_nil]
        exact byteBits_byteFrom _ (Nat.le_of_lt h)
      · rw [Nat.mod_eq_of_lt h, Nat.mod_eq_of_lt]
        simp only [List.length_cons]; omega
  · obtain ⟨c, rest, hc, rfl, hl⟩ := exists_chunk (Nat.le_of_not_lt h)
    obtain ⟨pad, ih, hp⟩ := pack_bits rest
    refine ⟨pad, ?_, ?_⟩
    · rw [pack_eq, fullBytes_chunk hc, leftover_chunk hc, List.cons_append, ← pack_eq rest, List.flatMap_cons, ih,
        byteBits_byteFrom c (by omega), hc]
      simp
    · rw [hp]; simp only [List.length_append, hc]; omega
  termination_by bs.length

theorem pat2bits_length (p : Pattern) (n : Nat) : (pat2bits p n).length = n := by
  induction n with
  | zero => rfl
  | succ n ih => simp [pat2bits, ih]

/-- The bytes of `pack` that hold no padding. -/
theorem pack_take (bits : List Bool) : (pack bits).take (bits.length / 8) = fullBytes bits := by
  rw [pack_eq, ← fullBytes_length, List.take_left' rfl]

/-- Bit `i` of `pack`: the bit packed, or padding (R95). -/
theorem pack_bit (bits : List Bool) {i : Nat} (hi : i < 8 * (pack bits).length) :
    ((pack bits).getD (i / 8) 0).getLsbD (7 - i % 8) = if i < bits.length then bits.getD i false else false := by
  have h1 : i / 8 < (pack bits).length := by omega
  have h2 : (pack bits).getD (i / 8) 0 = byteFrom (bits.drop (8 * (i / 8))) := by
    rw [List.getD_eq_getElem _ _ h1]
    simp [pack]
  rw [h2, byteFrom_bit _ (by omega), List.getD_eq_getElem?_getD, List.getElem?_drop, show 8 * (i / 8) + i % 8 = i by omega]
  split
  · rw [List.getD_eq_getElem?_getD]
  · rw [List.getElem?_eq_none (by omega)]; rfl

/-- Zeros pack into zeros (R237). -/
theorem pack_zeros (n : Nat) : pack (List.replicate n false) = List.replicate ((n + 7) / 8) 0x00 := by
  apply List.ext_getElem
  · rw [pack_length, List.length_replicate, List.length_replicate]
  · intro i h1 h2
    rw [List.getElem_replicate]
    simp only [pack, List.getElem_map, List.getElem_range]
    apply byte_ext
    intro j hj
    rw [byteFrom_bit _ hj, List.drop_replicate, List.getD_eq_getElem?_getD, List.getElem?_replicate]
    split <;> simp

/-- The bits of a proper prefix of `pack` are a proper prefix of the bits packed. -/
theorem pack_take_bits (bits : List Bool) {m : Nat} (hm : m < (pack bits).length) :
    ((pack bits).take m).flatMap byteBits = bits.take (8 * m) ∧ 8 * m < bits.length := by
  have hl := pack_length bits
  have hlt : 8 * m < bits.length := by omega
  refine ⟨?_, hlt⟩
  obtain ⟨pad, h, _⟩ := pack_bits bits
  have key : ∀ (l : List Byte) (m : Nat), (l.take m).flatMap byteBits = (l.flatMap byteBits).take (8 * m) := by
    intro l
    induction l with
    | nil => intro m; simp
    | cons b l ih =>
      intro m
      cases m with
      | zero => simp
      | succ m =>
        rw [List.take_succ_cons, List.flatMap_cons, List.flatMap_cons, List.take_append, List.take_of_length_le (l := byteBits b) (by rw [byteBits_length]; omega), ih, byteBits_length, show 8 * (m + 1) - 8 = 8 * m by omega]
  rw [key, h, List.take_append_of_le_length (Nat.le_of_lt hlt)]

end Sys2Proof.Machine
end

