-- ==== Sys2Proof/Laws/State.lean ====
section
/-! SUPPORT. One lemma per field for each named update of State, true by unfolding, and the small facts of the update
operations. -/

namespace Sys2Proof.Machine

@[simp] theorem takeError_status (e : Err) (s : State) : (takeError e s).status = .fault := rfl
@[simp] theorem takeError_err (e : Err) (s : State) : (takeError e s).err = e := rfl
@[simp] theorem takeError_phase (e : Err) (s : State) : (takeError e s).phase = .fault := rfl
@[simp] theorem takeError_size (e : Err) (s : State) : (takeError e s).size = s.size := rfl
@[simp] theorem takeError_emitted (e : Err) (s : State) : (takeError e s).emitted = s.emitted := rfl
@[simp] theorem takeError_freq (e : Err) (s : State) : (takeError e s).freq = s.freq := rfl
@[simp] theorem takeError_code (e : Err) (s : State) : (takeError e s).code = s.code := rfl
@[simp] theorem takeError_tree (e : Err) (s : State) : (takeError e s).tree = s.tree := rfl
@[simp] theorem takeError_bwAcc (e : Err) (s : State) : (takeError e s).bwAcc = s.bwAcc := rfl
@[simp] theorem takeError_bwN (e : Err) (s : State) : (takeError e s).bwN = s.bwN := rfl
@[simp] theorem takeError_brBuf (e : Err) (s : State) : (takeError e s).brBuf = s.brBuf := rfl
@[simp] theorem takeError_brN (e : Err) (s : State) : (takeError e s).brN = s.brN := rfl
@[simp] theorem takeError_brOk (e : Err) (s : State) : (takeError e s).brOk = s.brOk := rfl
@[simp] theorem takeError_cur (e : Err) (s : State) : (takeError e s).cur = s.cur := rfl
@[simp] theorem takeError_mem (e : Err) (s : State) : (takeError e s).mem = s.mem := rfl
@[simp] theorem takeError_host (e : Err) (s : State) : (takeError e s).host = s.host := rfl
@[simp] theorem takeError_draws (e : Err) (s : State) : (takeError e s).draws = s.draws := rfl

@[simp] theorem goPhase_status (p : Phase) (s : State) : (goPhase p s).status = s.status := rfl
@[simp] theorem goPhase_err (p : Phase) (s : State) : (goPhase p s).err = s.err := rfl
@[simp] theorem goPhase_phase (p : Phase) (s : State) : (goPhase p s).phase = p := rfl
@[simp] theorem goPhase_size (p : Phase) (s : State) : (goPhase p s).size = s.size := rfl
@[simp] theorem goPhase_emitted (p : Phase) (s : State) : (goPhase p s).emitted = s.emitted := rfl
@[simp] theorem goPhase_freq (p : Phase) (s : State) : (goPhase p s).freq = s.freq := rfl
@[simp] theorem goPhase_code (p : Phase) (s : State) : (goPhase p s).code = s.code := rfl
@[simp] theorem goPhase_tree (p : Phase) (s : State) : (goPhase p s).tree = s.tree := rfl
@[simp] theorem goPhase_bwAcc (p : Phase) (s : State) : (goPhase p s).bwAcc = s.bwAcc := rfl
@[simp] theorem goPhase_bwN (p : Phase) (s : State) : (goPhase p s).bwN = s.bwN := rfl
@[simp] theorem goPhase_brBuf (p : Phase) (s : State) : (goPhase p s).brBuf = s.brBuf := rfl
@[simp] theorem goPhase_brN (p : Phase) (s : State) : (goPhase p s).brN = s.brN := rfl
@[simp] theorem goPhase_brOk (p : Phase) (s : State) : (goPhase p s).brOk = s.brOk := rfl
@[simp] theorem goPhase_cur (p : Phase) (s : State) : (goPhase p s).cur = s.cur := rfl
@[simp] theorem goPhase_mem (p : Phase) (s : State) : (goPhase p s).mem = s.mem := rfl
@[simp] theorem goPhase_host (p : Phase) (s : State) : (goPhase p s).host = s.host := rfl
@[simp] theorem goPhase_draws (p : Phase) (s : State) : (goPhase p s).draws = s.draws := rfl

@[simp] theorem finishCommand_status (s : State) : (finishCommand s).status = .done := rfl
@[simp] theorem finishCommand_err (s : State) : (finishCommand s).err = s.err := rfl
@[simp] theorem finishCommand_phase (s : State) : (finishCommand s).phase = .done := rfl
@[simp] theorem finishCommand_size (s : State) : (finishCommand s).size = s.size := rfl
@[simp] theorem finishCommand_emitted (s : State) : (finishCommand s).emitted = s.emitted := rfl
@[simp] theorem finishCommand_freq (s : State) : (finishCommand s).freq = s.freq := rfl
@[simp] theorem finishCommand_code (s : State) : (finishCommand s).code = s.code := rfl
@[simp] theorem finishCommand_tree (s : State) : (finishCommand s).tree = s.tree := rfl
@[simp] theorem finishCommand_bwAcc (s : State) : (finishCommand s).bwAcc = s.bwAcc := rfl
@[simp] theorem finishCommand_bwN (s : State) : (finishCommand s).bwN = s.bwN := rfl
@[simp] theorem finishCommand_brBuf (s : State) : (finishCommand s).brBuf = s.brBuf := rfl
@[simp] theorem finishCommand_brN (s : State) : (finishCommand s).brN = s.brN := rfl
@[simp] theorem finishCommand_brOk (s : State) : (finishCommand s).brOk = s.brOk := rfl
@[simp] theorem finishCommand_cur (s : State) : (finishCommand s).cur = s.cur := rfl
@[simp] theorem finishCommand_mem (s : State) : (finishCommand s).mem = s.mem := rfl
@[simp] theorem finishCommand_host (s : State) : (finishCommand s).host = s.host := rfl
@[simp] theorem finishCommand_draws (s : State) : (finishCommand s).draws = s.draws := rfl

@[simp] theorem setBrOk_status (ok : Bool) (s : State) : (setBrOk ok s).status = s.status := rfl
@[simp] theorem setBrOk_err (ok : Bool) (s : State) : (setBrOk ok s).err = s.err := rfl
@[simp] theorem setBrOk_phase (ok : Bool) (s : State) : (setBrOk ok s).phase = s.phase := rfl
@[simp] theorem setBrOk_size (ok : Bool) (s : State) : (setBrOk ok s).size = s.size := rfl
@[simp] theorem setBrOk_emitted (ok : Bool) (s : State) : (setBrOk ok s).emitted = s.emitted := rfl
@[simp] theorem setBrOk_freq (ok : Bool) (s : State) : (setBrOk ok s).freq = s.freq := rfl
@[simp] theorem setBrOk_code (ok : Bool) (s : State) : (setBrOk ok s).code = s.code := rfl
@[simp] theorem setBrOk_tree (ok : Bool) (s : State) : (setBrOk ok s).tree = s.tree := rfl
@[simp] theorem setBrOk_bwAcc (ok : Bool) (s : State) : (setBrOk ok s).bwAcc = s.bwAcc := rfl
@[simp] theorem setBrOk_bwN (ok : Bool) (s : State) : (setBrOk ok s).bwN = s.bwN := rfl
@[simp] theorem setBrOk_brBuf (ok : Bool) (s : State) : (setBrOk ok s).brBuf = s.brBuf := rfl
@[simp] theorem setBrOk_brN (ok : Bool) (s : State) : (setBrOk ok s).brN = s.brN := rfl
@[simp] theorem setBrOk_brOk (ok : Bool) (s : State) : (setBrOk ok s).brOk = ok := rfl
@[simp] theorem setBrOk_cur (ok : Bool) (s : State) : (setBrOk ok s).cur = s.cur := rfl
@[simp] theorem setBrOk_mem (ok : Bool) (s : State) : (setBrOk ok s).mem = s.mem := rfl
@[simp] theorem setBrOk_host (ok : Bool) (s : State) : (setBrOk ok s).host = s.host := rfl
@[simp] theorem setBrOk_draws (ok : Bool) (s : State) : (setBrOk ok s).draws = s.draws := rfl

@[simp] theorem commandStart_status (p : Phase) (s : State) : (commandStart p s).status = .busy := rfl
@[simp] theorem commandStart_err (p : Phase) (s : State) : (commandStart p s).err = .none := rfl
@[simp] theorem commandStart_phase (p : Phase) (s : State) : (commandStart p s).phase = p := rfl
@[simp] theorem commandStart_size (p : Phase) (s : State) : (commandStart p s).size = 0 := rfl
@[simp] theorem commandStart_emitted (p : Phase) (s : State) : (commandStart p s).emitted = 0 := rfl
@[simp] theorem commandStart_freq (p : Phase) (s : State) : (commandStart p s).freq = Table.all 0 := rfl
@[simp] theorem commandStart_code (p : Phase) (s : State) : (commandStart p s).code = { s.code with len := Table.all 0 } := rfl
@[simp] theorem commandStart_tree (p : Phase) (s : State) : (commandStart p s).tree = { s.tree with cnt := 0, root := none, pq := [] } := rfl
@[simp] theorem commandStart_bwAcc (p : Phase) (s : State) : (commandStart p s).bwAcc = 0 := rfl
@[simp] theorem commandStart_bwN (p : Phase) (s : State) : (commandStart p s).bwN = 0 := rfl
@[simp] theorem commandStart_brBuf (p : Phase) (s : State) : (commandStart p s).brBuf = s.brBuf := rfl
@[simp] theorem commandStart_brN (p : Phase) (s : State) : (commandStart p s).brN = 0 := rfl
@[simp] theorem commandStart_brOk (p : Phase) (s : State) : (commandStart p s).brOk = true := rfl
@[simp] theorem commandStart_cur (p : Phase) (s : State) : (commandStart p s).cur = s.cur := rfl
@[simp] theorem commandStart_mem (p : Phase) (s : State) : (commandStart p s).mem = { s.mem with srcPos := 0, snk := [], snkPos := 0 } := rfl
@[simp] theorem commandStart_host (p : Phase) (s : State) : (commandStart p s).host = s.host := rfl
@[simp] theorem commandStart_draws (p : Phase) (s : State) : (commandStart p s).draws = s.draws := rfl

@[simp] theorem Memory.answered_src (m : Memory) : (m.answered).src = m.src := rfl
@[simp] theorem Memory.answered_srcPos (m : Memory) : (m.answered).srcPos = m.srcPos := rfl
@[simp] theorem Memory.answered_rewound (m : Memory) : (m.answered).rewound = m.rewound := rfl
@[simp] theorem Memory.answered_snk (m : Memory) : (m.answered).snk = m.snk := rfl
@[simp] theorem Memory.answered_snkPos (m : Memory) : (m.answered).snkPos = m.snkPos := rfl
@[simp] theorem Memory.answered_io (m : Memory) : (m.answered).io = m.io.tail := rfl

@[simp] theorem Memory.append_src (m : Memory) (v : List Byte) : (m.append v).src = m.src := rfl
@[simp] theorem Memory.append_srcPos (m : Memory) (v : List Byte) : (m.append v).srcPos = m.srcPos := rfl
@[simp] theorem Memory.append_rewound (m : Memory) (v : List Byte) : (m.append v).rewound = m.rewound := rfl
@[simp] theorem Memory.append_snk (m : Memory) (v : List Byte) : (m.append v).snk = m.snk ++ v := rfl
@[simp] theorem Memory.append_snkPos (m : Memory) (v : List Byte) : (m.append v).snkPos = m.snkPos + v.length := rfl
@[simp] theorem Memory.append_io (m : Memory) (v : List Byte) : (m.append v).io = m.io := rfl

@[simp] theorem Memory.answered_rest (m : Memory) : m.answered.rest = m.rest := rfl
@[simp] theorem Memory.append_rest (m : Memory) (v : List Byte) : (m.append v).rest = m.rest := rfl
@[simp] theorem Memory.append_nil (m : Memory) : m.append [] = m := by simp [Memory.append]
theorem Memory.append_append (m : Memory) (v w : List Byte) : (m.append v).append w = m.append (v ++ w) := by
  simp [Memory.append, Nat.add_assoc]

theorem Memory.answer_of_noFailure {m : Memory} (h : m.NoFailure) : m.answer = .works := by
  unfold Memory.answer
  cases hio : m.io with
  | nil => rfl
  | cons a l => exact h a (by simp [hio])

theorem Memory.noFailure_tail {m n : Memory} (h : m.NoFailure) (hn : n.io = m.io.tail) : n.NoFailure := by
  intro a ha
  exact h a (List.mem_of_mem_tail (hn ▸ ha))

theorem Memory.noFailure_drop {m n : Memory} {k : Nat} (h : m.NoFailure) (hn : n.io = m.io.drop k) : n.NoFailure := by
  intro a ha
  exact h a (List.mem_of_mem_drop (hn ▸ ha))

theorem Memory.answer_eq (m : Memory) : m.answer = m.io.getD 0 .works := by
  unfold Memory.answer
  cases m.io <;> rfl

theorem Memory.WorksFor.answer {m : Memory} {n : Nat} (h : m.WorksFor (n + 1)) : m.answer = .works :=
  m.answer_eq.trans (h 0 (Nat.succ_pos n))

theorem Memory.FailsAfter.answer {m : Memory} {k : Nat} (h : m.FailsAfter 0 k) : m.answer = .fails k := m.answer_eq.trans h.2

theorem Memory.getD_drop {m n : Memory} {a : Nat} (hn : n.io = m.io.drop a) (i : Nat) :
    n.io.getD i .works = m.io.getD (a + i) .works := by
  rw [hn, List.getD_eq_getElem?_getD, List.getD_eq_getElem?_getD, List.getElem?_drop]

theorem Memory.WorksFor.drop {m n : Memory} {a b c : Nat} (h : m.WorksFor c) (hn : n.io = m.io.drop a) (hc : a + b ≤ c) :
    n.WorksFor b := fun i hi => (Memory.getD_drop hn i).trans (h (a + i) (by omega))

theorem Memory.FailsAfter.drop {m n : Memory} {a b c k : Nat} (h : m.FailsAfter c k) (hn : n.io = m.io.drop a) (hc : c = a + b) :
    n.FailsAfter b k :=
  ⟨h.1.drop hn (Nat.le_of_eq hc.symm), (Memory.getD_drop hn b).trans (hc ▸ h.2)⟩

theorem Memory.NoFailure.worksFor {m : Memory} (h : m.NoFailure) (n : Nat) : m.WorksFor n := by
  intro i _
  rw [List.getD_eq_getElem?_getD]
  cases hi : m.io[i]? with
  | none => rfl
  | some a => exact h a (List.mem_of_getElem? hi)

end Sys2Proof.Machine
end

