-- ==== Sys2Proof/Laws/Results.lean ====
section
/-! SUPPORT. Results of operations: how they sequence, and what every end of an operation satisfies. -/

namespace Sys2Proof.Machine.Res

variable {α β : Type}

@[simp] theorem bind_ok (a : α) (s : State) (k : α → State → Res β) : (Res.ok a s).bind k = k a s := rfl
@[simp] theorem bind_raised (s : State) (k : α → State → Res β) : (Res.raised s : Res α).bind k = .raised s := rfl
@[simp] theorem bind_fault (f : Fault) (k : α → State → Res β) : (Res.fault f : Res α).bind k = .fault f := rfl
@[simp] theorem bind_refused (f : Refusal) (k : α → State → Res β) : (Res.refused f : Res α).bind k = .refused f := rfl
@[simp] theorem outcome_ok (a : α) (s : State) : (Res.ok a s).outcome = .next s := rfl
@[simp] theorem outcome_raised (s : State) : (Res.raised s : Res α).outcome = .next s := rfl
@[simp] theorem outcome_fault (f : Fault) : (Res.fault f : Res α).outcome = .fault f := rfl
@[simp] theorem outcome_refused (f : Refusal) : (Res.refused f : Res α).outcome = .refused f := rfl

theorem bind_assoc {γ : Type} (r : Res α) (k : α → State → Res β) (l : β → State → Res γ) :
    (r.bind k).bind l = r.bind fun a s => (k a s).bind l := by
  cases r <;> rfl

/-- What the ends of an operation satisfy: `Q` where it returns, `E` where it raises. -/
def Sat (r : Res α) (Q : α → State → Prop) (E : State → Prop) : Prop :=
  match r with
  | .ok a s => Q a s
  | .raised s => E s
  | .fault _ => True
  | .refused _ => True

@[simp] theorem sat_ok {a : α} {s : State} {Q : α → State → Prop} {E : State → Prop} : (Res.ok a s).Sat Q E ↔ Q a s := Iff.rfl
@[simp] theorem sat_raised {s : State} {Q : α → State → Prop} {E : State → Prop} : (Res.raised s : Res α).Sat Q E ↔ E s := Iff.rfl
@[simp] theorem sat_fault {f : Fault} {Q : α → State → Prop} {E : State → Prop} : (Res.fault f : Res α).Sat Q E := trivial
@[simp] theorem sat_refused {f : Refusal} {Q : α → State → Prop} {E : State → Prop} : (Res.refused f : Res α).Sat Q E := trivial

theorem Sat.bind {r : Res α} {k : α → State → Res β} {P : α → State → Prop} {Q : β → State → Prop} {E : State → Prop}
    (h : r.Sat P E) (hk : ∀ a s, P a s → (k a s).Sat Q E) : (r.bind k).Sat Q E := by
  cases r with
  | ok a s => exact hk a s h
  | raised s => exact h
  | fault f => trivial
  | refused f => trivial

theorem Sat.mono {r : Res α} {P Q : α → State → Prop} {E F : State → Prop} (h : r.Sat P E) (hQ : ∀ a s, P a s → Q a s)
    (hE : ∀ s, E s → F s) : r.Sat Q F := by
  cases r with
  | ok a s => exact hQ a s h
  | raised s => exact hE s h
  | fault f => trivial
  | refused f => trivial

theorem Sat.and {r : Res α} {P Q : α → State → Prop} {E F : State → Prop} (h : r.Sat P E) (h' : r.Sat Q F) :
    r.Sat (fun a s => P a s ∧ Q a s) fun s => E s ∧ F s := by
  cases r with
  | ok a s => exact ⟨h, h'⟩
  | raised s => exact ⟨h, h'⟩
  | fault f => trivial
  | refused f => trivial

/-- A next state of the operation is one of its ends. -/
theorem Sat.next {r : Res α} {P : State → Prop} (h : r.Sat (fun _ s => P s) P) {t : State} (ht : r.outcome = .next t) : P t := by
  cases r with
  | ok a s => cases ht; exact h
  | raised s => cases ht; exact h
  | fault f => cases ht
  | refused f => cases ht

end Sys2Proof.Machine.Res
end

