-- ==== Sys2Proof/Laws/Streams.lean ====
section
/-! SUPPORT. The stream accesses: everything a read, a rewind and a write can do, and that each keeps the form of the
streams. -/

namespace Sys2Proof.Machine

/-! ### When the access works -/

theorem memRead_works {s : State} (h : s.mem.answer = .works) (n : Nat) :
    memRead n s = .ok (s.mem.rest.take n)
      { s with mem := { s.mem.answered with srcPos := s.mem.srcPos + (s.mem.rest.take n).length } } := by
  simp [memRead, h]

theorem memWrite_works {s : State} (h : s.mem.answer = .works) (v : List Byte) :
    memWrite v s = .ok () { s with mem := s.mem.answered.append v } := by
  simp [memWrite, h]

theorem srcRewind_works {s : State} (h : s.mem.answer = .works) :
    srcRewind s =
      .ok () { s with mem := { s.mem.answered with src := s.mem.rewound.getD s.mem.src, srcPos := 0, rewound := none } } := by
  simp [srcRewind, h]

/-! ### When it fails -/

theorem memRead_fails {s : State} {k : Nat} (h : s.mem.answer = .fails k) (n : Nat) :
    memRead n s = raise .io { s with mem := s.mem.answered } := by
  simp [memRead, h]

theorem memWrite_fails {s : State} {k : Nat} (h : s.mem.answer = .fails k) (v : List Byte) :
    memWrite v s = raise .io { s with mem := s.mem.answered.append (v.take k) } := by
  simp [memWrite, h]

theorem srcRewind_fails {s : State} {k : Nat} (h : s.mem.answer = .fails k) :
    srcRewind s = raise .io { s with mem := s.mem.answered } := by
  simp [srcRewind, h]

/-! ### Either way -/

theorem memRead_sat (n : Nat) (s : State) :
    (memRead n s).Sat
      (fun r t => r = s.mem.rest.take n ∧ t = { s with mem := { s.mem.answered with srcPos := s.mem.srcPos + r.length } })
      (fun t => t = takeError .io { s with mem := s.mem.answered }) := by
  cases h : s.mem.answer with
  | works => simp [memRead_works h]
  | fails k => simp [memRead_fails h, raise]

theorem memWrite_sat (v : List Byte) (s : State) :
    (memWrite v s).Sat (fun _ t => t = { s with mem := s.mem.answered.append v })
      (fun t => ∃ k, t = takeError .io { s with mem := s.mem.answered.append (v.take k) }) := by
  cases h : s.mem.answer with
  | works => simp [memWrite_works h]
  | fails k => simp only [memWrite_fails h, raise, Res.sat_raised]; exact ⟨k, rfl⟩

theorem srcRewind_sat (s : State) :
    (srcRewind s).Sat
      (fun _ t => t =
        { s with mem := { s.mem.answered with src := s.mem.rewound.getD s.mem.src, srcPos := 0, rewound := none } })
      (fun t => t = takeError .io { s with mem := s.mem.answered }) := by
  cases h : s.mem.answer with
  | works => simp [srcRewind_works h]
  | fails k => simp [srcRewind_fails h, raise]

/-! ### The form of the streams -/

theorem Memory.wf_reset : Memory.reset.wf := by decide

theorem Memory.wf_fresh (src : List Byte) (rw : Option (List Byte)) (io : List IOAnswer) : (freshStreams src rw io).wf :=
  ⟨Nat.zero_le _, rfl⟩

theorem Memory.wf_answered {m : Memory} (h : m.wf) : m.answered.wf := h

theorem Memory.wf_append {m : Memory} (h : m.wf) (v : List Byte) : (m.append v).wf :=
  ⟨h.1, by simp [h.2]⟩

theorem Memory.wf_read {m : Memory} (h : m.wf) (n : Nat) :
    Memory.wf { m.answered with srcPos := m.srcPos + (m.rest.take n).length } := by
  refine ⟨?_, h.2⟩
  have := h.1
  simp only [Memory.answered_src, Memory.rest, List.length_take, List.length_drop]
  omega

theorem Memory.wf_rewind {m : Memory} (h : m.wf) (src : List Byte) :
    Memory.wf { m.answered with src := src, srcPos := 0, rewound := none } := ⟨Nat.zero_le _, h.2⟩

/-- What is left to read after a read (R61). -/
theorem Memory.rest_read (m : Memory) (n : Nat) :
    Memory.rest { m.answered with srcPos := m.srcPos + (m.rest.take n).length } = m.rest.drop n := by
  simp only [Memory.rest, Memory.answered_src, List.drop_drop, List.length_take, List.length_drop]
  rcases Nat.le_total n (m.src.length - m.srcPos) with h | h
  · rw [Nat.min_eq_left h]
  · rw [Nat.min_eq_right h, List.drop_eq_nil_of_le (by omega), List.drop_eq_nil_of_le (by omega)]

end Sys2Proof.Machine
end

