-- ==== Sys2Proof/Laws/BitWriter.lean ====
section
/-! SUPPORT. The Bit Writer: what one bit does, and that any string of bits has the net effect of
`43_bit_writer.md` rule R176. -/

namespace Sys2Proof.Machine

theorem pendingBits_length (s : State) : s.pendingBits.length = s.bwN.val := by simp [State.pendingBits]

theorem accWith_bit (acc : Byte) {n : Nat} (hn : n < 8) (b : Bool) {i : Nat} (hi : i < 8) :
    (accWith acc n b).getLsbD (7 - i) = (acc.getLsbD (7 - i) || (decide (i = n) && b)) := by
  simp only [accWith, BitVec.getLsbD_or, BitVec.getLsbD_shiftLeft, BitVec.getLsbD_setWidth]
  congr 1
  rcases Nat.lt_trichotomy i n with h | h | h
  · have : ¬ (7 - i < 7 - n) := by omega
    have hne : i ≠ n := by omega
    cases b <;> simp [this, hne, show 7 - i < 8 by omega]
    omega
  · subst h
    have h8 : 7 - i < 8 := by omega
    cases b <;> simp [h8]
  · have : 7 - i < 7 - n := by omega
    have hne : i ≠ n := by omega
    simp [this, hne]

/-- The buffer of a resting Bit Writer is the byte of its pending bits (R37). -/
theorem bwAcc_eq {s : State} (h : s.WriterOk) : s.bwAcc = byteFrom s.pendingBits := by
  apply byte_ext
  intro j hj
  rw [byteFrom_bit _ hj]
  by_cases hjn : j < s.bwN.val
  · simp [State.pendingBits, List.getD_eq_getElem?_getD, hjn]
  · rw [h _ (by omega)]
    simp [State.pendingBits, List.getD_eq_getElem?_getD, hjn]

theorem writerOk_of_eq {s : State} (h : s.bwAcc = byteFrom s.pendingBits) : s.WriterOk := by
  intro i hi
  have h8 : 7 - i < 8 := by omega
  have h3 : i < 8 := by omega
  have hb := byteFrom_bit s.pendingBits h8
  rw [show 7 - (7 - i) = i by omega, ← h] at hb
  rw [hb]
  simp only [State.pendingBits, List.getD_eq_getElem?_getD]
  rw [List.getElem?_eq_none (by simp; omega)]
  rfl

theorem pendingBits_of {s : State} {bs : List Bool} (hl : bs.length < 8) (hn : s.bwN = Fin.ofNat 8 bs.length)
    (ha : s.bwAcc = byteFrom bs) : s.pendingBits = bs := by
  have hv : s.bwN.val = bs.length := by rw [hn]; simp [Nat.mod_eq_of_lt hl]
  apply List.ext_getElem
  · rw [pendingBits_length, hv]
  · intro i h1 h2
    simp only [State.pendingBits, List.getElem_map, List.getElem_range]
    rw [ha, byteFrom_bit _ (by omega)]
    simp [List.getD_eq_getElem?_getD, h2]

/-! ### `afterBits` -/

theorem afterBits_pending (s : State) (bits : List Bool) : (s.afterBits bits).pendingBits = leftover (s.pendingBits ++ bits) := by
  apply pendingBits_of
  · rw [leftover_length]; omega
  · simp only [State.afterBits, leftover_length]
    apply Fin.ext
    simp
  · rfl

theorem afterBits_writerOk (s : State) (bits : List Bool) : (s.afterBits bits).WriterOk :=
  writerOk_of_eq (by rw [afterBits_pending]; rfl)

theorem afterBits_nil {s : State} (h : s.WriterOk) : s.afterBits [] = s := by
  have hl : s.pendingBits.length < 8 := by rw [pendingBits_length]; exact s.bwN.isLt
  have hn : Fin.ofNat 8 s.pendingBits.length = s.bwN := by
    apply Fin.ext
    simp [pendingBits_length]
  simp only [State.afterBits, List.append_nil, leftover_of_lt hl, fullBytes_of_lt hl, ← bwAcc_eq h, hn]
  simp [Memory.wrote]

theorem Memory.wrote_wrote (m : Memory) (v w : List Byte) : (m.wrote v).wrote w = m.wrote (v ++ w) := by
  simp [Memory.wrote, Memory.append, Nat.add_assoc]

@[simp] theorem Memory.wrote_nil (m : Memory) : m.wrote [] = m := by simp [Memory.wrote]

theorem afterBits_afterBits (s : State) (xs ys : List Bool) : (s.afterBits xs).afterBits ys = s.afterBits (xs ++ ys) := by
  have hp := afterBits_pending s xs
  simp only [State.afterBits, Memory.wrote_wrote] at hp ⊢
  rw [hp, ← List.append_assoc, ← leftover_append, ← fullBytes_append]
  congr 1
  apply Fin.ext
  simp only [Fin.val_ofNat, List.length_append, leftover_length]
  omega

theorem afterBits_noFailure {s : State} (h : s.mem.NoFailure) (bits : List Bool) : (s.afterBits bits).mem.NoFailure :=
  Memory.noFailure_drop h rfl

/-! ### The operations -/

/-- The buffer with one more bit is the byte of the pending bits and that bit (R171). -/
theorem bwbit_value {s : State} (hw : s.WriterOk) (b : Bool) :
    accWith s.bwAcc s.bwN.val b = byteFrom (s.pendingBits ++ [b]) := by
  have hlen := pendingBits_length s
  apply byte_ext
  intro j hj
  rw [accWith_bit _ s.bwN.isLt _ hj, byteFrom_bit _ hj]
  rcases Nat.lt_trichotomy j s.bwN.val with h | h | h
  · simp [State.pendingBits, List.getD_eq_getElem?_getD, List.getElem?_append, h, Nat.ne_of_lt h]
  · rw [hw _ (by omega)]
    simp [List.getD_eq_getElem?_getD, hlen, h]
  · rw [hw _ (by omega)]
    have hne : j ≠ s.bwN.val := Nat.ne_of_gt h
    rw [List.getD_eq_getElem?_getD, List.getElem?_eq_none (by simp [hlen]; omega)]
    simp [hne]

/-- The buffer and one more bit: nothing is filled, or one byte. -/
theorem bwbit_split (s : State) (b : Bool) :
    (s.bwN.val < 7 ∧ fullBytes (s.pendingBits ++ [b]) = [] ∧ leftover (s.pendingBits ++ [b]) = s.pendingBits ++ [b]) ∨
      (s.bwN.val = 7 ∧ fullBytes (s.pendingBits ++ [b]) = [byteFrom (s.pendingBits ++ [b])] ∧
        leftover (s.pendingBits ++ [b]) = []) := by
  have hlen := pendingBits_length s
  by_cases h7 : s.bwN.val < 7
  · have hl : (s.pendingBits ++ [b]).length < 8 := by simp [hlen]; omega
    exact .inl ⟨h7, fullBytes_of_lt hl, leftover_of_lt hl⟩
  · have hl : (s.pendingBits ++ [b]).length = 8 := by simp [hlen]; omega
    have h1 := fullBytes_chunk hl []
    have h2 := leftover_chunk hl []
    rw [List.append_nil, fullBytes_of_lt (bs := []) (by simp)] at h1
    rw [List.append_nil, leftover_of_lt (bs := []) (by simp)] at h2
    exact .inr ⟨by omega, h1, h2⟩

/-- One bit, its write (if there is one) not failing. -/
theorem bwbit_works {s : State} {b : Bool} (ha : s.mem.WorksFor (fullBytes (s.pendingBits ++ [b])).length) (hw : s.WriterOk) :
    bwbit b s = .ok () (s.afterBits [b]) := by
  have hlen := pendingBits_length s
  have hacc := bwbit_value hw b
  rcases bwbit_split s b with ⟨h7, h1, h2⟩ | ⟨h7, h1, h2⟩
  · have hn : s.bwN + 1 = Fin.ofNat 8 (s.pendingBits ++ [b]).length := by
      apply Fin.ext
      simp [hlen, Fin.val_add]
    simp [bwbit, h7, State.afterBits, h1, h2, hacc, hn]
  · have hl : (s.pendingBits ++ [b]).length = 8 := by simp [hlen, h7]
    rw [h1] at ha
    have hfa : ({ s with bwAcc := accWith s.bwAcc s.bwN.val b } : State).mem.answer = .works := ha.answer
    have h0 : byteFrom [] = 0 := by decide
    simp only [bwbit, Nat.not_lt.2 (Nat.le_of_eq h7.symm), if_false, memWrite_works hfa, State.afterBits, h1, h2, hl]
    simp [Memory.wrote, Memory.append, hacc, h0]

/-- One bit that fills a byte, its write failing (R171, W16). -/
theorem bwbit_fails {s : State} {b : Bool} {k : Nat} (ha : s.mem.answer = .fails k) (hw : s.WriterOk) (h7 : s.bwN.val = 7) :
    ∃ n d, bwbit b s = .raised (takeError .io { s with
      bwAcc := byteFrom (s.pendingBits ++ [b]), bwN := n, draws := d
      mem := s.mem.answered.append ([byteFrom (s.pendingBits ++ [b])].take k) }) := by
  refine ⟨Config.freeBwN s.draws, s.draws + 1, ?_⟩
  simp only [bwbit, Nat.not_lt.2 (Nat.le_of_eq h7.symm), if_false, bwbit_value hw b]
  rw [memWrite_fails (s := { s with bwAcc := byteFrom (s.pendingBits ++ [b]) }) ha]
  rfl

/-- `BWBIT` over a string of bits, first one first. -/
def writeBits : List Bool → State → Res Unit
  | [], s => .ok () s
  | b :: bs, s => (bwbit b s).bind fun _ s => writeBits bs s

/-- `BWBITS(p, n)` is `BWBIT` applied to each bit of `pat2bits(p, n)` in order (R172). -/
theorem bwbits_eq (p : Pattern) (n : Nat) (s : State) : bwbits p n s = writeBits (pat2bits p n) s := by
  induction n generalizing s with
  | zero => rfl
  | succ n ih => simp only [bwbits, pat2bits, writeBits, ih]

/-- The bytes that one bit and then more bits fill. -/
theorem fullBytes_after (s : State) (b : Bool) (bs : List Bool) :
    fullBytes (s.pendingBits ++ b :: bs) =
      fullBytes (s.pendingBits ++ [b]) ++ fullBytes ((s.afterBits [b]).pendingBits ++ bs) := by
  rw [afterBits_pending, ← fullBytes_append, List.append_assoc, List.singleton_append]

theorem writeBits_works {s : State} {bits : List Bool} (ha : s.mem.WorksFor (fullBytes (s.pendingBits ++ bits)).length)
    (hw : s.WriterOk) : writeBits bits s = .ok () (s.afterBits bits) := by
  induction bits generalizing s with
  | nil => simp [writeBits, afterBits_nil hw]
  | cons b bs ih =>
    rw [fullBytes_after, List.length_append] at ha
    rw [writeBits, bwbit_works (ha.drop (a := 0) rfl (by omega)) hw, Res.bind_ok,
      ih (ha.drop rfl (Nat.le_refl _)) (afterBits_writerOk s _), afterBits_afterBits]
    rfl

theorem bwbits_works {s : State} {p : Pattern} {n : Nat}
    (ha : s.mem.WorksFor (fullBytes (s.pendingBits ++ pat2bits p n)).length) (hw : s.WriterOk) :
    bwbits p n s = .ok () (s.afterBits (pat2bits p n)) := by
  rw [bwbits_eq, writeBits_works ha hw]

/-- A write that fails in mid-pattern: the bytes filled before it are in the sink, and of its own byte what it landed
(R172, R63). -/
theorem writeBits_fails {bits : List Bool} {s : State} {j k : Nat} (ha : s.mem.FailsAfter j k) (hw : s.WriterOk)
    (hj : j < (fullBytes (s.pendingBits ++ bits)).length) :
    ∃ acc n d, writeBits bits s = .raised (takeError .io { s with
      bwAcc := acc, bwN := n, draws := d
      mem := s.mem.appended ((fullBytes (s.pendingBits ++ bits)).take j ++
        (((fullBytes (s.pendingBits ++ bits)).drop j).take 1).take k) (j + 1) }) := by
  induction bits generalizing s j with
  | nil =>
    rw [List.append_nil, fullBytes_of_lt (by rw [pendingBits_length]; exact s.bwN.isLt)] at hj
    cases hj
  | cons b bs ih =>
    rw [fullBytes_after] at hj ⊢
    rcases bwbit_split s b with ⟨h7, h1, _⟩ | ⟨h7, h1, _⟩ <;> rw [h1] at hj ⊢
    · obtain ⟨acc, n, d, h⟩ := ih (s := s.afterBits [b]) (ha.drop (a := 0) (by simp [State.afterBits, h1]) (Nat.zero_add j).symm)
        (afterBits_writerOk s _) hj
      refine ⟨acc, n, d, ?_⟩
      rw [writeBits, bwbit_works (by rw [h1]; exact fun i hi => absurd hi (Nat.not_lt_zero i)) hw, Res.bind_ok, h]
      simp [State.afterBits, h1]
    · cases j with
      | zero =>
        obtain ⟨n, d, h⟩ := bwbit_fails (b := b) ha.answer hw h7
        refine ⟨byteFrom (s.pendingBits ++ [b]), n, d, ?_⟩
        rw [writeBits, h, Res.bind_raised]
        simp [Memory.appended, Memory.append, Memory.answered]
      | succ j =>
        obtain ⟨acc, n, d, h⟩ := ih (s := s.afterBits [b]) (ha.drop (a := 1) (by simp [State.afterBits, h1, Memory.wrote]) (Nat.add_comm j 1))
          (afterBits_writerOk s _) (by simpa using hj)
        refine ⟨acc, n, d, ?_⟩
        rw [writeBits, bwbit_works (by rw [h1]; exact ha.1.drop (a := 0) rfl (by simp)) hw, Res.bind_ok, h]
        simp [State.afterBits, h1, Memory.appended, Memory.append, Memory.wrote, Nat.add_comm, Nat.add_assoc, Nat.add_left_comm]

/-- Writing a string of bits and flushing leaves `pack` of it in the sink (R176). -/
theorem bwflush_works {s : State} (hf : s.mem.NoFailure) (hw : s.WriterOk) :
    bwflush s = .ok () { s with bwAcc := 0, bwN := 0, mem := s.mem.wrote (pack s.pendingBits) } := by
  have hl : s.pendingBits.length < 8 := by rw [pendingBits_length]; exact s.bwN.isLt
  have hp := pack_eq s.pendingBits
  rw [fullBytes_of_lt hl, leftover_of_lt hl, List.nil_append] at hp
  by_cases h0 : s.bwN.val = 0
  · have hnil : s.pendingBits = [] := List.eq_nil_of_length_eq_zero (by rw [pendingBits_length, h0])
    have ha : s.bwAcc = 0 := by rw [bwAcc_eq hw, hnil]; rfl
    have hn : s.bwN = 0 := Fin.ext h0
    rw [hnil, if_pos rfl] at hp
    rw [hnil, hp, Memory.wrote_nil, bwflush, if_pos h0, ← ha, ← hn]
  · have hne : s.pendingBits ≠ [] := fun e => h0 (by rw [← pendingBits_length, e]; rfl)
    rw [if_neg hne, ← bwAcc_eq hw] at hp
    rw [hp, bwflush, if_neg h0, memWrite_works (Memory.answer_of_noFailure hf), Res.bind_ok]
    simp [Memory.wrote, Memory.append, Memory.answered]

/-- Flush after a string of bits: the sink has received `pack` of all that was pending and written (R176). -/
theorem pack_split (bs : List Bool) : pack bs = fullBytes bs ++ pack (leftover bs) := by
  have h : (leftover bs).length < 8 := by rw [leftover_length]; omega
  rw [pack_eq bs, pack_eq (leftover bs), fullBytes_of_lt h, leftover_of_lt h, List.nil_append]

/-- The bit written, at its place (R171). -/
theorem accWith_eq (acc : Byte) {n : Nat} (hn : n < 8) (b : Bool) : accWith acc n b = if b then acc ||| (0x80#8 >>> n) else acc := by
  cases b with
  | false => simp [accWith]
  | true =>
    rw [accWith, if_pos rfl]
    congr 1
    interval_cases n <;> rfl

/-- The first bit of a byte (R171, R174). -/
theorem bwbit_empty (b : Bool) {s : State} (hn : s.bwN = 0) (ha : s.bwAcc = 0) :
    bwbit b s = .ok () { s with bwAcc := if b then 0x80 else 0x00, bwN := 1 } := by
  have e : accWith 0 (0 : Fin 8).val b = if b then 0x80 else 0x00 := by cases b <;> rfl
  rw [bwbit, hn, ha, e]
  rfl

/-- `BWBIT` returns when no access fails, whatever the buffer holds. -/
theorem bwbit_next {s : State} (hf : s.mem.NoFailure) (b : Bool) : ∃ t, bwbit b s = .ok () t ∧ t.mem.NoFailure := by
  rw [bwbit]
  by_cases h : s.bwN.val < 7
  · exact ⟨{ s with bwAcc := accWith s.bwAcc s.bwN.val b, bwN := s.bwN + 1 }, by simp only [if_pos h], hf⟩
  · refine ⟨{ s with bwAcc := 0, bwN := 0, mem := s.mem.answered.append [accWith s.bwAcc s.bwN.val b] }, ?_, Memory.noFailure_tail hf rfl⟩
    simp only [if_neg h]
    rw [memWrite_works (s := { s with bwAcc := accWith s.bwAcc s.bwN.val b }) (Memory.answer_of_noFailure hf)]

end Sys2Proof.Machine
end

