-- ==== Sys2Proof/Laws/Tree.lean ====
section
/-! SUPPORT. `TBUILD` builds a tree: what the candidates stand for while it runs, and the tree at `ROOT` when it returns
(`41_tree_builder.md` rules R141 to R147). -/

namespace Sys2Proof.Machine

/-- The sum of the counts of a list of symbols. -/
def weightOf (freq : Table Count) (l : List Byte) : Nat := (l.map fun b => (Table.entry freq b).toNat).sum

theorem weightOf_append (freq : Table Count) (l m : List Byte) : weightOf freq (l ++ m) = weightOf freq l + weightOf freq m := by
  simp [weightOf]

theorem weightOf_perm {freq : Table Count} {l m : List Byte} (h : l.Perm m) : weightOf freq l = weightOf freq m :=
  (h.map _).sum_eq

theorem weightOf_le (freq : Table Count) (l : List Byte) : weightOf freq l ≤ l.length * 2 ^ 32 := by
  induction l with
  | nil => simp [weightOf]
  | cons b l ih =>
    have h1 : weightOf freq (b :: l) = (Table.entry freq b).toNat + weightOf freq l := by simp [weightOf]
    have h2 := (Table.entry freq b).isLt
    rw [h1, List.length_cons, Nat.add_mul]
    omega

/-- What a node in use is (R142, R146): a leaf with its symbol's count, or a merged node with the sum of its children's
frequencies, exact in 64 bits, the lower one on the left, made after both. -/
def GoodNode (freq : Table Count) (t : TreeRegs) (h : Handle) : Prop :=
  (∃ b, t.nodeAt h = .leaf b ((Table.entry freq b).setWidth 64) ∧ Table.entry freq b ≠ 0) ∨
    ∃ l r, t.nodeAt h = .internal (t.freqAt l + t.freqAt r) (some l) (some r) ∧ l.val < h.val ∧ r.val < h.val ∧
      t.freqAt l ≤ t.freqAt r ∧ (t.freqAt l).toNat + (t.freqAt r).toNat < 2 ^ 64

theorem GoodNode.extends {freq : Table Count} {t u : TreeRegs} (e : Extends t u) {h : Handle} (hh : h.val < t.cnt)
    (g : GoodNode freq t h) : GoodNode freq u h := by
  rcases g with ⟨b, hn, hb⟩ | ⟨l, r, hn, hl, hr, hle, hsum⟩
  · exact .inl ⟨b, (e.2 h hh).trans hn, hb⟩
  · have el : u.freqAt l = t.freqAt l := by rw [TreeRegs.freqAt, e.2 l (Nat.lt_trans hl hh), TreeRegs.freqAt]
    have er : u.freqAt r = t.freqAt r := by rw [TreeRegs.freqAt, e.2 r (Nat.lt_trans hr hh), TreeRegs.freqAt]
    exact .inr ⟨l, r, by rw [e.2 h hh, hn, el, er], hl, hr, by rw [el, er]; exact hle, by rw [el, er]; exact hsum⟩

/-- The children of a merged node are the first two of the candidates that waited when it was made, in that order
(R144, R146, D3). -/
def Chosen (t : TreeRegs) (h : Handle) : Prop :=
  ∃ f l r, t.nodeAt h = .internal f (some l) (some r) ∧ t.Waiting h l ∧ t.Waiting h r ∧ t.Before l r ∧
    ∀ g, t.Waiting h g → g = l ∨ g = r ∨ t.Before r g

theorem Chosen.extends {t u : TreeRegs} (e : Extends t u) {h : Handle} (hh : h.val < t.cnt) (c : Chosen t h) : Chosen u h := by
  obtain ⟨f, l, r, hn, hl, hr, hlr, hmin⟩ := c
  have hw : ∀ g, u.Waiting h g ↔ t.Waiting h g := fun g => e.waiting (Nat.le_of_lt hh)
  have hf : ∀ g, t.Waiting h g → u.freqAt g = t.freqAt g := fun g hg => e.freqAt (Nat.lt_trans hg.1 hh)
  refine ⟨f, l, r, (e.2 h hh).trans hn, (hw l).2 hl, (hw r).2 hr, (TreeRegs.before_congr (hf l hl) (hf r hr)).2 hlr, fun g hg => ?_⟩
  have hg := (hw g).1 hg
  exact (hmin g hg).imp_right (Or.imp_right (TreeRegs.before_congr (hf r hr) (hf g hg)).2)

/-- What the candidates stand for: each is the root of a tree in the arena, no deeper than it has leaves, whose frequency
is the sum of its symbols' counts; they are in order of frequency and age (R31). -/
structure Forest (freq : Table Count) (t : TreeRegs) (ps : List (Handle × Shape)) : Prop where
  handles : ps.map Prod.fst = t.pq
  rep : ∀ p ∈ ps, Rep t p.1 p.2
  shallow : ∀ p ∈ ps, p.2.depth < p.2.symbols.length
  weigh : ∀ p ∈ ps, (t.freqAt p.1).toNat = weightOf freq p.2.symbols
  sorted : t.pq.Pairwise t.Before
  good : ∀ h : Handle, h.val < t.cnt → GoodNode freq t h

theorem Forest.pq_used {freq : Table Count} {t : TreeRegs} {ps : List (Handle × Shape)} (F : Forest freq t ps) {h : Handle}
    (hh : h ∈ t.pq) : h.val < t.cnt := by
  rw [← F.handles, List.mem_map] at hh
  obtain ⟨p, hp, rfl⟩ := hh
  exact (F.rep p hp).used

/-- A new node put among the candidates. -/
theorem Forest.insert {freq : Table Count} {t : TreeRegs} {ps : List (Handle × Shape)} (F : Forest freq t ps)
    (hc : t.cnt < 511) (n : Node) {sh : Shape} (hrep : Rep (insertNode n t) (nextHandle t hc) sh)
    (hsh : sh.depth < sh.symbols.length) (hw : n.freq.toNat = weightOf freq sh.symbols)
    (hg : GoodNode freq (insertNode n t) (nextHandle t hc)) :
    ∃ qs, Forest freq (insertNode n t) qs ∧ qs.Perm ((nextHandle t hc, sh) :: ps) := by
  have e := extends_insertNode hc n
  have hpq := insertNode_pq hc n
  rw [insertByFreq_eq] at hpq
  obtain ⟨pre, post, hsplit, hpre, hpost⟩ : ∃ pre post, ps = pre ++ post ∧
      pre.map Prod.fst = t.pq.takeWhile (fun x => decide ((insertNode n t).freqAt x ≤ (insertNode n t).freqAt (nextHandle t hc))) ∧
      post.map Prod.fst = t.pq.dropWhile fun x => decide ((insertNode n t).freqAt x ≤ (insertNode n t).freqAt (nextHandle t hc)) := by
    apply List.map_eq_append_iff.1
    rw [List.takeWhile_append_dropWhile, F.handles]
  have hperm : (pre ++ (nextHandle t hc, sh) :: post).Perm ((nextHandle t hc, sh) :: ps) := by
    rw [hsplit]; exact List.perm_middle
  have hnew : (insertNode n t).freqAt (nextHandle t hc) = n.freq := by rw [TreeRegs.freqAt, insertNode_nodeAt_new]
  have hold : ∀ x ∈ t.pq, (insertNode n t).freqAt x = t.freqAt x := fun x hx => insertNode_freqAt_old hc n (F.pq_used hx)
  refine ⟨pre ++ (nextHandle t hc, sh) :: post, ⟨?_, ?_, ?_, ?_, ?_, ?_⟩, hperm⟩
  · rw [hpq, List.map_append, List.map_cons, hpre, hpost]
  · intro p hp
    rcases List.mem_cons.1 (hperm.mem_iff.1 hp) with rfl | hp
    · exact hrep
    · exact (F.rep p hp).extends e
  · intro p hp
    rcases List.mem_cons.1 (hperm.mem_iff.1 hp) with rfl | hp
    · exact hsh
    · exact F.shallow p hp
  · intro p hp
    rcases List.mem_cons.1 (hperm.mem_iff.1 hp) with rfl | hp
    · rw [hnew, hw]
    · rw [insertNode_freqAt_old hc n (F.rep p hp).used]
      exact F.weigh p hp
  · rw [insertNode_pq hc n]
    refine insertByFreq_before _ (F.sorted.imp_of_mem ?_) fun x hx => F.pq_used hx
    intro a b ha hb hab
    exact (TreeRegs.before_congr (hold a ha) (hold b hb)).2 hab
  · intro h hh
    rw [insertNode_cnt hc] at hh
    by_cases hx : h.val < t.cnt
    · exact (F.good h hx).extends e hx
    · have : h = nextHandle t hc := Fin.ext (show h.val = t.cnt by omega)
      rw [this]
      exact hg

/-! ### The leaves -/

/-- After the leaves of a list of symbols have been collected (R142). -/
structure Leaves (freq : Table Count) (l : List Byte) (t : TreeRegs) : Prop where
  forest : ∃ ps, Forest freq t ps ∧ (ps.flatMap fun p => p.2.symbols).Perm (l.filter fun b => decide (Table.entry freq b ≠ 0))
  count : t.cnt = (l.filter fun b => decide (Table.entry freq b ≠ 0)).length
  candidates : t.pq.length = t.cnt
  refs : (t.childRefs ++ t.pq).Perm (handlesBelow t.cnt)
  root : t.root = none
  leaf : ∀ (i : Nat) (_ : i < t.cnt) (hi' : i < (l.filter fun b => decide (Table.entry freq b ≠ 0)).length) (h : i < 511),
    t.nodeAt ⟨i, h⟩ = .leaf ((l.filter fun b => decide (Table.entry freq b ≠ 0))[i])
      ((Table.entry freq ((l.filter fun b => decide (Table.entry freq b ≠ 0))[i])).setWidth 64)

theorem leaves_start (freq : Table Count) (t : TreeRegs) : Leaves freq [] { t with cnt := 0, pq := [], root := none } where
  forest := ⟨[], ⟨rfl, by simp, by simp, by simp, by simp, by simp⟩, by simp⟩
  count := rfl
  candidates := rfl
  refs := by simp [childRefs_eq, handlesBelow_zero]
  root := rfl
  leaf := by simp

theorem addLeaf_leaves {freq : Table Count} {l : List Byte} {t : TreeRegs} (L : Leaves freq l t) (hl : l.length < 256)
    (b : Byte) : Leaves freq (l ++ [b]) (addLeaf freq t b) := by
  by_cases hb : Table.entry freq b = 0
  · have hf : (l ++ [b]).filter (fun b => decide (Table.entry freq b ≠ 0)) = l.filter fun b => decide (Table.entry freq b ≠ 0) := by
      simp [hb]
    rw [addLeaf, if_pos hb]
    exact ⟨hf ▸ L.forest, hf ▸ L.count, L.candidates, L.refs, L.root, hf ▸ L.leaf⟩
  · have hf : (l ++ [b]).filter (fun b => decide (Table.entry freq b ≠ 0)) =
        l.filter (fun b => decide (Table.entry freq b ≠ 0)) ++ [b] := by
      rw [List.filter_append, List.filter_cons_of_pos (p := fun b => decide (Table.entry freq b ≠ 0)) (decide_eq_true hb),
        List.filter_nil]
    have hcl : (l.filter fun b => decide (Table.entry freq b ≠ 0)).length ≤ l.length := List.length_filter_le _ _
    have hc : t.cnt < 511 := by rw [L.count]; omega
    obtain ⟨ps, F, hperm⟩ := L.forest
    have hnew := insertNode_nodeAt_new hc (.leaf b ((Table.entry freq b).setWidth 64))
    have hw : (Node.freq (.leaf b ((Table.entry freq b).setWidth 64))).toNat = weightOf freq (Shape.leaf b).symbols := by
      have := (Table.entry freq b).isLt
      simp [Node.freq, weightOf, Shape.symbols]
      omega
    obtain ⟨qs, G, hq⟩ := F.insert hc (.leaf b ((Table.entry freq b).setWidth 64)) (sh := .leaf b)
      (.leaf (by rw [insertNode_cnt hc]; exact Nat.lt_succ_self _) hnew) (by simp [Shape.depth, Shape.symbols]) hw
      (.inl ⟨b, hnew, hb⟩)
    rw [addLeaf, if_neg hb]
    refine ⟨⟨qs, G, ?_⟩, ?_, ?_, ?_, ?_, ?_⟩
    · rw [hf]
      refine (hq.flatMap_right _).trans ?_
      rw [List.flatMap_cons]
      exact (List.Perm.append_left _ hperm).trans (List.perm_append_comm)
    · rw [insertNode_cnt hc, hf, List.length_append, L.count]; rfl
    · rw [(insertNode_pq_perm hc _).length_eq, insertNode_cnt hc, List.length_cons, L.candidates]
    · rw [insertNode_childRefs hc, insertNode_cnt hc, handlesBelow_succ hc]
      have h1 := insertNode_pq_perm hc (.leaf b ((Table.entry freq b).setWidth 64))
      have hch : (Node.leaf b ((Table.entry freq b).setWidth 64)).children = [] := rfl
      rw [hch, List.append_nil]
      refine (List.Perm.append_left _ h1).trans ?_
      refine List.perm_middle.trans ?_
      refine (List.Perm.cons _ L.refs).trans ?_
      exact (List.perm_append_singleton _ _).symm
    · rw [insertNode_root, L.root]
    · intro i hi hi' h
      rw [insertNode_cnt hc] at hi
      simp only [hf] at hi' ⊢
      by_cases hx : i < t.cnt
      · have hx' : i < (l.filter fun b => decide (Table.entry freq b ≠ 0)).length := by rw [← L.count]; exact hx
        rw [insertNode_nodeAt_old hc _ (x := ⟨i, h⟩) hx, L.leaf i hx hx' h]
        simp only [List.getElem_append_left hx']
      · have hi : i = t.cnt := by omega
        subst hi
        have : (⟨t.cnt, h⟩ : Handle) = nextHandle t hc := rfl
        rw [this, hnew]
        have hg : (l.filter (fun b => decide (Table.entry freq b ≠ 0)) ++ [b])[t.cnt]'hi' = b := by
          rw [List.getElem_append_right (by rw [L.count])]
          simp
        rw [hg]

theorem collectLeaves_leaves (freq : Table Count) (t : TreeRegs) :
    Leaves freq symbols (collectLeaves freq { t with cnt := 0, pq := [], root := none }) := by
  have key : ∀ (todo seen : List Byte) (u : TreeRegs), (seen ++ todo).length ≤ 256 → Leaves freq seen u →
      Leaves freq (seen ++ todo) (todo.foldl (addLeaf freq) u) := by
    intro todo
    induction todo with
    | nil => intro seen u _ L; simpa using L
    | cons b todo ih =>
      intro seen u hlen L
      rw [List.foldl_cons]
      have := ih (seen ++ [b]) (addLeaf freq u b) (by simpa using hlen) (addLeaf_leaves L (by simp at hlen; omega) b)
      simpa using this
  exact key symbols [] _ (by rw [List.nil_append, symbols_length]) (leaves_start freq t)

/-! ### The merges -/

/-- While `k` leaves are merged: `cnt + |PQ| = 2k` (R146). -/
structure Merging (freq : Table Count) (syms : List Byte) (t : TreeRegs) : Prop where
  forest : ∃ ps, Forest freq t ps ∧ (ps.flatMap fun p => p.2.symbols).Perm syms
  count : t.cnt + t.pq.length = 2 * syms.length
  refs : (t.childRefs ++ t.pq).Perm (handlesBelow t.cnt)
  chosen : ∀ h : Handle, syms.length ≤ h.val → h.val < t.cnt → Chosen t h

/-- The candidates are the handles in use that no node names. -/
theorem mem_candidates {t : TreeRegs} (h : (t.childRefs ++ t.pq).Perm (handlesBelow t.cnt)) (g : Handle) :
    g ∈ t.pq ↔ g.val < t.cnt ∧ g ∉ t.childRefs := by
  have hmem : g ∈ t.childRefs ++ t.pq ↔ g.val < t.cnt := h.mem_iff.trans mem_handlesBelow
  have hd := (List.nodup_append.1 (h.nodup_iff.2 (handlesBelow_nodup _))).2.2
  rw [List.mem_append] at hmem
  constructor
  · exact fun hg => ⟨hmem.1 (.inr hg), fun hc => hd g hc g hg rfl⟩
  · exact fun hg => (hmem.2 hg.1).resolve_left hg.2

theorem merge_step {freq : Table Count} {syms : List Byte} {t : TreeRegs} (M : Merging freq syms t) (hs : syms.length ≤ 256)
    {a b : Handle} {pq : List Handle} (hpq : t.pq = a :: b :: pq) :
    Merging freq syms (insertNode (.internal (t.freqAt a + t.freqAt b) (some a) (some b)) { t with pq := pq }) ∧
      t.cnt < 511 := by
  obtain ⟨ps, F, hperm⟩ := M.forest
  have hcount := M.count
  rw [hpq] at hcount
  simp only [List.length_cons] at hcount
  have hc : t.cnt < 511 := by omega
  have hh := F.handles
  rw [hpq] at hh
  obtain ⟨⟨a', sa⟩, ps1, rfl, rfl, hh1⟩ := List.map_eq_cons_iff.1 hh
  obtain ⟨⟨b', sb⟩, ps2, rfl, rfl, hh2⟩ := List.map_eq_cons_iff.1 hh1
  have hra := F.rep (a', sa) (by simp)
  have hrb := F.rep (b', sb) (by simp)
  have hsorted := F.sorted
  rw [hpq, List.pairwise_cons, List.pairwise_cons] at hsorted
  let u : TreeRegs := { t with pq := pq }
  have huc : u.cnt < 511 := hc
  let n : Node := .internal (t.freqAt a' + t.freqAt b') (some a') (some b')
  have hn := insertNode_nodeAt_new huc n
  have hext : Extends t (insertNode n u) := ⟨by rw [insertNode_cnt huc]; exact Nat.le_succ _, fun x hx => by
    rw [insertNode_nodeAt_old huc n hx]; rfl⟩
  have Fu : Forest freq u ps2 :=
    { handles := hh2
      rep := fun p hp => Rep.congr (t := t) (u := u) rfl rfl (F.rep p (by simp [hp]))
      shallow := fun p hp => F.shallow p (by simp [hp])
      weigh := fun p hp => F.weigh p (by simp [hp])
      sorted := hsorted.2.2
      good := F.good }
  have hsub : (sa.symbols ++ sb.symbols).length ≤ syms.length := by
    rw [← hperm.length_eq]
    simp
  have hwa : (t.freqAt a').toNat = weightOf freq sa.symbols := F.weigh (a', sa) (by simp)
  have hwb : (t.freqAt b').toNat = weightOf freq sb.symbols := F.weigh (b', sb) (by simp)
  have hlt : (t.freqAt a').toNat + (t.freqAt b').toNat < 2 ^ 64 := by
    have hle := weightOf_le freq (sa.symbols ++ sb.symbols)
    rw [hwa, hwb, ← weightOf_append]
    have : (sa.symbols ++ sb.symbols).length * 2 ^ 32 ≤ 256 * 2 ^ 32 := Nat.mul_le_mul_right _ (by omega)
    omega
  have hsum : (t.freqAt a' + t.freqAt b').toNat = weightOf freq (sa.symbols ++ sb.symbols) := by
    rw [BitVec.toNat_add, Nat.mod_eq_of_lt hlt, hwa, hwb, ← weightOf_append]
  have hfa : (insertNode n u).freqAt a' = t.freqAt a' := insertNode_freqAt_old huc n hra.used
  have hfb : (insertNode n u).freqAt b' = t.freqAt b' := insertNode_freqAt_old huc n hrb.used
  obtain ⟨qs, G, hq⟩ := Fu.insert huc n (sh := .two sa sb)
    (.two (by rw [insertNode_cnt huc]; exact Nat.lt_succ_self _) hn (hra.extends hext) (hrb.extends hext))
    (by
      have h1 := F.shallow (a', sa) (by simp)
      have h2 := F.shallow (b', sb) (by simp)
      simp only [Shape.depth, Shape.symbols, List.length_append] at h1 h2 ⊢
      omega)
    hsum
    (.inr ⟨a', b', by rw [hn, hfa, hfb], hra.used, hrb.used, by rw [hfa, hfb]; exact (hsorted.1 b' (by simp)).le, by rw [hfa, hfb]; exact hlt⟩)
  refine ⟨⟨⟨qs, G, ?_⟩, ?_, ?_, ?_⟩, hc⟩
  · refine (hq.flatMap_right _).trans ?_
    refine List.Perm.trans ?_ hperm
    simp [Shape.symbols, List.append_assoc]
  · rw [insertNode_cnt huc, (insertNode_pq_perm huc n).length_eq, List.length_cons]
    have : t.cnt + 1 + (pq.length + 1) = 2 * syms.length := by omega
    exact this
  · rw [insertNode_childRefs huc, insertNode_cnt huc, handlesBelow_succ huc]
    have hu : u.childRefs = t.childRefs := rfl
    have h1 := insertNode_pq_perm huc n
    have hrefs := M.refs
    rw [hpq] at hrefs
    rw [hu]
    refine (List.Perm.append_left _ h1).trans ?_
    refine List.perm_middle.trans ?_
    refine List.Perm.trans (List.Perm.cons _ ?_) (List.perm_append_singleton _ _).symm
    refine List.Perm.trans ?_ hrefs
    simp [Node.children, u]
  · intro h hk hh
    rw [insertNode_cnt huc] at hh
    by_cases hx : h.val < t.cnt
    · exact (M.chosen h hk hx).extends hext hx
    · have hv : h.val = t.cnt := by have h' : h.val < t.cnt + 1 := hh; omega
      obtain rfl : h = nextHandle u huc := Fin.ext hv
      have hw : ∀ g, (insertNode n u).Waiting (nextHandle u huc) g ↔ g ∈ t.pq := fun g =>
        (hext.waiting (Nat.le_of_eq hv)).trans ((waiting_next hv).trans (mem_candidates M.refs g).symm)
      have hfreq : ∀ g ∈ t.pq, (insertNode n u).freqAt g = t.freqAt g := fun g hg => hext.freqAt (F.pq_used hg)
      have ha : a' ∈ t.pq := by rw [hpq]; simp
      have hb : b' ∈ t.pq := by rw [hpq]; simp
      refine ⟨_, a', b', hn, (hw a').2 ha, (hw b').2 hb,
        (TreeRegs.before_congr (hfreq a' ha) (hfreq b' hb)).2 (hsorted.1 b' (by simp)), fun g hg => ?_⟩
      have hg := (hw g).1 hg
      have hg' := hg
      rw [hpq, List.mem_cons, List.mem_cons] at hg'
      exact hg'.imp_right (Or.imp_right fun h => (TreeRegs.before_congr (hfreq b' hb) (hfreq g hg)).2 (hsorted.2.1 g h))

theorem mergeLoop_spec {freq : Table Count} {syms : List Byte} (hs : syms.length ≤ 256) (fuel : Nat) {t : TreeRegs}
    (M : Merging freq syms t) (hne : t.pq ≠ []) (hf : t.pq.length ≤ fuel + 1) :
    Merging freq syms (mergeLoop fuel t) ∧ Extends t (mergeLoop fuel t) ∧ ∃ r, (mergeLoop fuel t).pq = [r] := by
  induction fuel generalizing t with
  | zero =>
    refine ⟨M, Extends.refl t, ?_⟩
    rcases hpq : t.pq with _ | ⟨r, _ | ⟨b, pq⟩⟩
    · exact absurd hpq hne
    · exact ⟨r, hpq⟩
    · rw [hpq] at hf; simp at hf
  | succ fuel ih =>
    rcases hpq : t.pq with _ | ⟨a, _ | ⟨b, pq⟩⟩
    · exact absurd hpq hne
    · have : mergeLoop (fuel + 1) t = t := by rw [mergeLoop.eq_def]; simp only [hpq]
      rw [this]
      exact ⟨M, Extends.refl t, a, hpq⟩
    · have heq : mergeLoop (fuel + 1) t =
          mergeLoop fuel (insertNode (.internal (t.freqAt a + t.freqAt b) (some a) (some b)) { t with pq := pq }) := by
        rw [mergeLoop.eq_def]
        simp only [hpq]
      obtain ⟨M', hc⟩ := merge_step M hs hpq
      have hp := insertNode_pq_perm (t := { t with pq := pq }) hc (.internal (t.freqAt a + t.freqAt b) (some a) (some b))
      rw [heq]
      obtain ⟨h1, h2, h3⟩ := ih M' (by intro e; rw [e] at hp; exact absurd hp.length_eq (by simp))
        (by rw [hp.length_eq]; rw [hpq] at hf; simp only [List.length_cons] at hf ⊢; omega)
      refine ⟨h1, Extends.trans ?_ h2, h3⟩
      refine ⟨by rw [insertNode_cnt (t := { t with pq := pq }) hc]; exact Nat.le_succ _, fun x hx => ?_⟩
      rw [insertNode_nodeAt_old (t := { t with pq := pq }) hc _ hx]
      rfl

/-! ### `TBUILD` -/

theorem usedSymbols_length_le (freq : Table Count) : (usedSymbols freq).length ≤ 256 := by
  rw [← symbols_length]
  exact List.length_filter_le _ _

theorem usedSymbols_nodup (freq : Table Count) : (usedSymbols freq).Nodup := symbols_nodup.filter _

theorem mem_usedSymbols {freq : Table Count} {b : Byte} : b ∈ usedSymbols freq ↔ Table.entry freq b ≠ 0 := by
  simp [usedSymbols, mem_symbols]

/-- No symbol: the sentinel (R141, R147). -/
theorem buildTree_none {freq : Table Count} (h : usedSymbols freq = []) (t : TreeRegs) :
    buildTree freq t = { t with cnt := 0, pq := [], root := none } := by
  have key : ∀ (l : List Byte) (u : TreeRegs), (∀ b ∈ l, Table.entry freq b = 0) → l.foldl (addLeaf freq) u = u := by
    intro l
    induction l with
    | nil => intro u _; rfl
    | cons b l ih =>
      intro u hl
      rw [List.foldl_cons, addLeaf, if_pos (hl b (by simp))]
      exact ih u fun c hc => hl c (by simp [hc])
  have h0 : ∀ b ∈ symbols, Table.entry freq b = 0 := by
    intro b _
    by_contra hb
    have : b ∈ usedSymbols freq := mem_usedSymbols.2 hb
    rw [h] at this
    cases this
  rw [buildTree, collectLeaves, key symbols _ h0, makeRoot]

/-- One symbol: the leaf and the synthetic root over it (R145). -/
theorem buildTree_one {freq : Table Count} {b : Byte} (h : usedSymbols freq = [b]) (t : TreeRegs) :
    (buildTree freq t).cnt = 2 ∧ (buildTree freq t).root = some 1 ∧ (buildTree freq t).pq = [] ∧
      (buildTree freq t).nodeAt 0 = .leaf b ((Table.entry freq b).setWidth 64) ∧
      (buildTree freq t).nodeAt 1 = .internal ((Table.entry freq b).setWidth 64) (some 0) none := by
  have L := collectLeaves_leaves freq t
  have hcount : (collectLeaves freq { t with cnt := 0, pq := [], root := none }).cnt = 1 := by
    rw [L.count]
    show (usedSymbols freq).length = 1
    rw [h]; rfl
  have hleaf := L.leaf 0 (by rw [hcount]; omega) (by rw [← L.count, hcount]; omega) (by omega)
  have hb : (symbols.filter fun b => decide (Table.entry freq b ≠ 0)) = [b] := h
  simp only [hb, List.getElem_cons_zero] at hleaf
  have hpq : (collectLeaves freq { t with cnt := 0, pq := [], root := none }).pq = [0] := by
    have hlen := L.candidates
    rw [hcount] at hlen
    obtain ⟨x, hx⟩ := List.length_eq_one_iff.1 hlen
    obtain ⟨ps, F, _⟩ := L.forest
    have := F.pq_used (h := x) (by rw [hx]; simp)
    rw [hcount] at this
    rw [hx]
    congr 1
    exact Fin.ext (show x.val = 0 by omega)
  rw [buildTree]
  generalize collectLeaves freq { t with cnt := 0, pq := [], root := none } = u at *
  have hc : ({ u with pq := [] } : TreeRegs).cnt < 511 := by show u.cnt < 511; omega
  have hfreq : u.freqAt 0 = (Table.entry freq b).setWidth 64 := by
    rw [TreeRegs.freqAt, show (0 : Handle) = ⟨0, by omega⟩ from rfl, hleaf]
    rfl
  have heq : makeRoot u = { u with
      pq := []
      node := u.node.set u.cnt (.internal ((Table.entry freq b).setWidth 64) (some 0) none) hc
      cnt := u.cnt + 1
      root := some (nextHandle { u with pq := [] } hc) } := by
    simp only [makeRoot, hpq, newNode_eq hc, hfreq]
  rw [heq]
  refine ⟨by simp [hcount], ?_, rfl, ?_, ?_⟩
  · exact congrArg some (Fin.ext hcount)
  · have : u.nodeAt 0 = .leaf b ((Table.entry freq b).setWidth 64) := hleaf
    simp only [TreeRegs.nodeAt, Vector.get_eq_getElem] at this ⊢
    rw [Vector.getElem_set_ne _ _ (by simp [hcount])]
    exact this
  · simp [TreeRegs.nodeAt, Vector.get_eq_getElem, hcount]

/-- Two symbols or more: everything rules R146 and R147 say of the tree. -/
structure FullTree (freq : Table Count) (t : TreeRegs) : Prop where
  pq : t.pq = []
  count : t.cnt = 2 * (usedSymbols freq).length - 1
  root : ∃ r : Handle, t.root = some r ∧ r.val = 2 * (usedSymbols freq).length - 2 ∧
    (t.freqAt r).toNat = weightOf freq symbols ∧
    ∃ sh, Rep t r sh ∧ sh.isInternal = true ∧ sh.depth < sh.symbols.length ∧ sh.symbols.Perm (usedSymbols freq)
  refs : (t.childRefs ++ t.root.toList).Perm (handlesBelow t.cnt)
  good : ∀ h : Handle, h.val < t.cnt → GoodNode freq t h
  chosen : ∀ h : Handle, (usedSymbols freq).length ≤ h.val → h.val < t.cnt → Chosen t h
  leaf : ∀ (i : Nat) (hi : i < (usedSymbols freq).length) (h : i < 511),
    t.nodeAt ⟨i, h⟩ = .leaf ((usedSymbols freq)[i]) ((Table.entry freq ((usedSymbols freq)[i])).setWidth 64)

theorem weightOf_symbols (freq : Table Count) : weightOf freq (usedSymbols freq) = weightOf freq symbols := by
  have key : ∀ l : List Byte, weightOf freq (l.filter fun b => decide (Table.entry freq b ≠ 0)) = weightOf freq l := by
    intro l
    induction l with
    | nil => rfl
    | cons b l ih =>
      have hc : weightOf freq (b :: l) = (Table.entry freq b).toNat + weightOf freq l := by simp [weightOf]
      by_cases hb : Table.entry freq b = 0
      · rw [List.filter_cons_of_neg (by simpa using hb), ih, hc, hb]
        simp
      · rw [List.filter_cons_of_pos (p := fun b => decide (Table.entry freq b ≠ 0)) (decide_eq_true hb), hc, ← ih]
        simp [weightOf]
  exact key symbols

theorem buildTree_full {freq : Table Count} (h : 2 ≤ (usedSymbols freq).length) (t : TreeRegs) :
    FullTree freq (buildTree freq t) := by
  have L := collectLeaves_leaves freq t
  have hlen := usedSymbols_length_le freq
  rw [buildTree]
  generalize collectLeaves freq { t with cnt := 0, pq := [], root := none } = u at *
  have hcount : u.cnt = (usedSymbols freq).length := L.count
  have M : Merging freq (usedSymbols freq) u :=
    ⟨L.forest, by rw [L.candidates, hcount]; omega, L.refs, fun h h1 h2 => by omega⟩
  have hpq2 : 2 ≤ u.pq.length := by rw [L.candidates, hcount]; exact h
  match hu : u.pq, hpq2 with
  | a :: b :: pq, _ =>
    have heq : makeRoot u =
        { mergeLoop u.pq.length u with root := (mergeLoop u.pq.length u).pq.head?, pq := [] } := by
      rw [makeRoot.eq_def]
      simp only [hu]
    obtain ⟨M', E, r, hr⟩ := mergeLoop_spec hlen u.pq.length M (by rw [hu]; simp) (Nat.le_succ _)
    rw [heq, hr]
    generalize mergeLoop u.pq.length u = v at *
    show FullTree freq { v with root := some r, pq := [] }
    obtain ⟨ps, F, hperm⟩ := M'.forest
    have hc := M'.count
    rw [hr] at hc
    simp only [List.length_singleton] at hc
    have hh := F.handles
    rw [hr] at hh
    obtain ⟨⟨r', sh⟩, ps1, rfl, rfl, hh1⟩ := List.map_eq_cons_iff.1 hh
    obtain rfl : ps1 = [] := List.map_eq_nil_iff.1 hh1
    simp only [List.flatMap_cons, List.flatMap_nil, List.append_nil] at hperm
    have hrep := F.rep (r', sh) (by simp)
    have hrefs := M'.refs
    rw [hr] at hrefs
    have hmem : ∀ x : Handle, x.val < v.cnt → x = r' ∨ x ∈ v.childRefs := by
      intro x hx
      have := hrefs.symm.mem_iff.1 (mem_handlesBelow.2 hx)
      simp only [List.mem_append, List.mem_singleton] at this
      exact this.symm
    have hnotin : r' ∉ v.childRefs := by
      have hnd : (v.childRefs ++ [r']).Nodup := hrefs.nodup_iff.2 (handlesBelow_nodup _)
      intro hin
      exact (List.nodup_append.1 hnd).2.2 r' hin r' (by simp) rfl
    have hchild : ∀ x ∈ v.childRefs, x.val + 1 < v.cnt := by
      intro x hx
      rw [childRefs_eq, List.mem_flatMap] at hx
      obtain ⟨y, hy, hxy⟩ := hx
      rw [mem_handlesBelow] at hy
      rcases F.good y hy with ⟨c, hn, _⟩ | ⟨l, r, hn, hl, hr', _⟩
      · rw [hn] at hxy; cases hxy
      · rw [hn] at hxy
        simp only [Node.children, Option.toList_some, List.mem_append, List.mem_singleton] at hxy
        rcases hxy with rfl | rfl <;> omega
    have hroot : r'.val = 2 * (usedSymbols freq).length - 2 := by
      have h511 : v.cnt - 1 < 511 := by omega
      rcases hmem ⟨v.cnt - 1, h511⟩ (show v.cnt - 1 < v.cnt by omega) with he | he
      · rw [← he]; show v.cnt - 1 = _; omega
      · have := hchild _ he
        simp only at this
        omega
    have hdepth := F.shallow (r', sh) (by simp)
    refine ⟨rfl, by show v.cnt = _; omega, ⟨r', rfl, hroot, ?_, sh, Rep.congr (t := v) (u := { v with root := some r', pq := [] }) rfl rfl hrep, ?_, hdepth, hperm⟩, ?_, F.good, M'.chosen, ?_⟩
    · have hw := F.weigh (r', sh) (by simp)
      rw [weightOf_perm hperm, weightOf_symbols] at hw
      exact hw
    · cases sh with
      | leaf b =>
        have := hperm.length_eq
        simp [Shape.symbols] at this
        omega
      | one l => rfl
      | two l r => rfl
    · exact hrefs
    · intro i hi h511
      have hi' : i < u.cnt := by rw [hcount]; exact hi
      have h1 := L.leaf i hi' hi h511
      have h2 := E.2 ⟨i, h511⟩ hi'
      exact h2.trans h1

/-- The tree registers after `TBUILD` are in order (R25, R27, R29, R30), and the tree's leaves are the symbols with a
nonzero count. -/
theorem buildTree_ok (freq : Table Count) (t : TreeRegs) :
    (buildTree freq t).Ok ∧
      ∀ r, (buildTree freq t).root = some r → ∃ sh, Rep (buildTree freq t) r sh ∧ sh.isInternal = true ∧
        sh.depth ≤ Config.codeLenMax ∧ sh.symbols.Perm (usedSymbols freq) := by
  have hlen := usedSymbols_length_le freq
  have hcases : usedSymbols freq = [] ∨ (∃ b, usedSymbols freq = [b]) ∨ 2 ≤ (usedSymbols freq).length := by
    match h : usedSymbols freq with
    | [] => exact .inl rfl
    | [b] => exact .inr (.inl ⟨b, rfl⟩)
    | _ :: _ :: _ => exact .inr (.inr (by simp))
  have key : (buildTree freq t).pq = [] ∧ (buildTree freq t).cnt ≤ 511 ∧
      ∀ r, (buildTree freq t).root = some r → ∃ sh, Rep (buildTree freq t) r sh ∧ sh.isInternal = true ∧
        sh.depth ≤ Config.codeLenMax ∧ sh.symbols.Perm (usedSymbols freq) := by
    rcases hcases with h | ⟨b, h⟩ | h
    · rw [buildTree_none h]
      exact ⟨rfl, Nat.zero_le _, fun r hr => by cases hr⟩
    · obtain ⟨hc, hr, hp, h0, h1⟩ := buildTree_one h t
      refine ⟨hp, by rw [hc]; omega, fun r hr' => ?_⟩
      rw [hr] at hr'
      cases hr'
      exact ⟨.one (.leaf b), .one (by rw [hc]; decide) h1 (.leaf (by rw [hc]; decide) h0), rfl, (by show 0 + 1 ≤ 255; omega),
        by rw [h]; exact List.Perm.refl _⟩
    · have T := buildTree_full h t
      obtain ⟨r, hr, _, _, sh, hrep, hi, hd, hp⟩ := T.root
      refine ⟨T.pq, by rw [T.count]; omega, fun r' hr' => ?_⟩
      rw [hr] at hr'
      cases hr'
      refine ⟨sh, hrep, hi, ?_, hp⟩
      have := hp.length_eq
      show sh.depth ≤ 255
      omega
  refine ⟨⟨key.1, key.2.1, fun r hr => ?_⟩, key.2.2⟩
  obtain ⟨sh, h1, h2, h3, h4⟩ := key.2.2 r hr
  exact ⟨sh, h1, h2, h3, h4.nodup_iff.2 (usedSymbols_nodup freq)⟩

/-- `ROOT = NONE` exactly when every count is zero (R29, R147). -/
theorem buildTree_root_none (freq : Table Count) (t : TreeRegs) :
    (buildTree freq t).root = none ↔ ∀ b, Table.entry freq b = 0 := by
  constructor
  · intro h b
    by_contra hb
    have hm : b ∈ usedSymbols freq := mem_usedSymbols.2 hb
    match hu : usedSymbols freq with
    | [] => rw [hu] at hm; cases hm
    | [c] => rw [(buildTree_one hu t).2.1] at h; cases h
    | x :: y :: l =>
      obtain ⟨r, hr, _⟩ := (buildTree_full (freq := freq) (by rw [hu]; simp) t).root
      rw [hr] at h
      cases h
  · intro h
    have : usedSymbols freq = [] := by
      rw [List.eq_nil_iff_forall_not_mem]
      intro b hb
      exact mem_usedSymbols.1 hb (h b)
    rw [buildTree_none this]

end Sys2Proof.Machine
end

