-- ==== Sys2Proof/Laws/Codes.lean ====
section
/-! SUPPORT. `CDERIVE` records the paths of the tree (`42_code_table_deriver.md`), and no path is a prefix of another
(`48_properties.md` rule R239). -/

namespace Sys2Proof.Machine

/-! ### Paths of a shape -/

theorem Shape.paths_symbols (sh : Shape) : sh.paths.map Prod.fst = sh.symbols := by
  induction sh with
  | leaf b => rfl
  | one l ih => simpa [Shape.paths, Shape.symbols, Function.comp_def] using ih
  | two l r ihl ihr => simpa [Shape.paths, Shape.symbols, Function.comp_def] using congrArg₂ (· ++ ·) ihl ihr

theorem Shape.paths_length {sh : Shape} {x : Byte × List Bool} (h : x ∈ sh.paths) : x.2.length ≤ sh.depth := by
  induction sh generalizing x with
  | leaf b => simp [Shape.paths] at h; simp [h]
  | one l ih =>
    simp only [Shape.paths, List.mem_map] at h
    obtain ⟨y, hy, rfl⟩ := h
    have := ih hy
    simp only [Shape.depth, List.length_cons]
    omega
  | two l r ihl ihr =>
    simp only [Shape.paths, List.mem_append, List.mem_map] at h
    rcases h with ⟨y, hy, rfl⟩ | ⟨y, hy, rfl⟩
    · have := ihl hy
      simp only [Shape.depth, List.length_cons]
      omega
    · have := ihr hy
      simp only [Shape.depth, List.length_cons]
      omega

/-- Below an internal node every leaf is at least one edge away (R147). -/
theorem Shape.paths_ne_nil {sh : Shape} (hi : sh.isInternal = true) {x : Byte × List Bool} (h : x ∈ sh.paths) : x.2 ≠ [] := by
  cases sh with
  | leaf b => cases hi
  | one l =>
    simp only [Shape.paths, List.mem_map] at h
    obtain ⟨y, _, rfl⟩ := h
    simp
  | two l r =>
    simp only [Shape.paths, List.mem_append, List.mem_map] at h
    rcases h with ⟨y, _, rfl⟩ | ⟨y, _, rfl⟩ <;> simp

/-- No leaf lies on the path to another leaf (R97). -/
theorem Shape.paths_prefix {sh : Shape} {x y : Byte × List Bool} (hx : x ∈ sh.paths) (hy : y ∈ sh.paths) (h : x.2 <+: y.2) :
    x = y := by
  induction sh generalizing x y with
  | leaf b => simp [Shape.paths] at hx hy; rw [hx, hy]
  | one l ih =>
    simp only [Shape.paths, List.mem_map] at hx hy
    obtain ⟨x', hx', rfl⟩ := hx
    obtain ⟨y', hy', rfl⟩ := hy
    simp only [List.cons_prefix_cons, true_and] at h
    rw [ih hx' hy' h]
  | two l r ihl ihr =>
    simp only [Shape.paths, List.mem_append, List.mem_map] at hx hy
    rcases hx with ⟨x', hx', rfl⟩ | ⟨x', hx', rfl⟩ <;> rcases hy with ⟨y', hy', rfl⟩ | ⟨y', hy', rfl⟩
    · simp only [List.cons_prefix_cons, true_and] at h
      rw [ihl hx' hy' h]
    · simp [List.cons_prefix_cons] at h
    · simp [List.cons_prefix_cons] at h
    · simp only [List.cons_prefix_cons, true_and] at h
      rw [ihr hx' hy' h]

theorem Shape.exists_path {sh : Shape} {b : Byte} (h : b ∈ sh.symbols) : ∃ p, (b, p) ∈ sh.paths := by
  rw [← sh.paths_symbols, List.mem_map] at h
  obtain ⟨⟨b', p⟩, hx, rfl⟩ := h
  exact ⟨p, hx⟩

theorem Shape.mem_symbols_of_path {sh : Shape} {b : Byte} {p : List Bool} (h : (b, p) ∈ sh.paths) : b ∈ sh.symbols := by
  rw [← sh.paths_symbols]
  exact List.mem_map_of_mem (f := Prod.fst) h

/-! ### Patterns and paths -/

theorem growPath_zero (q : Pattern) (b : Bool) : (growPath q b).getLsbD 0 = b := by
  cases b <;> simp [growPath]

theorem growPath_succ (q : Pattern) (b : Bool) {i : Nat} (hi : i + 1 < 255) : (growPath q b).getLsbD (i + 1) = q.getLsbD i := by
  rw [growPath, BitVec.getLsbD_or, BitVec.getLsbD_shiftLeft, BitVec.getLsbD_setWidth]
  have h1 : (BitVec.ofBool b).getLsbD (i + 1) = false := BitVec.getLsbD_of_ge _ _ (by omega)
  simp only [h1, Bool.and_false, Bool.or_false, hi, decide_true, Bool.true_and, Nat.add_sub_cancel]
  simp

theorem pat2bits_growPath (q : Pattern) (b : Bool) {n : Nat} (hn : n < 255) :
    pat2bits (growPath q b) (n + 1) = pat2bits q n ++ [b] := by
  induction n with
  | zero =>
    show [(growPath q b).getLsbD 0] = [b]
    rw [growPath_zero]
  | succ n ih =>
    rw [pat2bits, ih (by omega), growPath_succ q b hn, pat2bits, List.cons_append]

/-- The pattern grown along a path is the path (R101, R102). -/
theorem pat2bits_path (q : Pattern) (p : List Bool) (hp : p.length ≤ 255) : pat2bits (p.foldl growPath q) p.length = p := by
  induction p using List.reverseRecOn with
  | nil => rfl
  | append_singleton p b ih =>
    simp only [List.length_append, List.length_singleton] at hp ⊢
    rw [List.foldl_append, List.foldl_cons, List.foldl_nil, pat2bits_growPath _ _ (by omega), ih (by omega)]

/-- A path's pattern as a number: its bits read as binary digits (R101, R102). -/
theorem growPath_toNat (p : List Bool) (hp : p.length ≤ 255) :
    (p.foldl growPath 0).toNat = p.foldl (fun n x => 2 * n + x.toNat) 0 ∧ (p.foldl growPath 0).toNat < 2 ^ p.length := by
  induction p using List.reverseRecOn with
  | nil => exact ⟨rfl, by decide⟩
  | append_singleton p b ih =>
    simp only [List.length_append, List.length_singleton] at hp
    obtain ⟨h1, h2⟩ := ih (by omega)
    rw [List.foldl_append, List.foldl_cons, List.foldl_nil, List.foldl_append, List.foldl_cons, List.foldl_nil, ← h1]
    have h3 : 2 ^ (p.length + 1) ≤ 2 ^ 255 := Nat.pow_le_pow_right (by decide) hp
    have h4 : (growPath (p.foldl growPath 0) b).toNat = 2 * (p.foldl growPath 0).toNat + b.toNat := by
      rw [growPath, BitVec.toNat_or, BitVec.toNat_shiftLeft, Nat.shiftLeft_eq, Nat.pow_one, Nat.mul_comm]
      rw [Nat.mod_eq_of_lt (by rw [Nat.pow_succ] at h3; omega)]
      have hb : (BitVec.setWidth 255 (BitVec.ofBool b)).toNat = b.toNat := by cases b <;> rfl
      rw [hb, ← Nat.two_pow_add_eq_or_of_lt (i := 1) (by cases b <;> decide), Nat.pow_one]
    have hb : b.toNat < 2 := by cases b <;> decide
    refine ⟨h4, ?_⟩
    rw [h4, List.length_append, List.length_singleton, Nat.pow_succ]
    omega

/-! ### Recording -/

/-- Entries recorded for a list of paths, below a node reached by `path` and `len` (R161). -/
def recordAll (ps : List (Byte × List Bool)) (path : Pattern) (len : CodeLen) (c : CodeTable) : CodeTable :=
  ps.foldl (fun c x => c.record x.1 (x.2.foldl growPath path) (len + BitVec.ofNat 8 x.2.length)) c

theorem recordAll_append (ps qs : List (Byte × List Bool)) (path : Pattern) (len : CodeLen) (c : CodeTable) :
    recordAll (ps ++ qs) path len c = recordAll qs path len (recordAll ps path len c) := by
  simp [recordAll]

theorem recordAll_cons_edge (ps : List (Byte × List Bool)) (b : Bool) (path : Pattern) (len : CodeLen) (c : CodeTable) :
    recordAll (ps.map fun x => (x.1, b :: x.2)) path len c = recordAll ps (growPath path b) (len + 1) c := by
  induction ps generalizing c with
  | nil => rfl
  | cons x ps ih =>
    have h : len + BitVec.ofNat 8 (x.2.length + 1) = len + 1 + BitVec.ofNat 8 x.2.length := by
      rw [Nat.add_comm, BitVec.ofNat_add, BitVec.add_assoc]
      rfl
    simp only [recordAll, List.map_cons, List.foldl_cons, List.length_cons, h] at ih ⊢
    exact ih _

/-- `Visit` on a node below which the arena holds a tree records that tree's paths (R161). -/
theorem visit_rep {t : TreeRegs} {h : Handle} {sh : Shape} (r : Rep t h sh) (fuel : Nat) (hf : sh.depth < fuel) (path : Pattern)
    (len : CodeLen) (c : CodeTable) : visit t fuel h path len c = some (recordAll sh.paths path len c) := by
  induction r generalizing fuel path len c with
  | leaf used node =>
    obtain ⟨fuel, rfl⟩ : ∃ k, fuel = k + 1 := ⟨fuel - 1, by omega⟩
    rw [visit, node]
    simp [recordAll, Shape.paths]
  | one used node _ ih =>
    obtain ⟨fuel, rfl⟩ : ∃ k, fuel = k + 1 := ⟨fuel - 1, by omega⟩
    simp only [Shape.depth] at hf
    rw [visit, node]
    simp only [ih fuel (by omega), Option.bind_some, Shape.paths, recordAll_cons_edge]
  | two used node _ _ ihl ihr =>
    obtain ⟨fuel, rfl⟩ : ∃ k, fuel = k + 1 := ⟨fuel - 1, by omega⟩
    simp only [Shape.depth] at hf
    rw [visit, node]
    simp only [ihl fuel (by omega), Option.bind_some, ihr fuel (by omega), Shape.paths, recordAll_append, recordAll_cons_edge]

theorem recordAll_notMem (ps : List (Byte × List Bool)) (path : Pattern) (len : CodeLen) (c : CodeTable) {b : Byte}
    (hb : b ∉ ps.map Prod.fst) :
    Table.entry (recordAll ps path len c).len b = Table.entry c.len b ∧
      Table.entry (recordAll ps path len c).pat b = Table.entry c.pat b := by
  induction ps generalizing c with
  | nil => exact ⟨rfl, rfl⟩
  | cons x ps ih =>
    simp only [List.map_cons, List.mem_cons, not_or] at hb
    have h := ih (c.record x.1 (x.2.foldl growPath path) (len + BitVec.ofNat 8 x.2.length)) hb.2
    simp only [CodeTable.record, Table.entry_put_ne _ hb.1] at h
    exact h

theorem recordAll_mem (ps : List (Byte × List Bool)) (path : Pattern) (len : CodeLen) (c : CodeTable)
    (hd : (ps.map Prod.fst).Nodup) {b : Byte} {p : List Bool} (hb : (b, p) ∈ ps) :
    Table.entry (recordAll ps path len c).len b = len + BitVec.ofNat 8 p.length ∧
      Table.entry (recordAll ps path len c).pat b = p.foldl growPath path := by
  induction ps generalizing c with
  | nil => cases hb
  | cons x ps ih =>
    simp only [List.map_cons, List.nodup_cons] at hd
    rcases List.mem_cons.1 hb with rfl | hb
    · have h := recordAll_notMem ps path len (c.record b (p.foldl growPath path) (len + BitVec.ofNat 8 p.length)) hd.1
      simp only [CodeTable.record, Table.entry_put_same] at h
      exact h
    · exact ih _ hd.2 hb

/-! ### `CDERIVE` -/

/-- What the code table says of the symbols of a tree: a symbol's code is its path; other symbols have length 0 (R163). -/
structure CodesOf (sh : Shape) (c : CodeTable) : Prop where
  path : ∀ b p, (b, p) ∈ sh.paths → c.bits b = p ∧ (Table.entry c.len b).toNat = p.length
  none : ∀ b, b ∉ sh.symbols → Table.entry c.len b = 0

theorem codesOf_recordAll {sh : Shape} (hd : sh.depth ≤ 255) (hn : sh.symbols.Nodup) (c : CodeTable) :
    CodesOf sh (recordAll sh.paths 0 0 { c with len := Table.all 0 }) := by
  constructor
  · intro b p hp
    have hl := Shape.paths_length hp
    have hp255 : p.length ≤ 255 := Nat.le_trans hl hd
    obtain ⟨h1, h2⟩ := recordAll_mem sh.paths 0 0 { c with len := Table.all 0 } (by rw [sh.paths_symbols]; exact hn) hp
    have h3 : (Table.entry (recordAll sh.paths 0 0 { c with len := Table.all 0 }).len b).toNat = p.length := by
      rw [h1]
      simp
      omega
    refine ⟨?_, h3⟩
    rw [CodeTable.bits, h3, h2, pat2bits_path 0 p hp255]
  · intro b hb
    rw [← sh.paths_symbols] at hb
    have := (recordAll_notMem sh.paths 0 0 { c with len := Table.all 0 } hb).1
    rw [this, Table.entry_all]

theorem cderive_none {s : State} (h : s.tree.root = none) :
    cderive s = .ok () { s with code := { s.code with len := Table.all 0 } } := by
  simp [cderive, h]

/-- `CDERIVE` on a tree returns, and the table holds the tree's paths (R161, R163). -/
theorem cderive_rep {s : State} {r : Handle} {sh : Shape} (h : s.tree.root = some r) (hr : Rep s.tree r sh)
    (hd : sh.depth ≤ Config.codeLenMax) :
    cderive s = .ok () { s with code := recordAll sh.paths 0 0 { s.code with len := Table.all 0 } } := by
  have hv := visit_rep hr (Config.codeLenMax + 1) (Nat.lt_succ_of_le hd) 0 0 { s.code with len := Table.all 0 }
  simp only [cderive, h, hv]

/-- Whatever stands in the tree registers between operations, `CDERIVE` returns (R294). -/
theorem cderive_ok {s : State} (h : s.tree.Ok) : ∃ c, cderive s = .ok () { s with code := c } := by
  cases hr : s.tree.root with
  | none => exact ⟨_, cderive_none hr⟩
  | some r =>
    obtain ⟨sh, hrep, _, hd, _⟩ := h.2.2 r hr
    exact ⟨_, cderive_rep hr hrep hd⟩

/-- The assigned codes are prefix-free (R239). -/
theorem CodesOf.prefixFree {sh : Shape} {c : CodeTable} (C : CodesOf sh c) {a b : Byte} (ha : Table.entry c.len a ≠ 0)
    (hb : Table.entry c.len b ≠ 0) (h : c.bits a <+: c.bits b) : a = b := by
  have hma : a ∈ sh.symbols := by by_contra hm; exact ha (C.none a hm)
  have hmb : b ∈ sh.symbols := by by_contra hm; exact hb (C.none b hm)
  obtain ⟨p, hp⟩ := Shape.exists_path hma
  obtain ⟨q, hq⟩ := Shape.exists_path hmb
  rw [(C.path a p hp).1, (C.path b q hq).1] at h
  exact congrArg Prod.fst (Shape.paths_prefix hp hq h)

/-- Along the path of a symbol the walk ends at that symbol's leaf (R97). -/
theorem Rep.follow {t : TreeRegs} {h : Handle} {sh : Shape} (r : Rep t h sh) {b : Byte} {p : List Bool} (hp : (b, p) ∈ sh.paths) :
    ∃ g f, t.follow h p = some g ∧ t.nodeAt g = .leaf b f := by
  induction r generalizing b p with
  | @leaf h b' f used node =>
    simp only [Shape.paths, List.mem_singleton, Prod.mk.injEq] at hp
    obtain ⟨rfl, rfl⟩ := hp
    exact ⟨h, f, rfl, node⟩
  | one used node _ ih =>
    simp only [Shape.paths, List.mem_map] at hp
    obtain ⟨⟨b', p'⟩, hx, he⟩ := hp
    cases he
    obtain ⟨g, f, h1, h2⟩ := ih hx
    exact ⟨g, f, by simp [TreeRegs.follow, node, h1], h2⟩
  | two used node _ _ ihl ihr =>
    simp only [Shape.paths, List.mem_append, List.mem_map] at hp
    rcases hp with ⟨⟨b', p'⟩, hx, he⟩ | ⟨⟨b', p'⟩, hx, he⟩
    · cases he
      obtain ⟨g, f, h1, h2⟩ := ihl hx
      exact ⟨g, f, by simp [TreeRegs.follow, node, h1], h2⟩
    · cases he
      obtain ⟨g, f, h1, h2⟩ := ihr hx
      exact ⟨g, f, by simp [TreeRegs.follow, node, h1], h2⟩

/-- Where a walk ends at a leaf, it has gone along that leaf's path. -/
theorem Rep.path_of_follow {t : TreeRegs} {h : Handle} {sh : Shape} (r : Rep t h sh) {p : List Bool} {g : Handle} {b : Byte}
    {f : Weight} (hf : t.follow h p = some g) (hg : t.nodeAt g = .leaf b f) : (b, p) ∈ sh.paths := by
  induction r generalizing p with
  | @leaf h b' f' used node =>
    cases p with
    | nil =>
      cases hf
      rw [node] at hg
      cases hg
      simp [Shape.paths]
    | cons x p => simp [TreeRegs.follow, node] at hf
  | one used node _ ih =>
    cases p with
    | nil =>
      cases hf
      rw [node] at hg
      cases hg
    | cons x p =>
      cases x with
      | true => simp [TreeRegs.follow, node] at hf
      | false =>
        simp only [TreeRegs.follow, node, Bool.false_eq_true, if_false, Option.bind_some] at hf
        simp only [Shape.paths, List.mem_map]
        exact ⟨(b, p), ih hf, rfl⟩
  | two used node _ _ ihl ihr =>
    cases p with
    | nil =>
      cases hf
      rw [node] at hg
      cases hg
    | cons x p =>
      cases x with
      | true =>
        simp only [TreeRegs.follow, node, if_true, Option.bind_some] at hf
        simp only [Shape.paths, List.mem_append, List.mem_map]
        exact .inr ⟨(b, p), ihr hf, rfl⟩
      | false =>
        simp only [TreeRegs.follow, node, Bool.false_eq_true, if_false, Option.bind_some] at hf
        simp only [Shape.paths, List.mem_append, List.mem_map]
        exact .inl ⟨(b, p), ihl hf, rfl⟩

/-- The arena determines the shape. -/
theorem Rep.unique {t : TreeRegs} {h : Handle} {sh sh' : Shape} (r : Rep t h sh) (q : Rep t h sh') : sh = sh' := by
  induction r generalizing sh' with
  | leaf used node =>
    cases q with
    | leaf used' node' => rw [node] at node'; cases node'; rfl
    | one used' node' _ => rw [node] at node'; cases node'
    | two used' node' _ _ => rw [node] at node'; cases node'
  | one used node _ ih =>
    cases q with
    | leaf used' node' => rw [node] at node'; cases node'
    | one used' node' l' => rw [node] at node'; cases node'; rw [ih l']
    | two used' node' _ _ => rw [node] at node'; cases node'
  | two used node _ _ ihl ihr =>
    cases q with
    | leaf used' node' => rw [node] at node'; cases node'
    | one used' node' l' => rw [node] at node'; cases node'
    | two used' node' l' r' => rw [node] at node'; cases node'; rw [ihl l', ihr r']

/-- A proper prefix of a leaf's path ends at an internal node. -/
theorem Rep.follow_prefix {t : TreeRegs} {h : Handle} {sh : Shape} (r : Rep t h sh) {b : Byte} {p q : List Bool} {x : Bool}
    (hp : (b, q ++ x :: p) ∈ sh.paths) : ∃ g f l rr, t.follow h q = some g ∧ t.nodeAt g = .internal f l rr := by
  induction r generalizing q with
  | @leaf h b' f used node => simp [Shape.paths] at hp
  | @one h l f sl used node _ ih =>
    cases q with
    | nil => exact ⟨h, f, _, _, rfl, node⟩
    | cons y q =>
      simp only [Shape.paths, List.mem_map] at hp
      obtain ⟨⟨b', p'⟩, hx, he⟩ := hp
      cases he
      obtain ⟨g, f', l', r', h1, h2⟩ := ih hx
      exact ⟨g, f', l', r', by simp [TreeRegs.follow, node, h1], h2⟩
  | @two h l rr f sl sr used node _ _ ihl ihr =>
    cases q with
    | nil => exact ⟨h, f, _, _, rfl, node⟩
    | cons y q =>
      simp only [Shape.paths, List.mem_append, List.mem_map] at hp
      rcases hp with ⟨⟨b', p'⟩, hx, he⟩ | ⟨⟨b', p'⟩, hx, he⟩
      · cases he
        obtain ⟨g, f', l', r', h1, h2⟩ := ihl hx
        exact ⟨g, f', l', r', by simp [TreeRegs.follow, node, h1], h2⟩
      · cases he
        obtain ⟨g, f', l', r', h1, h2⟩ := ihr hx
        exact ⟨g, f', l', r', by simp [TreeRegs.follow, node, h1], h2⟩

end Sys2Proof.Machine
end

