-- ==== Sys2Proof/Laws/Header.lean ====
section
/-! SUPPORT. The header: byte orders undo each other, what `HWRITE` writes and `HREAD` reads (`45_container_format.md`). -/

namespace Sys2Proof

theorem bytesLE_length (n v : Nat) : (bytesLE n v).length = n := by simp [bytesLE]

theorem bytesLE_succ (n v : Nat) : bytesLE (n + 1) v = BitVec.ofNat 8 v :: bytesLE n (v / 256) := by
  simp only [bytesLE, List.range_succ_eq_map, List.map_cons, List.map_map]
  congr 1
  apply List.map_congr_left
  intro i _
  simp only [Function.comp, byteOf]
  rw [Nat.shiftRight_eq_div_pow, Nat.shiftRight_eq_div_pow, Nat.div_div_eq_div_mul,
    show 8 * Nat.succ i = 8 + 8 * i by omega, Nat.pow_add]

/-- Putting the bytes together again (R100). -/
theorem ofBytesLE_bytesLE (n v : Nat) : ofBytesLE (bytesLE n v) = v % 256 ^ n := by
  induction n generalizing v with
  | zero => simp [bytesLE, ofBytesLE, Nat.mod_one]
  | succ n ih =>
    rw [bytesLE_succ, ofBytesLE, ih, Nat.pow_succ, Nat.mul_comm (256 ^ n), Nat.mod_mul]
    simp

/-- And taking them apart again: byte strings of one length and the numbers they spell correspond. -/
theorem bytesLE_ofBytesLE (l : List Byte) : bytesLE l.length (ofBytesLE l) = l := by
  induction l with
  | nil => rfl
  | cons b l ih =>
    rw [List.length_cons, bytesLE_succ, ofBytesLE]
    have h1 : BitVec.ofNat 8 (b.toNat + 256 * ofBytesLE l) = b := by
      apply BitVec.eq_of_toNat_eq
      rw [BitVec.toNat_ofNat, Nat.add_mul_mod_self_left]
      exact Nat.mod_eq_of_lt b.isLt
    have h2 : (b.toNat + 256 * ofBytesLE l) / 256 = ofBytesLE l := by
      have := b.isLt
      omega
    rw [h1, h2, ih]

theorem ofBytesLE_lt (l : List Byte) : ofBytesLE l < 256 ^ l.length := by
  induction l with
  | nil => decide
  | cons b l ih =>
    rw [ofBytesLE, List.length_cons, Nat.pow_succ]
    have := b.isLt
    omega

end Sys2Proof

namespace Sys2Proof.Machine

theorem hdrBytes_length (o : HdrOrder) (n v : Nat) : (hdrBytes o n v).length = n := by simp [hdrBytes]

theorem hdrBytes_LE (n v : Nat) : hdrBytes .LE n v = bytesLE n v := rfl

theorem hdrBytes_BE (n v : Nat) : hdrBytes .BE n v = (bytesLE n v).reverse := by
  apply List.ext_getElem
  · simp [hdrBytes, bytesLE]
  · intro i h1 h2
    simp [hdrBytes, bytesLE, bytePlace, List.getElem_reverse]

/-- `unhdr` undoes `hdr`, for either byte order (R100, R197). -/
theorem unhdr_hdrBytes (o : HdrOrder) (n v : Nat) : unhdr o (hdrBytes o n v) = v % 256 ^ n := by
  cases o
  · simp [unhdr, hdrBytes_LE, ofBytesLE_bytesLE]
  · simp [unhdr, hdrBytes_BE, ofBytesLE_bytesLE]

theorem magic_length : magic.length = 4 := rfl

/-- The header has 1036 bytes, always (R192, `90_conflicts.md` C1). -/
theorem headerBytes_length (o : HdrOrder) (size : Size) (freq : Table Count) : (headerBytes o size freq).length = Config.hdrLen := by
  have h : ∀ l : List Byte, (l.flatMap fun b => hdrBytes o 4 (Table.entry freq b).toNat).length = 4 * l.length := by
    intro l
    induction l with
    | nil => rfl
    | cons b bs ih => rw [List.flatMap_cons, List.length_append, hdrBytes_length, ih, List.length_cons]; omega
  rw [headerBytes, List.length_append, List.length_append, hdrBytes_length, h, symbols_length, magic_length]
  rfl

/-! ### Streams, several accesses at a time -/

theorem Memory.consumed_rest (m : Memory) (n k : Nat) : (m.consumed n k).rest = m.rest.drop n := by
  simp [Memory.consumed, Memory.rest, List.drop_drop]

theorem Memory.consumed_consumed (m : Memory) (n k n' k' : Nat) :
    (m.consumed n k).consumed n' k' = m.consumed (n + n') (k + k') := by
  simp [Memory.consumed, Nat.add_assoc, List.drop_drop]

theorem Memory.consumed_noFailure {m : Memory} (h : m.NoFailure) (n k : Nat) : (m.consumed n k).NoFailure :=
  Memory.noFailure_drop h rfl

theorem memRead_consumed {s : State} (ha : s.mem.answer = .works) {n : Nat} (hn : n ≤ s.mem.rest.length) :
    memRead n s = .ok (s.mem.rest.take n) { s with mem := s.mem.consumed n 1 } := by
  rw [memRead_works ha]
  simp [Memory.consumed, Memory.answered, Nat.min_eq_left hn]

theorem memWrite_appended {s : State} (ha : s.mem.answer = .works) (v : List Byte) :
    memWrite v s = .ok () { s with mem := s.mem.appended v 1 } := by
  rw [memWrite_works ha]
  simp [Memory.appended, Memory.append, Memory.answered]

theorem Memory.appended_appended (m : Memory) (v w : List Byte) (k l : Nat) :
    (m.appended v k).appended w l = m.appended (v ++ w) (k + l) := by
  simp [Memory.appended, Memory.append, Nat.add_assoc, List.drop_drop]

theorem Memory.appended_noFailure {m : Memory} (h : m.NoFailure) (v : List Byte) (k : Nat) : (m.appended v k).NoFailure :=
  Memory.noFailure_drop h rfl

/-! ### `HWRITE` -/

theorem writeCounts_works (o : HdrOrder) (bs : List Byte) {s : State} (hf : s.mem.NoFailure) :
    writeCounts o bs s =
      .ok () { s with mem := s.mem.appended (bs.flatMap fun b => hdrBytes o 4 (Table.entry s.freq b).toNat) bs.length } := by
  induction bs generalizing s with
  | nil => simp [writeCounts, Memory.appended]
  | cons b bs ih =>
    rw [writeCounts, memWrite_appended (Memory.answer_of_noFailure hf), Res.bind_ok, ih (Memory.appended_noFailure hf _ _)]
    simp [Memory.appended_appended, Nat.add_comm]

/-- `HWRITE` appends the header, in 258 accesses (R191). -/
theorem hwrite_works (o : HdrOrder) {s : State} (hf : s.mem.NoFailure) :
    hwrite o s = .ok () { s with mem := s.mem.appended (headerBytes o s.size s.freq) 258 } := by
  rw [hwrite, memWrite_appended (Memory.answer_of_noFailure hf), Res.bind_ok, memWrite_appended (Memory.answer_of_noFailure (Memory.appended_noFailure hf _ _)), Res.bind_ok,
    writeCounts_works o symbols (Memory.appended_noFailure (Memory.appended_noFailure hf _ _) _ _)]
  simp [Memory.appended_appended, headerBytes, symbols_length, List.append_assoc]

/-- `HWRITE` where access `j` fails: the fields before it are in the sink, and of its own what it landed (R251, R63). -/
theorem writeCounts_fails (o : HdrOrder) {bs : List Byte} {s : State} {j k : Nat} (ha : s.mem.FailsAfter j k) (hj : j < bs.length) :
    writeCounts o bs s = .raised (takeError .io { s with
      mem := s.mem.appended (((bs.map fun b => hdrBytes o 4 (Table.entry s.freq b).toNat).take j).flatten ++
        ((bs.map fun b => hdrBytes o 4 (Table.entry s.freq b).toNat).getD j []).take k) (j + 1) }) := by
  induction bs generalizing s j with
  | nil => cases hj
  | cons b bs ih =>
    rw [writeCounts]
    cases j with
    | zero =>
      rw [memWrite_fails ha.answer]
      simp [raise, Memory.appended, Memory.append, Memory.answered]
    | succ j =>
      rw [memWrite_appended ha.1.answer, Res.bind_ok,
        ih (s := { s with mem := s.mem.appended (hdrBytes o 4 (Table.entry s.freq b).toNat) 1 })
          (ha.drop (a := 1) rfl (Nat.add_comm j 1)) (Nat.lt_of_succ_lt_succ hj)]
      simp [Memory.appended_appended, Nat.add_comm, List.append_assoc]

/-- The fields in a row are the header (R90). -/
theorem headerFields_flatten (o : HdrOrder) (size : Size) (freq : Table Count) :
    (headerFields o size freq).flatten = headerBytes o size freq := by
  simp [headerFields, headerBytes, List.flatMap_def]

theorem headerFields_length (o : HdrOrder) (size : Size) (freq : Table Count) : (headerFields o size freq).length = 258 := by
  simp [headerFields, symbols_length]

theorem hwrite_fails (o : HdrOrder) {s : State} {j k : Nat} (ha : s.mem.FailsAfter j k) (hj : j < 258) :
    hwrite o s = .raised (takeError .io { s with
      mem := s.mem.appended (((headerFields o s.size s.freq).take j).flatten ++
        ((headerFields o s.size s.freq).getD j []).take k) (j + 1) }) := by
  rw [hwrite]
  match j, ha, hj with
  | 0, ha, _ =>
    rw [memWrite_fails ha.answer]
    simp [raise, headerFields, Memory.appended, Memory.append, Memory.answered]
  | 1, ha, _ =>
    have h1 : Memory.FailsAfter (s.mem.appended magic 1) 0 k := ha.drop (a := 1) rfl rfl
    rw [memWrite_appended ha.1.answer, Res.bind_ok, memWrite_fails (s := { s with mem := s.mem.appended magic 1 }) h1.answer]
    simp [raise, headerFields, Memory.appended, Memory.append, Memory.answered, ← List.drop_one, List.drop_drop, Nat.add_assoc]
  | j + 2, ha, hj =>
    have h1 : Memory.FailsAfter (s.mem.appended magic 1) (j + 1) k := ha.drop (a := 1) rfl (Nat.add_comm (j + 1) 1)
    have h2 := h1.drop (n := (s.mem.appended magic 1).appended (hdrBytes o 8 s.size.toNat) 1) (a := 1) rfl (Nat.add_comm j 1)
    rw [memWrite_appended ha.1.answer, Res.bind_ok,
      memWrite_appended (s := { s with mem := s.mem.appended magic 1 }) h1.1.answer, Res.bind_ok,
      writeCounts_fails o h2 (by rw [symbols_length]; omega)]
    simp only [Memory.appended_appended, headerFields, List.take_succ_cons, List.flatten_cons, List.getD_cons_succ, List.append_assoc]
    rw [show 1 + 1 + (j + 1) = j + 2 + 1 by omega]

/-! ### `HREAD` -/

/-- The counts read from a byte string into a table, over the symbols given. -/
def readTable (o : HdrOrder) : List Byte → List Byte → Table Count → Table Count
  | [], _, f => f
  | b :: bs, bytes, f => readTable o bs (bytes.drop 4) (Table.put f b (BitVec.ofNat 32 (unhdr o (bytes.take 4))))

theorem readTable_notMem (o : HdrOrder) (bs bytes : List Byte) (f : Table Count) {c : Byte} (hc : c ∉ bs) :
    Table.entry (readTable o bs bytes f) c = Table.entry f c := by
  induction bs generalizing bytes f with
  | nil => rfl
  | cons b bs ih =>
    simp only [List.mem_cons, not_or] at hc
    rw [readTable, ih _ _ hc.2, Table.entry_put_ne _ hc.1]

theorem readTable_getElem (o : HdrOrder) (bs bytes : List Byte) (f : Table Count) (hd : bs.Nodup) (i : Nat) (hi : i < bs.length) :
    Table.entry (readTable o bs bytes f) bs[i] = BitVec.ofNat 32 (unhdr o ((bytes.drop (4 * i)).take 4)) := by
  induction bs generalizing bytes f i with
  | nil => cases hi
  | cons b bs ih =>
    rw [List.nodup_cons] at hd
    cases i with
    | zero => simp [readTable, readTable_notMem o bs _ _ hd.1]
    | succ i =>
      simp only [List.getElem_cons_succ, readTable]
      rw [ih _ _ hd.2 i (by simpa using hi), List.drop_drop, show 4 + 4 * i = 4 * (i + 1) by omega]

theorem symbols_getElem (b : Byte) : symbols[b.toNat]'(by rw [symbols_length]; exact b.isLt) = b := by
  simp [symbols]

/-- Entry `s` of the table read is count field `s` of the header (R93, R193). -/
theorem readTable_symbols (o : HdrOrder) (bytes : List Byte) (f : Table Count) (b : Byte) :
    Table.entry (readTable o symbols bytes f) b = countField o bytes b := by
  have h := readTable_getElem o symbols bytes f symbols_nodup b.toNat (by rw [symbols_length]; exact b.isLt)
  rwa [symbols_getElem] at h

theorem readCounts_works (o : HdrOrder) (bs : List Byte) {s : State} (hf : s.mem.NoFailure)
    (hl : 4 * bs.length ≤ s.mem.rest.length) :
    readCounts o bs s =
      .ok () { s with freq := readTable o bs s.mem.rest s.freq, mem := s.mem.consumed (4 * bs.length) bs.length } := by
  induction bs generalizing s with
  | nil => simp [readCounts, readTable, Memory.consumed]
  | cons b bs ih =>
    simp only [List.length_cons] at hl
    have h4 : 4 ≤ s.mem.rest.length := by omega
    have hlen : ¬ (s.mem.rest.take 4).length < 4 := by simp; omega
    rw [readCounts, memRead_consumed (Memory.answer_of_noFailure hf) h4, Res.bind_ok, if_neg hlen]
    have hnf : (s.mem.consumed 4 1).NoFailure := Memory.consumed_noFailure hf _ _
    rw [ih hnf (by rw [Memory.consumed_rest]; simp; omega)]
    simp only [Memory.consumed_rest, Memory.consumed_consumed, readTable, List.length_cons]
    rw [show 4 + 4 * bs.length = 4 * (bs.length + 1) by omega, Nat.add_comm 1]

/-- `HREAD` in the middle of the counts where the read of count `j` fails: the counts before it have been read (R251). -/
theorem readCounts_fails (o : HdrOrder) {bs : List Byte} {s : State} {j k : Nat} (ha : s.mem.FailsAfter j k) (hj : j < bs.length)
    (hl : 4 * j ≤ s.mem.rest.length) :
    readCounts o bs s = .raised (takeError .io { s with
      freq := readTable o (bs.take j) s.mem.rest s.freq, mem := s.mem.consumed (4 * j) (j + 1) }) := by
  induction bs generalizing s j with
  | nil => cases hj
  | cons b bs ih =>
    rw [readCounts]
    cases j with
    | zero =>
      rw [memRead_fails ha.answer]
      simp [raise, readTable, Memory.consumed, Memory.answered]
    | succ j =>
      have hlen : ¬ (s.mem.rest.take 4).length < 4 := by simp; omega
      rw [memRead_consumed ha.1.answer (by omega), Res.bind_ok, if_neg hlen,
        ih (s := { s with mem := s.mem.consumed 4 1, freq := Table.put s.freq b (BitVec.ofNat 32 (unhdr o (s.mem.rest.take 4))) })
          (ha.drop (a := 1) rfl (Nat.add_comm j 1)) (Nat.lt_of_succ_lt_succ hj)
          (by simp only [Memory.consumed_rest, List.length_drop]; omega)]
      simp only [Memory.consumed_rest, Memory.consumed_consumed, readTable, List.take_succ_cons]
      rw [show 4 + 4 * j = 4 * (j + 1) by omega, Nat.add_comm 1]

/-- Some of the counts have been read: entry `b` is a field of the header, or what it was. -/
theorem readTable_take (o : HdrOrder) (bytes : List Byte) (f : Table Count) (j : Nat) (b : Byte) :
    Table.entry (readTable o (symbols.take j) bytes f) b = if b.toNat < j then countField o bytes b else Table.entry f b := by
  have hb : b.toNat < symbols.length := by rw [symbols_length]; exact b.isLt
  split
  next h =>
    have hi : b.toNat < (symbols.take j).length := by rw [List.length_take]; omega
    have := readTable_getElem o (symbols.take j) bytes f (symbols_nodup.sublist (List.take_sublist _ _)) b.toNat hi
    rwa [List.getElem_take, symbols_getElem] at this
  next h =>
    refine readTable_notMem o _ bytes f fun hm => h ?_
    obtain ⟨i, hi, e⟩ := List.getElem_of_mem hm
    rw [List.getElem_take] at e
    have hi' := hi
    rw [List.length_take] at hi'
    have : i = b.toNat := by
      rw [← e]
      simp only [symbols, List.getElem_map, List.getElem_range, BitVec.toNat_ofNat]
      rw [symbols_length] at hi'
      omega
    omega

/-- `HREAD` where the read of the magic, or of the size behind a good magic, fails (R251). -/
theorem hread_fails_early (o : HdrOrder) {s : State} {j k : Nat} (ha : s.mem.FailsAfter j k) (hj : j < 2)
    (hm : j = 0 ∨ s.mem.rest.take 4 = magic) :
    hread o s = .raised (takeError .io { s with mem := s.mem.consumed (4 * j) (j + 1) }) := by
  rw [hread]
  match j, ha, hj, hm with
  | 0, ha, _, _ =>
    rw [memRead_fails ha.answer]
    simp [raise, Memory.consumed, Memory.answered]
  | 1, ha, _, hm =>
    have hm := hm.resolve_left Nat.one_ne_zero
    have hl : 4 ≤ s.mem.rest.length := by
      have := congrArg List.length hm
      rw [List.length_take, magic_length] at this
      omega
    have h1 : Memory.FailsAfter (s.mem.consumed 4 1) 0 k := ha.drop (a := 1) rfl rfl
    rw [memRead_consumed ha.1.answer hl, Res.bind_ok, if_pos hm, memRead_fails (s := { s with mem := s.mem.consumed 4 1 }) h1.answer]
    simp [raise, Memory.consumed, Memory.answered, ← List.drop_one, List.drop_drop]

/-- `HREAD` where the read of count `j` fails, behind a good magic and a size (R251). -/
theorem hread_fails (o : HdrOrder) {s : State} {j k : Nat} (ha : s.mem.FailsAfter (j + 2) k) (hj : j < 256)
    (hm : s.mem.rest.take 4 = magic) (hl : 12 + 4 * j ≤ s.mem.rest.length) :
    hread o s = .raised (takeError .io { s with
      size := BitVec.ofNat 64 (unhdr o ((s.mem.rest.drop 4).take 8))
      freq := readTable o (symbols.take j) (s.mem.rest.drop 12) s.freq
      mem := s.mem.consumed (12 + 4 * j) (j + 3) }) := by
  have h1 : Memory.FailsAfter (s.mem.consumed 4 1) (j + 1) k := ha.drop (a := 1) rfl (Nat.add_comm (j + 1) 1)
  have h2 : Memory.FailsAfter (s.mem.consumed 12 2) j k := ha.drop (a := 2) rfl (Nat.add_comm j 2)
  have hl8 : ¬ ((s.mem.consumed 4 1).rest.take 8).length < 8 := by simp [Memory.consumed_rest]; omega
  rw [hread, memRead_consumed ha.1.answer (by omega), Res.bind_ok, if_pos hm,
    memRead_consumed (s := { s with mem := s.mem.consumed 4 1 }) h1.1.answer (by rw [Memory.consumed_rest]; simp; omega), Res.bind_ok,
    if_neg hl8]
  rw [Memory.consumed_consumed, Memory.consumed_rest]
  rw [readCounts_fails o h2 (by rw [symbols_length]; exact hj) (by simp only [Memory.consumed_rest, List.length_drop]; omega)]
  simp only [Memory.consumed_rest, Memory.consumed_consumed]
  rw [show 2 + (j + 1) = j + 3 by omega]

/-- `HREAD` on a good header (R193). -/
theorem hread_works (o : HdrOrder) {s : State} (hf : s.mem.NoFailure) (hm : s.mem.rest.take 4 = magic)
    (hl : Config.hdrLen ≤ s.mem.rest.length) :
    hread o s =
      .ok () { s with
        size := BitVec.ofNat 64 (unhdr o ((s.mem.rest.drop 4).take 8))
        freq := readTable o symbols (s.mem.rest.drop 12) s.freq
        mem := s.mem.consumed Config.hdrLen 258 } := by
  have hl : 1036 ≤ s.mem.rest.length := hl
  have hl8 : ¬ ((s.mem.consumed 4 1).rest.take 8).length < 8 := by simp [Memory.consumed_rest]; omega
  rw [hread, memRead_consumed (Memory.answer_of_noFailure hf) (by omega), Res.bind_ok, if_pos hm,
    memRead_consumed (Memory.answer_of_noFailure (Memory.consumed_noFailure hf _ _)) (by rw [Memory.consumed_rest]; simp; omega), Res.bind_ok, if_neg hl8,
    readCounts_works o symbols (Memory.consumed_noFailure (Memory.consumed_noFailure hf _ _) _ _)
      (by simp only [Memory.consumed_rest, symbols_length, List.length_drop]; omega)]
  simp [Memory.consumed_consumed, Memory.consumed_rest, symbols_length, Config.hdrLen]

/-- A source that does not begin with the magic, a short one included (R193, R195). -/
theorem hread_badMagic (o : HdrOrder) {s : State} (hf : s.mem.NoFailure) (hm : s.mem.rest.take 4 ≠ magic) :
    hread o s = raise .badMagic { s with mem := s.mem.consumed (s.mem.rest.take 4).length 1 } := by
  rw [hread, memRead_works (Memory.answer_of_noFailure hf), Res.bind_ok, if_neg hm]
  simp [Memory.consumed, Memory.answered]

theorem readCounts_short (o : HdrOrder) (bs : List Byte) {s : State} (hf : s.mem.NoFailure)
    (hl : s.mem.rest.length < 4 * bs.length) :
    ∃ f k, readCounts o bs s = raise .truncHeader { s with freq := f, mem := s.mem.consumed s.mem.rest.length k } := by
  induction bs generalizing s with
  | nil => simp at hl
  | cons b bs ih =>
    by_cases h4 : s.mem.rest.length < 4
    · refine ⟨s.freq, 1, ?_⟩
      have ht : s.mem.rest.take 4 = s.mem.rest := List.take_of_length_le (by omega)
      rw [readCounts, memRead_works (Memory.answer_of_noFailure hf), Res.bind_ok, ht, if_pos h4]
      simp [Memory.consumed, Memory.answered]
    · have hlen : ¬ (s.mem.rest.take 4).length < 4 := by simp; omega
      simp only [List.length_cons] at hl
      rw [readCounts, memRead_consumed (Memory.answer_of_noFailure hf) (by omega), Res.bind_ok, if_neg hlen]
      have hnf : (s.mem.consumed 4 1).NoFailure := Memory.consumed_noFailure hf _ _
      obtain ⟨f, k, h⟩ := ih (s := { s with mem := s.mem.consumed 4 1, freq := (Table.put s.freq b (BitVec.ofNat 32 (unhdr o (s.mem.rest.take 4)))) }) hnf
        (by simp only [Memory.consumed_rest, List.length_drop]; omega)
      refine ⟨f, 1 + k, ?_⟩
      rw [h]
      simp only [Memory.consumed_rest, Memory.consumed_consumed, List.length_drop]
      rw [show 4 + (s.mem.rest.length - 4) = s.mem.rest.length by omega]

/-- A source with a good magic that ends inside the header (R193, R194). -/
theorem hread_truncated (o : HdrOrder) {s : State} (hf : s.mem.NoFailure) (hm : s.mem.rest.take 4 = magic)
    (hl : s.mem.rest.length < Config.hdrLen) :
    ∃ z f k, hread o s =
      raise .truncHeader { s with size := z, freq := f, mem := s.mem.consumed s.mem.rest.length k } := by
  have hl : s.mem.rest.length < 1036 := hl
  have h4 : 4 ≤ s.mem.rest.length := by
    have := congrArg List.length hm
    simp [magic] at this
    omega
  have hnf := Memory.consumed_noFailure hf 4 1
  by_cases h12 : s.mem.rest.length < 12
  · refine ⟨s.size, s.freq, 2, ?_⟩
    have ht : (s.mem.consumed 4 1).rest.take 8 = s.mem.rest.drop 4 := by
      rw [Memory.consumed_rest, List.take_of_length_le (by simp; omega)]
    rw [hread, memRead_consumed (Memory.answer_of_noFailure hf) h4, Res.bind_ok, if_pos hm, memRead_works (Memory.answer_of_noFailure hnf), Res.bind_ok]
    simp only [ht, List.length_drop]
    rw [if_pos (by omega)]
    congr 2
    simp only [Memory.consumed, Memory.answered, ← List.drop_one, List.drop_drop]
    congr 1
    omega
  · have hl8 : ¬ ((s.mem.consumed 4 1).rest.take 8).length < 8 := by simp [Memory.consumed_rest]; omega
    have h8 : 8 ≤ (s.mem.consumed 4 1).rest.length := by rw [Memory.consumed_rest]; simp; omega
    rw [hread, memRead_consumed (Memory.answer_of_noFailure hf) h4, Res.bind_ok, if_pos hm, memRead_consumed (Memory.answer_of_noFailure hnf) h8, Res.bind_ok, if_neg hl8]
    obtain ⟨f, k, h⟩ := readCounts_short o symbols
      (s := { s with mem := (s.mem.consumed 4 1).consumed 8 1,
                     size := BitVec.ofNat 64 (unhdr o ((s.mem.consumed 4 1).rest.take 8)) })
      (Memory.consumed_noFailure hnf _ _)
      (by simp only [Memory.consumed_rest, List.length_drop, symbols_length]; omega)
    refine ⟨BitVec.ofNat 64 (unhdr o ((s.mem.consumed 4 1).rest.take 8)), f, 2 + k, ?_⟩
    rw [h]
    simp only [Memory.consumed_consumed, Memory.consumed_rest, List.length_drop]
    rw [show 4 + 8 + (s.mem.rest.length - (4 + 8)) = s.mem.rest.length by omega]

/-- The four bytes of count field `b` of a header (R90). -/
theorem counts_field (o : HdrOrder) (freq : Table Count) (tail : List Byte) (b : Byte) :
    ((((symbols.flatMap fun b => hdrBytes o 4 (Table.entry freq b).toNat) ++ tail).drop (4 * b.toNat)).take 4) =
      hdrBytes o 4 (Table.entry freq b).toNat := by
  have key : ∀ (l : List Byte) (i : Nat) (hi : i < l.length),
      (((l.flatMap fun b => hdrBytes o 4 (Table.entry freq b).toNat) ++ tail).drop (4 * i)).take 4 =
        hdrBytes o 4 (Table.entry freq l[i]).toNat := by
    intro l
    induction l with
    | nil => intro i hi; cases hi
    | cons c cs ih =>
      intro i hi
      cases i with
      | zero =>
        simp only [List.flatMap_cons, List.append_assoc, Nat.mul_zero, List.drop_zero, List.getElem_cons_zero]
        rw [List.take_left' (hdrBytes_length _ _ _)]
      | succ i =>
        simp only [List.flatMap_cons, List.append_assoc, List.getElem_cons_succ]
        rw [show 4 * (i + 1) = (hdrBytes o 4 (Table.entry freq c).toNat).length + 4 * i by rw [hdrBytes_length]; omega,
          ← List.drop_drop, List.drop_left]
        exact ih i (by simpa using hi)
  have h := key symbols b.toNat (by rw [symbols_length]; exact b.isLt)
  rwa [symbols_getElem] at h

theorem countField_bytes (o o' : HdrOrder) (freq : Table Count) (tail : List Byte) (b : Byte) :
    countField o' ((symbols.flatMap fun b => hdrBytes o 4 (Table.entry freq b).toNat) ++ tail) b =
      BitVec.ofNat 32 (unhdr o' (hdrBytes o 4 (Table.entry freq b).toNat)) := by
  rw [countField, counts_field]

/-- Count field `b` of a header is the count written there (R197). -/
theorem countField_header (o : HdrOrder) (freq : Table Count) (tail : List Byte) (b : Byte) :
    countField o ((symbols.flatMap fun b => hdrBytes o 4 (Table.entry freq b).toNat) ++ tail) b = Table.entry freq b := by
  rw [countField_bytes, unhdr_hdrBytes, Nat.mod_eq_of_lt (by have := (Table.entry freq b).isLt; simpa using this)]
  simp

/-- `HREAD` of what `HWRITE` writes restores `SIZE` and `FREQ`, for either byte order (R197). -/
theorem hread_header (o : HdrOrder) {s : State} {size : Size} {freq : Table Count} {tail : List Byte} (hf : s.mem.NoFailure)
    (hr : s.mem.rest = headerBytes o size freq ++ tail) :
    hread o s = .ok () { s with size := size, freq := freq, mem := s.mem.consumed Config.hdrLen 258 } := by
  have hlen : Config.hdrLen ≤ s.mem.rest.length := by rw [hr, List.length_append, headerBytes_length]; omega
  have h1 : s.mem.rest = magic ++ (hdrBytes o 8 size.toNat ++
      ((symbols.flatMap fun b => hdrBytes o 4 (Table.entry freq b).toNat) ++ tail)) := by
    rw [hr]; simp [headerBytes, List.append_assoc]
  have hm : s.mem.rest.take 4 = magic := by rw [h1, List.take_left' magic_length]
  have h4 : s.mem.rest.drop 4 = hdrBytes o 8 size.toNat ++
      ((symbols.flatMap fun b => hdrBytes o 4 (Table.entry freq b).toNat) ++ tail) := by
    rw [h1, List.drop_left' magic_length]
  have hz : (s.mem.rest.drop 4).take 8 = hdrBytes o 8 size.toNat := by rw [h4, List.take_left' (hdrBytes_length _ _ _)]
  have h12 : s.mem.rest.drop 12 = (symbols.flatMap fun b => hdrBytes o 4 (Table.entry freq b).toNat) ++ tail := by
    rw [show 12 = 4 + 8 by rfl, ← List.drop_drop, h4, List.drop_left' (hdrBytes_length _ _ _)]
  rw [hread_works o hf hm hlen, hz, unhdr_hdrBytes, Nat.mod_eq_of_lt (by have := size.isLt; simpa using this), h12]
  have ht : readTable o symbols ((symbols.flatMap fun b => hdrBytes o 4 (Table.entry freq b).toNat) ++ tail) s.freq = freq := by
    apply Table.ext_entry
    intro b
    rw [readTable_symbols, countField_header]
  rw [ht]
  simp

/-- Read under the other byte order, an integer comes out byte-reversed (R197). -/
theorem hdrBytes_other {o o' : HdrOrder} (h : o ≠ o') (n v : Nat) : unhdr o' (hdrBytes o n v) = ofBytesLE (bytesLE n v).reverse := by
  cases o <;> cases o' <;> first | exact absurd rfl h | skip
  · rw [unhdr, hdrBytes_LE]
  · rw [unhdr, hdrBytes_BE]

end Sys2Proof.Machine
end

