-- ==== Sys2Proof/Laws/Passes.lean ====
section
/-! SUPPORT. The two passes over the source: the loop they share, the counting pass (`40_frequency_counter.md`) and the
emitting pass (`46_encoder.md`). -/

namespace Sys2Proof.Machine

theorem forEachByte_nil (body : Byte → State → Res Unit) (fuel : Nat) {s : State} (ha : s.mem.answer = .works)
    (hr : s.mem.rest = []) : forEachByte body (fuel + 1) s = .ok () { s with mem := s.mem.consumed 0 1 } := by
  rw [forEachByte, memRead_works ha 1]
  simp [hr, Memory.consumed, Memory.answered]

theorem forEachByte_cons (body : Byte → State → Res Unit) (fuel : Nat) {s : State} {b : Byte} {l : List Byte}
    (ha : s.mem.answer = .works) (hr : s.mem.rest = b :: l) :
    forEachByte body (fuel + 1) s =
      (body b { s with mem := s.mem.consumed 1 1 }).bind fun _ s => forEachByte body fuel s := by
  rw [forEachByte, memRead_consumed ha (by simp [hr])]
  simp [hr]

theorem forEachByte_fails (body : Byte → State → Res Unit) (fuel : Nat) {s : State} {k : Nat} (ha : s.mem.answer = .fails k) :
    forEachByte body (fuel + 1) s = .raised (takeError .io { s with mem := s.mem.consumed 0 1 }) := by
  rw [forEachByte, memRead_fails ha 1]
  simp [raise, Memory.consumed, Memory.answered]

/-! ### The counting pass -/

/-- The counts added to a table by a list of bytes. -/
def countInto (f : Table Count) (l : List Byte) : Table Count := l.foldl (fun f b => Table.put f b (Table.entry f b + 1)) f

theorem countInto_entry (f : Table Count) (l : List Byte) (b : Byte) :
    Table.entry (countInto f l) b = Table.entry f b + BitVec.ofNat 32 (l.count b) := by
  induction l generalizing f with
  | nil => simp [countInto]
  | cons c l ih =>
    have h : countInto f (c :: l) = countInto (Table.put f c (Table.entry f c + 1)) l := rfl
    rw [h, ih, Table.entry_put]
    by_cases hbc : b = c
    · subst hbc
      rw [if_pos rfl, List.count_cons_self, Nat.add_comm, BitVec.ofNat_add, BitVec.add_assoc]
      rfl
    · rw [if_neg hbc, List.count_cons_of_ne (Ne.symm hbc)]

theorem countInto_all (l : List Byte) : countInto (Table.all 0) l = countsOf l := by
  apply Table.ext_entry
  intro b
  rw [countInto_entry, countsOf_entry, Table.entry_all]
  exact BitVec.zero_add _

theorem count_loop (l : List Byte) (fuel : Nat) {s : State} (hf : s.mem.NoFailure) (hr : s.mem.rest = l)
    (hfuel : l.length < fuel) :
    forEachByte countByte fuel s =
      .ok () { s with freq := countInto s.freq l, size := s.size + BitVec.ofNat 64 l.length,
                      mem := s.mem.consumed l.length (l.length + 1) } := by
  induction l generalizing s fuel with
  | nil =>
    obtain ⟨fuel, rfl⟩ : ∃ k, fuel = k + 1 := ⟨fuel - 1, by simp at hfuel; omega⟩
    rw [forEachByte_nil _ _ (Memory.answer_of_noFailure hf) hr]
    simp [countInto]
  | cons b l ih =>
    obtain ⟨fuel, rfl⟩ : ∃ k, fuel = k + 1 := ⟨fuel - 1, by simp at hfuel; omega⟩
    rw [forEachByte_cons _ _ (Memory.answer_of_noFailure hf) hr, countByte, Res.bind_ok,
      ih fuel (Memory.consumed_noFailure hf _ _) (by simp [Memory.consumed_rest, hr]) (by simpa using hfuel)]
    simp only [Memory.consumed_consumed, List.length_cons]
    rw [Nat.add_comm 1 l.length, Nat.add_comm 1 (l.length + 1), Nat.add_comm l.length 1, BitVec.ofNat_add, BitVec.add_assoc]
    rfl

theorem fcount_limits {s : State} (h : InLimits s.mem.rest) :
    fcount s = forEachByte countByte (s.mem.rest.length + 1) { s with freq := Table.all 0, size := 0 } := by
  have h1 : ¬ Config.maxLen < s.mem.rest.length := Nat.not_lt.2 h.1
  have h2 : ¬ (s.mem.rest.any fun b => decide (Config.maxCount < s.mem.rest.count b)) = true := by
    simp only [List.any_eq_true, decide_eq_true_eq, not_exists, not_and, Nat.not_lt]
    intro b _
    exact h.2 b
  simp only [fcount, if_neg h1, if_neg h2]

/-- `FCOUNT` counts what is left of the source (R131). -/
theorem fcount_works {s : State} (hf : s.mem.NoFailure) (hl : InLimits s.mem.rest) :
    fcount s =
      .ok () { s with freq := countsOf s.mem.rest, size := BitVec.ofNat 64 s.mem.rest.length,
                      mem := s.mem.consumed s.mem.rest.length (s.mem.rest.length + 1) } := by
  rw [fcount_limits hl, count_loop (s := { s with freq := Table.all 0, size := 0 }) s.mem.rest _ hf rfl (Nat.lt_succ_self _)]
  simp [← countInto_all]

theorem count_loop_fails {l : List Byte} {fuel : Nat} {s : State} {j k : Nat} (ha : s.mem.FailsAfter j k) (hr : s.mem.rest = l)
    (hj : j ≤ l.length) (hfuel : l.length < fuel) :
    forEachByte countByte fuel s = .raised (takeError .io { s with
      freq := countInto s.freq (l.take j), size := s.size + BitVec.ofNat 64 j, mem := s.mem.consumed j (j + 1) }) := by
  induction l generalizing s fuel j with
  | nil =>
    obtain ⟨fuel, rfl⟩ : ∃ k, fuel = k + 1 := ⟨fuel - 1, by omega⟩
    obtain rfl : j = 0 := by simpa using hj
    rw [forEachByte_fails _ _ ha.answer]
    simp [countInto]
  | cons b l ih =>
    obtain ⟨fuel, rfl⟩ : ∃ k, fuel = k + 1 := ⟨fuel - 1, by omega⟩
    cases j with
    | zero =>
      rw [forEachByte_fails _ _ ha.answer]
      simp [countInto]
    | succ j =>
      rw [forEachByte_cons _ _ ha.1.answer hr, countByte, Res.bind_ok,
        ih (ha.drop (a := 1) rfl (Nat.add_comm j 1)) (by simp [Memory.consumed_rest, hr]) (by simpa using hj) (by simpa using hfuel)]
      simp only [Memory.consumed_consumed, List.take_succ_cons]
      rw [Nat.add_comm 1 j, Nat.add_comm 1 (j + 1), Nat.add_comm j 1, BitVec.ofNat_add, BitVec.add_assoc]
      rfl

/-- `FCOUNT` where the read behind `j` bytes fails: those bytes have been counted (R251, F6). -/
theorem fcount_fails {s : State} {j k : Nat} (ha : s.mem.FailsAfter j k) (hl : InLimits s.mem.rest) (hj : j ≤ s.mem.rest.length) :
    fcount s = .raised (takeError .io { s with
      freq := countsOf (s.mem.rest.take j), size := BitVec.ofNat 64 j, mem := s.mem.consumed j (j + 1) }) := by
  rw [fcount_limits hl, count_loop_fails (s := { s with freq := Table.all 0, size := 0 }) ha rfl hj (Nat.lt_succ_self _)]
  simp [← countInto_all]

/-- `FCOUNT` refuses an input beyond the limits, before any access (R132). -/
theorem fcount_refuses {s : State} (hl : ¬ InLimits s.mem.rest) :
    fcount s = .refused .lengthLimit ∨ fcount s = .refused .countLimit := by
  by_cases h1 : Config.maxLen < s.mem.rest.length
  · left; simp only [fcount, if_pos h1]
  · right
    have h2 : (s.mem.rest.any fun b => decide (Config.maxCount < s.mem.rest.count b)) = true := by
      have : ¬ ∀ b : Byte, s.mem.rest.count b ≤ Config.maxCount := fun h => hl ⟨Nat.not_lt.1 h1, h⟩
      obtain ⟨b, hb⟩ := not_forall.1 this
      have hb := Nat.lt_of_not_le hb
      simp only [List.any_eq_true, decide_eq_true_eq]
      exact ⟨b, List.count_pos_iff.1 (by omega), hb⟩
    simp only [fcount, if_neg h1, if_pos h2]

/-! ### The emitting pass -/

theorem encodeAll_cons (c : CodeTable) (b : Byte) (l : List Byte) : c.encodeAll (b :: l) = c.bits b ++ c.encodeAll l := rfl

theorem encodeAll_append (c : CodeTable) (l m : List Byte) : c.encodeAll (l ++ m) = c.encodeAll l ++ c.encodeAll m := by
  simp [CodeTable.encodeAll]

theorem afterBits_consumed (s : State) (bits : List Bool) (n k : Nat) :
    ({ s.afterBits bits with mem := (s.afterBits bits).mem.consumed n k } : State) =
      State.afterBits { s with mem := s.mem.consumed n k } bits := by
  have h : State.pendingBits { s with mem := s.mem.consumed n k } = s.pendingBits := rfl
  simp only [State.afterBits, h]
  simp [Memory.wrote, Memory.consumed, Memory.append, List.drop_drop, Nat.add_comm]

/-- A byte with a code is emitted (R204). -/
theorem emitByte_works {s : State} {b : Byte} (ha : s.mem.WorksFor (fullBytes (s.pendingBits ++ s.code.bits b)).length)
    (hw : s.WriterOk) (hb : Table.entry s.code.len b ≠ 0) : emitByte b s = .ok () (s.afterBits (s.code.bits b)) := by
  rw [emitByte, if_neg hb, bwbits_works ha hw, CodeTable.bits]

/-- A byte with a code, a write of a byte that the code fills failing (R251). -/
theorem emitByte_fails {s : State} {b : Byte} {j k : Nat} (ha : s.mem.FailsAfter j k) (hw : s.WriterOk)
    (hb : Table.entry s.code.len b ≠ 0) (hj : j < (fullBytes (s.pendingBits ++ s.code.bits b)).length) :
    ∃ acc n d, emitByte b s = .raised (takeError .io { s with
      bwAcc := acc, bwN := n, draws := d
      mem := s.mem.appended ((fullBytes (s.pendingBits ++ s.code.bits b)).take j ++
        (((fullBytes (s.pendingBits ++ s.code.bits b)).drop j).take 1).take k) (j + 1) }) := by
  rw [emitByte, if_neg hb, bwbits_eq]
  exact writeBits_fails ha hw hj

/-- A byte without a code is not (R205). -/
theorem emitByte_noCode {s : State} {b : Byte} (hb : Table.entry s.code.len b = 0) : emitByte b s = raise .noCode s := by
  rw [emitByte, if_pos hb]

/-- The bytes filled by the codes of a byte and of those behind it. -/
theorem fullBytes_codes (s : State) (b : Byte) (l : List Byte) (n k : Nat) :
    fullBytes (s.pendingBits ++ s.code.encodeAll (b :: l)) = fullBytes (s.pendingBits ++ s.code.bits b) ++
      fullBytes ((State.afterBits { s with mem := s.mem.consumed n k } (s.code.bits b)).pendingBits ++ s.code.encodeAll l) := by
  rw [afterBits_pending, encodeAll_cons, ← List.append_assoc, fullBytes_append]
  rfl

/-- The loop of `EEMIT` over bytes that have codes, one read a byte and one write a byte filled. -/
theorem emit_loop (l tail : List Byte) (fuel : Nat) {s : State}
    (ha : s.mem.WorksFor (l.length + (fullBytes (s.pendingBits ++ s.code.encodeAll l)).length)) (hw : s.WriterOk)
    (hr : s.mem.rest = l ++ tail) (hc : ∀ b ∈ l, Table.entry s.code.len b ≠ 0) :
    forEachByte emitByte (l.length + fuel) s =
      forEachByte emitByte fuel (State.afterBits { s with mem := s.mem.consumed l.length l.length } (s.code.encodeAll l)) := by
  induction l generalizing s with
  | nil =>
    clear ha
    have h : (State.afterBits { s with mem := s.mem.consumed 0 0 } (s.code.encodeAll [])) = s := by
      have h0 : ({ s with mem := s.mem.consumed 0 0 } : State) = s := by simp [Memory.consumed]
      rw [h0]
      exact afterBits_nil hw
    simp only [List.length_nil, Nat.zero_add]
    rw [h]
  | cons b l ih =>
    have hlen := congrArg List.length (fullBytes_codes s b l 1 1)
    rw [List.length_append] at hlen
    rw [hlen, List.length_cons] at ha
    have h1 : Memory.WorksFor (s.mem.consumed 1 1) (l.length + ((fullBytes (s.pendingBits ++ s.code.bits b)).length +
        (fullBytes ((State.afterBits { s with mem := s.mem.consumed 1 1 } (s.code.bits b)).pendingBits ++
          s.code.encodeAll l)).length)) := ha.drop (a := 1) rfl (by omega)
    rw [show (b :: l).length + fuel = (l.length + fuel) + 1 by simp; omega,
      forEachByte_cons _ _ (Memory.WorksFor.answer (n := 0) fun i hi => ha i (by omega)) (by rw [hr]; rfl),
      emitByte_works (s := { s with mem := s.mem.consumed 1 1 }) (h1.drop (a := 0) rfl (by
        show 0 + (fullBytes (s.pendingBits ++ s.code.bits b)).length ≤ _
        omega)) hw (hc b (by simp)),
      Res.bind_ok, ih (h1.drop (a := (fullBytes (s.pendingBits ++ s.code.bits b)).length) rfl (by
        show _ + (l.length + (fullBytes ((State.afterBits { s with mem := s.mem.consumed 1 1 } (s.code.bits b)).pendingBits ++
          s.code.encodeAll l)).length) ≤ _
        omega)) (afterBits_writerOk _ _)]
    · congr 1
      rw [encodeAll_cons, ← afterBits_afterBits, afterBits_consumed]
      simp only [State.afterBits, Memory.consumed_consumed, List.length_cons]
      rw [Nat.add_comm 1]
    · have : (State.afterBits { s with mem := s.mem.consumed 1 1 } (s.code.bits b)).mem.rest = s.mem.rest.drop 1 := by
        simp [State.afterBits, Memory.wrote, Memory.rest, Memory.consumed, List.drop_drop]
      rw [this, hr]
      rfl
    · intro c hcm
      exact hc c (by simp [hcm])

/-- Within the limits the counts are exact (R132). -/
theorem countsOf_toNat {l : List Byte} (hl : InLimits l) (b : Byte) : (Table.entry (countsOf l) b).toNat = l.count b := by
  have h := hl.2 b
  have h2 : Config.maxCount = 4294967295 := rfl
  rw [countsOf_entry, BitVec.toNat_ofNat, Nat.mod_eq_of_lt (by omega)]

/-- Within the limits the length is exact (R132). -/
theorem length_toNat {l : List Byte} (hl : InLimits l) : (BitVec.ofNat 64 l.length).toNat = l.length := by
  have h := hl.1
  have h2 : Config.maxLen = 18446744073709551615 := rfl
  rw [BitVec.toNat_ofNat, Nat.mod_eq_of_lt (by omega)]

theorem inLimits_replicate {n : Nat} (h : n ≤ 2 ^ 32 - 1) (v : Byte) : InLimits (List.replicate n v) := by
  constructor
  · rw [List.length_replicate]
    exact Nat.le_trans h (by decide)
  · intro b
    rw [List.count_replicate]
    split
    · exact h
    · exact Nat.zero_le _

theorem encodeAll_length (c : CodeTable) (l : List Byte) : (c.encodeAll l).length = (l.map fun b => (Table.entry c.len b).toNat).sum := by
  induction l with
  | nil => rfl
  | cons b l ih => rw [encodeAll_cons, List.length_append, ih, List.map_cons, List.sum_cons, CodeTable.bits, pat2bits_length]

/-- The number of code bits of an input (R241). -/
theorem payload_sum {l : List Byte} (hl : InLimits l) (c : CodeTable) :
    (symbols.map fun b => (Table.entry (countsOf l) b).toNat * (Table.entry c.len b).toNat).sum = (c.encodeAll l).length := by
  rw [encodeAll_length]
  refine Eq.trans ?_ (weighted_sum symbols_nodup mem_symbols (fun b => (Table.entry c.len b).toNat) l)
  exact congrArg List.sum (List.map_congr_left fun b _ => by rw [countsOf_toNat hl])

/-- A proper prefix of the code bits: whole codes, then a proper prefix of one. -/
theorem encodeAll_take (c : CodeTable) (l : List Byte) {n : Nat} (hn : n < (c.encodeAll l).length) :
    ∃ k q x p, ∃ hk : k < l.length, (c.encodeAll l).take n = c.encodeAll (l.take k) ++ q ∧ c.bits l[k] = q ++ x :: p ∧
      (c.encodeAll (l.take k)).length ≤ n ∧ n < (c.encodeAll (l.take (k + 1))).length := by
  induction l generalizing n with
  | nil => simp [CodeTable.encodeAll] at hn
  | cons b l ih =>
    rw [encodeAll_cons, List.length_append] at hn
    by_cases h : n < (c.bits b).length
    · refine ⟨0, (c.bits b).take n, (c.bits b)[n], (c.bits b).drop (n + 1), by simp, ?_, ?_, Nat.zero_le _, ?_⟩
      · rw [encodeAll_cons, List.take_append_of_le_length (Nat.le_of_lt h)]; rfl
      · rw [List.getElem_cons_drop, List.take_append_drop]; rfl
      · rw [List.take_succ_cons, List.take_zero, encodeAll_cons, List.length_append]; omega
    · obtain ⟨k, q, x, p, hk, h1, h2, h3, h4⟩ := ih (n := n - (c.bits b).length) (by omega)
      refine ⟨k + 1, q, x, p, by simp; omega, ?_, h2, ?_, ?_⟩
      · rw [encodeAll_cons, List.take_append, List.take_of_length_le (by omega), h1, List.take_succ_cons, encodeAll_cons, List.append_assoc]
      · rw [List.take_succ_cons, encodeAll_cons, List.length_append]; omega
      · rw [List.take_succ_cons, encodeAll_cons, List.length_append]; omega

end Sys2Proof.Machine
end

