-- ==== Sys2Proof/Laws/Walk.lean ====
section
/-! SUPPORT. The Bit Reader and the walk: `BRBIT` delivers the available bits in order (`44_bit_reader.md` rule R184), and
`DWALK` decodes what the tree says (`47_decoder.md` rules R218 to R223), whatever the tree. -/

namespace Sys2Proof.Machine

/-! ### `BRBIT` -/

theorem availableBits_length (s : State) : s.availableBits.length = s.brN.val + 8 * s.mem.rest.length := by
  have h : ∀ l : List Byte, (l.flatMap byteBits).length = 8 * l.length := by
    intro l
    induction l with
    | nil => rfl
    | cons b l ih => rw [List.flatMap_cons, List.length_append, byteBits_length, ih, List.length_cons]; omega
  simp [State.availableBits, h]

/-- Some bits of the byte are left: the next one is bit `BR_N - 1` (R38). -/
theorem availableBits_buffered {s : State} (h : s.brN.val ≠ 0) :
    s.availableBits = s.brBuf.getLsbD (s.brN.val - 1) :: State.availableBits { s with brN := s.brN - 1 } := by
  obtain ⟨k, hk⟩ : ∃ k, s.brN.val = k + 1 := ⟨s.brN.val - 1, by omega⟩
  have hlt := s.brN.isLt
  have hv : (s.brN - 1 : Fin 9).val = k := by
    rw [Fin.sub_def]
    simp only [Fin.val_one]
    omega
  simp only [State.availableBits, hk, hv, List.range_succ_eq_map, List.map_cons, List.map_map, List.cons_append]
  refine congrArg₂ List.cons (by simp) (congrArg (· ++ _) ?_)
  apply List.map_congr_left
  intro i _
  simp only [Function.comp, Nat.succ_eq_add_one]
  congr 1
  omega

/-- The byte pulled in: its eight bits come next (R181). -/
theorem availableBits_pulled {s : State} {b : Byte} {l : List Byte} (h : s.brN.val = 0) (hr : s.mem.rest = b :: l) :
    s.availableBits = State.availableBits { s with brBuf := b, brN := 8, mem := s.mem.consumed 1 1 } := by
  have hd : (s.mem.consumed 1 1).rest = l := by rw [Memory.consumed_rest, hr]; rfl
  simp only [State.availableBits, h, hr, hd, List.range_zero, List.map_nil, List.nil_append, List.flatMap_cons]
  rfl

/-- What reading one bit in `r` reads changes: a byte is pulled exactly when the buffer is exhausted (R181). -/
def BitRead (s t : State) (r : Nat) : Prop :=
  ∃ buf n, t = { s with brBuf := buf, brN := n, brOk := true, mem := s.mem.consumed r r } ∧ n.val + 1 = s.brN.val + 8 * r ∧
    (r = 0 ∧ s.brN.val ≠ 0 ∨ r = 1 ∧ s.brN.val = 0)

/-- A bit is available: `BRBIT` delivers it (R181, R184). -/
theorem brbit_some {s : State} (ha : s.brN.val = 0 → s.mem.answer = .works) {b : Bool} {bs : List Bool}
    (h : s.availableBits = b :: bs) :
    ∃ t r, brbit s = .ok (some b) t ∧ BitRead s t r ∧ t.availableBits = bs ∧ t.deliveredBit = some b := by
  have hv : ∀ u : State, u.brN.val ≠ 0 → (u.brN - 1 : Fin 9).val = u.brN.val - 1 := by
    intro u hu
    have := u.brN.isLt
    rw [Fin.sub_def]
    simp only [Fin.val_one]
    omega
  have key : ∀ u : State, u.brN.val ≠ 0 → u.availableBits = b :: bs →
      deliverBit u = .ok (some b) (setBrOk true { u with brN := u.brN - 1 }) ∧
        (setBrOk true { u with brN := u.brN - 1 }).availableBits = bs ∧
        (setBrOk true { u with brN := u.brN - 1 }).deliveredBit = some b := by
    intro u hn hu
    rw [availableBits_buffered hn] at hu
    have h1 := (List.cons.inj hu).1
    refine ⟨by rw [deliverBit, h1], (List.cons.inj hu).2, ?_⟩
    simp only [State.deliveredBit, setBrOk_brOk, if_true, setBrOk_brBuf, setBrOk_brN, hv u hn, h1]
  by_cases hn : s.brN.val = 0
  · match hr : s.mem.rest with
    | [] =>
      simp [State.availableBits, hn, hr] at h
    | x :: l =>
      have hp := availableBits_pulled hn hr
      rw [h] at hp
      have hm := memRead_consumed (n := 1) (ha hn) (by rw [hr]; simp)
      rw [hr] at hm
      have h8 : (8 : Fin 9).val ≠ 0 := by decide
      obtain ⟨k1, k2, k3⟩ := key { s with brBuf := x, brN := 8, mem := s.mem.consumed 1 1 } h8 hp.symm
      refine ⟨_, 1, ?_, ⟨x, 8 - 1, rfl, ?_, .inr ⟨rfl, hn⟩⟩, k2, k3⟩
      · rw [brbit, if_pos hn, hm, Res.bind_ok]
        exact k1
      · rw [hn]; rfl
  · obtain ⟨k1, k2, k3⟩ := key s hn h
    refine ⟨_, 0, ?_, ⟨s.brBuf, s.brN - 1, ?_, ?_, .inl ⟨rfl, hn⟩⟩, k2, k3⟩
    · rw [brbit, if_neg hn]
      exact k1
    · simp [setBrOk, Memory.consumed]
    · rw [hv s hn]; omega

/-- No bit is available: `BRBIT` fails and changes no more than the flag (R182). -/
theorem brbit_none {s : State} (hf : s.mem.NoFailure) (h : s.availableBits = []) :
    brbit s = .ok none { s with brOk := false, mem := s.mem.consumed 0 1 } := by
  have hl := availableBits_length s
  rw [h, List.length_nil] at hl
  have hn : s.brN.val = 0 := by omega
  have hr : s.mem.rest = [] := List.eq_nil_of_length_eq_zero (by omega)
  rw [brbit, if_pos hn, memRead_works (Memory.answer_of_noFailure hf), hr, Res.bind_ok]
  simp [setBrOk, Memory.consumed, Memory.answered]

/-! ### The walk along a path -/

/-- What a part of the walk that wrote `out` has changed (R219). -/
def Walked (s t : State) (out : List Byte) : Prop :=
  ∃ buf n ok cur pos io, t = { s with
    emitted := s.emitted + BitVec.ofNat 64 out.length
    brBuf := buf
    brN := n
    brOk := ok
    cur := cur
    mem := { s.mem with srcPos := pos, snk := s.mem.snk ++ out, snkPos := s.mem.snkPos + out.length, io := io } }

theorem Walked.refl (s : State) : Walked s s [] :=
  ⟨s.brBuf, s.brN, s.brOk, s.cur, s.mem.srcPos, s.mem.io, by simp⟩

theorem Walked.trans {s t u : State} {v w : List Byte} (h : Walked s t v) (k : Walked t u w) : Walked s u (v ++ w) := by
  obtain ⟨b1, n1, o1, c1, p1, i1, rfl⟩ := h
  obtain ⟨b2, n2, o2, c2, p2, i2, rfl⟩ := k
  refine ⟨b2, n2, o2, c2, p2, i2, ?_⟩
  simp [BitVec.ofNat_add, BitVec.add_assoc, Nat.add_assoc]

theorem Walked.tree {s t : State} {v : List Byte} (h : Walked s t v) : t.tree = s.tree := by
  obtain ⟨_, _, _, _, _, _, rfl⟩ := h; rfl

theorem Walked.size {s t : State} {v : List Byte} (h : Walked s t v) : t.size = s.size := by
  obtain ⟨_, _, _, _, _, _, rfl⟩ := h; rfl

theorem Walked.emitted {s t : State} {v : List Byte} (h : Walked s t v) : t.emitted = s.emitted + BitVec.ofNat 64 v.length := by
  obtain ⟨_, _, _, _, _, _, rfl⟩ := h; rfl

/-- A stretch of the walk that used `c` bits in `r` reads and wrote `out`, one access a byte, every access working. -/
def Stretch (s t : State) (c : Nat) (out : List Byte) (r : Nat) : Prop :=
  ∃ buf n ok cur, t = { s with
    emitted := s.emitted + BitVec.ofNat 64 out.length
    brBuf := buf
    brN := n
    brOk := ok
    cur := cur
    mem := { s.mem with
      srcPos := s.mem.srcPos + r, snk := s.mem.snk ++ out, snkPos := s.mem.snkPos + out.length
      io := s.mem.io.drop (r + out.length) } } ∧ n.val + c = s.brN.val + 8 * r ∧ (r = 0 ∨ n.val ≤ 7)

theorem Stretch.walked {s t : State} {c r : Nat} {v : List Byte} (h : Stretch s t c v r) : Walked s t v := by
  obtain ⟨b, n, o, cur, rfl, _⟩ := h
  exact ⟨b, n, o, cur, _, _, rfl⟩

theorem Stretch.refl (s : State) : Stretch s s 0 [] 0 := ⟨s.brBuf, s.brN, s.brOk, s.cur, by simp, by simp, .inl rfl⟩

theorem Stretch.trans {s t u : State} {c d r q : Nat} {v w : List Byte} (h : Stretch s t c v r) (k : Stretch t u d w q) :
    Stretch s u (c + d) (v ++ w) (r + q) := by
  obtain ⟨b1, n1, o1, c1, rfl, h1, h2⟩ := h
  obtain ⟨b2, n2, o2, c2, rfl, k1, k2⟩ := k
  refine ⟨b2, n2, o2, c2, ?_, ?_, ?_⟩
  · simp [BitVec.ofNat_add, BitVec.add_assoc, Nat.add_assoc, Nat.add_left_comm]
  all_goals simp only at k1; omega

theorem Stretch.io {s t : State} {c r : Nat} {v : List Byte} (h : Stretch s t c v r) :
    t.mem.io = s.mem.io.drop (r + v.length) := by obtain ⟨_, _, _, _, rfl, _⟩ := h; rfl

theorem Stretch.srcPos {s t : State} {c r : Nat} {v : List Byte} (h : Stretch s t c v r) : t.mem.srcPos = s.mem.srcPos + r := by
  obtain ⟨_, _, _, _, rfl, _⟩ := h; rfl

/-- How many bits are left in the buffer. -/
theorem Stretch.bits {s t : State} {c r : Nat} {v : List Byte} (h : Stretch s t c v r) :
    t.brN.val + c = s.brN.val + 8 * r ∧ (r = 0 ∨ t.brN.val ≤ 7) := by
  obtain ⟨_, _, _, _, rfl, h⟩ := h
  exact h

/-- A byte is pulled only when its bits are needed (R219). -/
theorem Stretch.reads {s t : State} {c r : Nat} {v : List Byte} (h : Stretch s t c v r) : r = (c + 7 - s.brN.val) / 8 := by
  have := h.bits
  have := t.brN.isLt
  omega

theorem Stretch.noFailure {s t : State} {c r : Nat} {v : List Byte} (h : Stretch s t c v r) (hf : s.mem.NoFailure) :
    t.mem.NoFailure := Memory.noFailure_drop hf h.io

theorem BitRead.stretch {s t : State} {r : Nat} (h : BitRead s t r) (cur : Handle) : Stretch s { t with cur := cur } 1 [] r := by
  obtain ⟨buf, n, rfl, h1, h2⟩ := h
  exact ⟨buf, n, true, cur, by simp [Memory.consumed], h1, by omega⟩

/-- A descent along present children (R221): the bits are consumed, nothing is written. -/
theorem walk_descend {root : Handle} (p : List Bool) {rest : List Bool} (fuel : Nat) {s : State} {g : Handle}
    (ha : s.mem.WorksFor ((p.length + 7 - s.brN.val) / 8)) (hb : s.availableBits = p ++ rest)
    (hg : s.tree.follow s.cur p = some g) (he : s.emitted ≠ s.size) :
    ∃ t r, walkLoop root (p.length + fuel) s = walkLoop root fuel t ∧ Stretch s t p.length [] r ∧ t.cur = g ∧
      t.availableBits = rest := by
  induction p generalizing s with
  | nil =>
    cases hg
    exact ⟨s, 0, by simp, Stretch.refl s, rfl, hb⟩
  | cons b p ih =>
    rw [TreeRegs.follow.eq_def] at hg
    simp only at hg
    rw [List.length_cons] at ha
    obtain ⟨t, r, hbr, hread, hav, _⟩ := brbit_some (b := b) (bs := p ++ rest)
      (fun h0 => Memory.WorksFor.answer (n := 0) fun i hi => ha i (by omega)) (by rw [hb]; rfl)
    match hn : s.tree.nodeAt s.cur with
    | .leaf x f => rw [hn] at hg; cases hg
    | .internal f l r' =>
      rw [hn] at hg
      simp only at hg
      match hc : (if b then r' else l) with
      | none => rw [hc] at hg; cases hg
      | some c =>
        rw [hc, Option.bind_some] at hg
        have hst := hread.stretch c
        have hbits := hst.bits
        obtain ⟨u, q, h1, h2, h3, h4⟩ := ih (s := { t with cur := c })
          (ha.drop hst.io (by simp only [List.length_nil] at hbits ⊢; omega)) hav
          (by rw [hst.walked.tree]; exact hg)
          (by
            have h1 := hst.walked.emitted
            have h2 := hst.walked.size
            simp only [List.length_nil, BitVec.add_zero] at h1
            rw [h1, h2]
            exact he)
        refine ⟨u, r + q, ?_, by rw [List.length_cons, Nat.add_comm p.length]; exact hst.trans h2, h3, h4⟩
        rw [show (b :: p).length + fuel = (p.length + fuel) + 1 by simp; omega, walkLoop, if_neg he, walkStep, hn]
        simp only [descendStep, hbr, Res.bind_ok, hc]
        exact h1

/-- The path of a leaf and the emit step at its end. -/
theorem walk_symbol {root : Handle} {p rest : List Bool} (fuel : Nat) {s : State} {g : Handle} {b : Byte} {f : Weight}
    (ha : s.mem.WorksFor ((p.length + 7 - s.brN.val) / 8 + 1)) (hb : s.availableBits = p ++ rest)
    (hg : s.tree.follow s.cur p = some g) (hl : s.tree.nodeAt g = .leaf b f) (he : s.emitted ≠ s.size) :
    ∃ t r, walkLoop root (p.length + 1 + fuel) s = walkLoop root fuel t ∧ Stretch s t p.length [b] r ∧ t.cur = root ∧
      t.availableBits = rest := by
  obtain ⟨t, r, h1, h2, h3, h4⟩ := walk_descend (root := root) p (1 + fuel) (ha.drop (a := 0) rfl (by omega)) hb hg he
  have hat : t.mem.answer = .works :=
    (ha.drop (b := 1) h2.io (by rw [h2.reads]; exact Nat.le_refl _) : t.mem.WorksFor 1).answer
  have het : t.emitted ≠ t.size := by
    rw [h2.walked.emitted, h2.walked.size]
    simpa using he
  have hn : t.tree.nodeAt t.cur = .leaf b f := by rw [h2.walked.tree, h3]; exact hl
  refine ⟨{ t with emitted := t.emitted + 1, cur := root, mem := t.mem.answered.append [b] }, r, ?_, ?_, rfl, h4⟩
  · rw [Nat.add_assoc, h1, Nat.add_comm 1, walkLoop, if_neg het, walkStep, hn]
    simp only [emitStep, memWrite_works hat, Res.bind_ok]
  · refine Stretch.trans (v := []) (d := 0) (q := 0) h2 ⟨t.brBuf, t.brN, t.brOk, root, ?_, rfl, .inl rfl⟩
    simp [Memory.append, Memory.answered]

/-- The walk from the root over a list of symbols with their paths, as many as are still to come or fewer (R97, R218). -/
theorem walk_symbols {root : Handle} (ps : List (Byte × List Bool)) {rest : List Bool} (fuel : Nat) {s : State}
    (ha : s.mem.WorksFor (((ps.flatMap Prod.snd).length + 7 - s.brN.val) / 8 + ps.length)) (hc : s.cur = root)
    (hb : s.availableBits = ps.flatMap Prod.snd ++ rest)
    (hp : ∀ x ∈ ps, ∃ g f, s.tree.follow root x.2 = some g ∧ s.tree.nodeAt g = .leaf x.1 f)
    (hs : s.emitted.toNat + ps.length ≤ s.size.toNat) :
    ∃ t r, walkLoop root ((ps.flatMap Prod.snd).length + ps.length + fuel) s = walkLoop root fuel t ∧
      Stretch s t (ps.flatMap Prod.snd).length (ps.map Prod.fst) r ∧ t.cur = root ∧ t.availableBits = rest := by
  induction ps generalizing s with
  | nil => exact ⟨s, 0, by simp, Stretch.refl s, hc, by simpa using hb⟩
  | cons x ps ih =>
    obtain ⟨g, f, hg, hl⟩ := hp x (by simp)
    simp only [List.length_cons, List.flatMap_cons, List.length_append] at hs ha
    have hne : s.emitted ≠ s.size := by
      intro e
      rw [e] at hs
      omega
    obtain ⟨t, r, h1, h2, h3, h4⟩ := walk_symbol (root := root) (p := x.2) (rest := ps.flatMap Prod.snd ++ rest)
      ((ps.flatMap Prod.snd).length + ps.length + fuel) (ha.drop (a := 0) rfl (by omega))
      (by rw [hb]; simp [List.append_assoc]) (by rw [hc]; exact hg) hl hne
    have hbits := h2.bits
    have hem : t.emitted.toNat = s.emitted.toNat + 1 := by
      rw [h2.walked.emitted]
      have := s.size.isLt
      simp only [List.length_singleton, BitVec.toNat_add, BitVec.toNat_ofNat]
      omega
    obtain ⟨u, q, k1, k2, k3, k4⟩ := ih (s := t)
      (ha.drop h2.io (by simp only [List.length_singleton]; omega)) h3 h4
      (fun y hy => by rw [h2.walked.tree]; exact hp y (by simp [hy])) (by rw [hem, h2.walked.size]; omega)
    refine ⟨u, r + q, ?_, by rw [List.flatMap_cons, List.length_append]; exact h2.trans k2, k3, k4⟩
    rw [← k1, ← h1]
    congr 1
    simp only [List.flatMap_cons, List.length_append, List.length_cons]
    omega

theorem walkLoop_done {root : Handle} {s : State} (h : s.emitted = s.size) (fuel : Nat) : walkLoop root fuel s = .ok () s := by
  cases fuel <;> simp [walkLoop, h]

/-! ### `DWALK` -/

theorem dwalk_noTree {s : State} (h : s.tree.root = none) : dwalk s = raise .noTree s := by
  simp [dwalk, h]

/-- The start of the walk: some symbols are decoded, and the loop stands at the root before the rest. -/
theorem dwalk_prefix {s : State} {root : Handle} (hr : s.tree.root = some root) (ps : List (Byte × List Bool))
    (ha : s.mem.WorksFor (((ps.flatMap Prod.snd).length + 7 - s.brN.val) / 8 + ps.length)) {rest : List Bool}
    (hb : s.availableBits = ps.flatMap Prod.snd ++ rest)
    (hp : ∀ x ∈ ps, ∃ g f, s.tree.follow root x.2 = some g ∧ s.tree.nodeAt g = .leaf x.1 f) (hs : ps.length ≤ s.size.toNat) :
    ∃ t fuel r, dwalk s = walkLoop root fuel t ∧
      Stretch { s with cur := root, emitted := 0 } t (ps.flatMap Prod.snd).length (ps.map Prod.fst) r ∧ t.cur = root ∧
      t.availableBits = rest ∧ rest.length + (s.size.toNat - ps.length) < fuel := by
  have hl := availableBits_length s
  rw [hb, List.length_append] at hl
  obtain ⟨t, r, h1, h2, h3, h4⟩ := walk_symbols (root := root) ps (rest := rest) (rest.length + (s.size.toNat - ps.length) + 1)
    (s := { s with cur := root, emitted := 0 }) ha rfl hb hp (by simpa using hs)
  refine ⟨t, _, r, ?_, h2, h3, h4, Nat.lt_succ_self _⟩
  rw [dwalk, hr]
  simp only
  rw [← h1]
  congr 1
  simp only [walkBound]
  omega

/-- `DWALK` over the paths of `SIZE` symbols writes the symbols and stops there (R218, R219). -/
theorem dwalk_decodes {s : State} {root : Handle} (hr : s.tree.root = some root) (hf : s.mem.NoFailure)
    (ps : List (Byte × List Bool)) {rest : List Bool} (hb : s.availableBits = ps.flatMap Prod.snd ++ rest)
    (hp : ∀ x ∈ ps, ∃ g f, s.tree.follow root x.2 = some g ∧ s.tree.nodeAt g = .leaf x.1 f) (hs : ps.length = s.size.toNat) :
    ∃ t r, dwalk s = .ok () t ∧
      Stretch { s with cur := root, emitted := 0 } t (ps.flatMap Prod.snd).length (ps.map Prod.fst) r ∧ t.cur = root ∧
      t.availableBits = rest ∧ t.emitted = s.size := by
  obtain ⟨t, fuel, r, h1, h2, h3, h4, _⟩ := dwalk_prefix hr ps (hf.worksFor _) hb hp (Nat.le_of_eq hs)
  have he : t.emitted = s.size := by
    rw [h2.walked.emitted, List.length_map, hs]
    simp
  have ht : t.emitted = t.size := by rw [he, h2.walked.size]
  exact ⟨t, r, by rw [h1, walkLoop_done ht], h2, h3, h4, he⟩

theorem walked_emitted_ne {s t : State} {root : Handle} {v : List Byte} (h : Walked { s with cur := root, emitted := 0 } t v)
    (hs : v.length < s.size.toNat) : t.emitted ≠ t.size := by
  rw [h.emitted, h.size]
  intro e
  have := congrArg BitVec.toNat e
  have hlt := s.size.isLt
  simp only [BitVec.toNat_add, BitVec.toNat_ofNat] at this
  simp at this
  omega

/-- `EMITTED` counts the symbols written while there are more to come (R219). -/
theorem walked_emitted {s t : State} {root : Handle} {v : List Byte} (h : Walked { s with cur := root, emitted := 0 } t v)
    (hs : v.length < s.size.toNat) : t.emitted.toNat = v.length := by
  rw [h.emitted]
  have := s.size.isLt
  simp
  omega

/-- The walk over some symbols and then along a path to a node: the loop stands there, with steps left. -/
theorem dwalk_reaches {s : State} {root : Handle} (hr : s.tree.root = some root) (ps : List (Byte × List Bool)) {q rest : List Bool}
    (ha : s.mem.WorksFor (((ps.flatMap Prod.snd).length + q.length + 7 - s.brN.val) / 8 + ps.length))
    (hb : s.availableBits = ps.flatMap Prod.snd ++ (q ++ rest))
    (hp : ∀ x ∈ ps, ∃ g f, s.tree.follow root x.2 = some g ∧ s.tree.nodeAt g = .leaf x.1 f) {g : Handle}
    (hq : s.tree.follow root q = some g) (hs : ps.length < s.size.toNat) :
    ∃ t fuel r, dwalk s = (walkStep root t).bind (fun _ u => walkLoop root fuel u) ∧
      Stretch { s with cur := root, emitted := 0 } t ((ps.flatMap Prod.snd).length + q.length) (ps.map Prod.fst) r ∧ t.cur = g ∧
      t.availableBits = rest := by
  obtain ⟨t, fuel, r, h1, h2, h3, h4, h6⟩ := dwalk_prefix hr ps (ha.drop (a := 0) rfl (by omega)) hb hp (Nat.le_of_lt hs)
  have he := walked_emitted_ne h2.walked (by simpa using hs)
  have hbits := h2.bits
  have hlen : (ps.map Prod.fst).length = ps.length := List.length_map _
  simp only at hbits
  rw [List.length_append] at h6
  obtain ⟨fuel, rfl⟩ : ∃ k, fuel = q.length + (k + 1) := ⟨fuel - q.length - 1, by omega⟩
  obtain ⟨u, r', k1, k2, k3, k4⟩ := walk_descend (root := root) (g := g) q (fuel + 1)
    (ha.drop (m := s.mem) h2.io (by omega)) h4 (by rw [h3, h2.walked.tree]; exact hq) he
  have heu : u.emitted ≠ u.size := by
    rw [k2.walked.emitted, k2.walked.size]
    simpa using he
  refine ⟨u, fuel, r + r', ?_, ?_, k3, k4⟩
  · rw [h1, k1, walkLoop, if_neg heu]
  · have := h2.trans k2
    rwa [List.append_nil] at this

/-- The bits run out before `SIZE` symbols: `UnexpectedEnd`, the symbols decoded so far in the sink (R223). -/
theorem dwalk_unexpectedEnd {s : State} {root : Handle} (hr : s.tree.root = some root) (hf : s.mem.NoFailure)
    (ps : List (Byte × List Bool)) {q : List Bool} (hb : s.availableBits = ps.flatMap Prod.snd ++ q)
    (hp : ∀ x ∈ ps, ∃ g f, s.tree.follow root x.2 = some g ∧ s.tree.nodeAt g = .leaf x.1 f) {g : Handle} {f : Weight}
    {l r : Option Handle} (hq : s.tree.follow root q = some g) (hg : s.tree.nodeAt g = .internal f l r)
    (hs : ps.length < s.size.toNat) :
    ∃ t, dwalk s = .raised (takeError .unexpectedEnd t) ∧ Walked { s with cur := root, emitted := 0 } t (ps.map Prod.fst) ∧
      t.brOk = false ∧ t.availableBits = [] ∧ t.cur = g := by
  obtain ⟨u, fuel, n, h1, h2, h3, h4⟩ := dwalk_reaches hr ps (q := q) (rest := []) (hf.worksFor _) (by rwa [List.append_nil]) hp hq hs
  have hn : u.tree.nodeAt u.cur = .internal f l r := by rw [h2.walked.tree, h3]; exact hg
  have hw : Walked u { u with brOk := false, mem := u.mem.consumed 0 1 } [] :=
    ⟨u.brBuf, u.brN, false, u.cur, u.mem.srcPos, u.mem.io.drop 1, by simp [Memory.consumed]⟩
  refine ⟨{ u with brOk := false, mem := u.mem.consumed 0 1 }, ?_, ?_, rfl, h4, h3⟩
  · rw [h1, walkStep, hn]
    simp only [descendStep, brbit_none (h2.noFailure hf) h4, Res.bind_ok, raise, Res.bind_raised]
  · have := h2.walked.trans hw
    rwa [List.append_nil] at this

/-- A bit selects an absent child: `MissingChild` (R222). -/
theorem dwalk_missingChild {s : State} {root : Handle} (hr : s.tree.root = some root) (hf : s.mem.NoFailure)
    (ps : List (Byte × List Bool)) {q rest : List Bool} {b : Bool}
    (hb : s.availableBits = ps.flatMap Prod.snd ++ (q ++ b :: rest))
    (hp : ∀ x ∈ ps, ∃ g f, s.tree.follow root x.2 = some g ∧ s.tree.nodeAt g = .leaf x.1 f) {g : Handle} {f : Weight}
    {l r : Option Handle} (hq : s.tree.follow root q = some g) (hg : s.tree.nodeAt g = .internal f l r)
    (ha : (if b then r else l) = none) (hs : ps.length < s.size.toNat) :
    ∃ t, dwalk s = .raised (takeError .missingChild t) ∧ Walked { s with cur := root, emitted := 0 } t (ps.map Prod.fst) ∧
      t.brOk = true ∧ t.availableBits = rest := by
  obtain ⟨u, fuel, n, h1, h2, h3, h4⟩ := dwalk_reaches hr ps (q := q) (rest := b :: rest) (hf.worksFor _) hb hp hq hs
  have hn : u.tree.nodeAt u.cur = .internal f l r := by rw [h2.walked.tree, h3]; exact hg
  obtain ⟨v, m, m1, m2, m3, _⟩ := brbit_some (fun _ => Memory.answer_of_noFailure (h2.noFailure hf)) h4
  refine ⟨v, ?_, ?_, ?_, m3⟩
  · rw [h1, walkStep, hn]
    simp only [descendStep, m1, Res.bind_ok, ha, raise, Res.bind_raised]
  · have := h2.walked.trans (m2.stretch v.cur).walked
    rwa [List.append_nil] at this
  · obtain ⟨_, _, rfl, _⟩ := m2
    rfl

/-! ### Failing accesses -/

/-- The write of a symbol fails: what it landed is in the sink behind the symbols before it (R251, X15). -/
theorem dwalk_write_fails {s : State} {root : Handle} (hr : s.tree.root = some root) (ps : List (Byte × List Bool))
    {p rest : List Bool} {k : Nat}
    (ha : s.mem.FailsAfter (((ps.flatMap Prod.snd).length + p.length + 7 - s.brN.val) / 8 + ps.length) k)
    (hb : s.availableBits = ps.flatMap Prod.snd ++ (p ++ rest))
    (hp : ∀ x ∈ ps, ∃ g f, s.tree.follow root x.2 = some g ∧ s.tree.nodeAt g = .leaf x.1 f) {g : Handle} {b : Byte} {f : Weight}
    (hq : s.tree.follow root p = some g) (hg : s.tree.nodeAt g = .leaf b f) (hs : ps.length < s.size.toNat) :
    ∃ t r, dwalk s = .raised (takeError .io { t with mem := t.mem.answered.append ([b].take k) }) ∧
      Stretch { s with cur := root, emitted := 0 } t ((ps.flatMap Prod.snd).length + p.length) (ps.map Prod.fst) r ∧ t.cur = g ∧
      t.availableBits = rest := by
  obtain ⟨u, fuel, n, h1, h2, h3, h4⟩ := dwalk_reaches hr ps ha.1 hb hp hq hs
  have hn : u.tree.nodeAt u.cur = .leaf b f := by rw [h2.walked.tree, h3]; exact hg
  have hu : u.mem.FailsAfter 0 k := ha.drop h2.io (by rw [h2.reads, List.length_map]; rfl)
  refine ⟨u, n, ?_, h2, h3, h4⟩
  rw [h1, walkStep, hn]
  simp only [emitStep, memWrite_fails hu.answer, raise, Res.bind_raised]

/-- The read of a payload byte fails: the walk stands on the node whose bit it wanted (R251). -/
theorem dwalk_read_fails {s : State} {root : Handle} (hr : s.tree.root = some root) (ps : List (Byte × List Bool))
    {q rest : List Bool} {k c : Nat} (hc : (ps.flatMap Prod.snd).length + q.length = s.brN.val + 8 * c)
    (ha : s.mem.FailsAfter (c + ps.length) k)
    (hb : s.availableBits = ps.flatMap Prod.snd ++ (q ++ rest))
    (hp : ∀ x ∈ ps, ∃ g f, s.tree.follow root x.2 = some g ∧ s.tree.nodeAt g = .leaf x.1 f) {g : Handle} {f : Weight}
    {l r : Option Handle} (hq : s.tree.follow root q = some g) (hg : s.tree.nodeAt g = .internal f l r)
    (hs : ps.length < s.size.toNat) :
    ∃ t, dwalk s = .raised (takeError .io { t with mem := t.mem.answered }) ∧
      Stretch { s with cur := root, emitted := 0 } t (s.brN.val + 8 * c) (ps.map Prod.fst) c ∧ t.cur = g ∧ t.brN = 0 ∧
      t.availableBits = rest := by
  have hj : (((ps.flatMap Prod.snd).length + q.length + 7 - s.brN.val) / 8) = c := by omega
  obtain ⟨u, fuel, n, h1, h2, h3, h4⟩ := dwalk_reaches hr ps (by rw [hj]; exact ha.1) hb hp hq hs
  have hn : u.tree.nodeAt u.cur = .internal f l r := by rw [h2.walked.tree, h3]; exact hg
  obtain rfl : n = c := h2.reads.trans hj
  have hu : u.mem.FailsAfter 0 k := ha.drop h2.io (by rw [List.length_map]; rfl)
  have hbits := h2.bits
  have h0 : u.brN.val = 0 := by simp only at hbits; omega
  rw [hc] at h2
  refine ⟨u, ?_, h2, h3, Fin.ext h0, h4⟩
  rw [h1, walkStep, hn]
  simp only [descendStep, brbit, if_pos h0, memRead_fails hu.answer, raise, Res.bind_raised]

end Sys2Proof.Machine
end

