-- ==== Sys2Proof/Laws/Frames.lean ====
section
/-! SUPPORT. Everything an operation can do, whatever its accesses answer: that it ends (`70_reset_and_hazards.md` rule
R294), the fields it may change, and what it may have appended to the sink (`20_memory.md` rule R71). -/

namespace Sys2Proof.Machine

/-- Every end of an operation, with no stop among them: `Q` where it returns; where it raises, the error and the state in
which it was raised satisfy `F`. -/
def Res.Does {α : Type} (r : Res α) (Q : α → State → Prop) (F : Err → State → Prop) : Prop :=
  match r with
  | .ok a t => Q a t
  | .raised t => ∃ e u, F e u ∧ t = takeError e u
  | .fault _ => False
  | .refused _ => False

namespace Res

variable {α β : Type}

theorem Does.bind {r : Res α} {k : α → State → Res β} {P : α → State → Prop} {Q : β → State → Prop} {F G : Err → State → Prop}
    (h : r.Does P F) (hk : ∀ a t, P a t → (k a t).Does Q G) (hF : ∀ e u, F e u → G e u) : (r.bind k).Does Q G := by
  match r, h with
  | .ok a t, h => exact hk a t h
  | .raised t, ⟨e, u, h, ht⟩ => exact ⟨e, u, hF e u h, ht⟩

theorem Does.mono {r : Res α} {P Q : α → State → Prop} {F G : Err → State → Prop} (h : r.Does P F)
    (hQ : ∀ a t, P a t → Q a t) (hF : ∀ e u, F e u → G e u) : r.Does Q G := by
  match r, h with
  | .ok a t, h => exact hQ a t h
  | .raised t, ⟨e, u, h, ht⟩ => exact ⟨e, u, hF e u h, ht⟩

theorem does_raise {Q : α → State → Prop} {F : Err → State → Prop} {e : Err} {u : State} (h : F e u) :
    (raise e u : Res α).Does Q F := ⟨e, u, h, rfl⟩

theorem Does.ends {r : Res α} {Q : α → State → Prop} {F : Err → State → Prop} (h : r.Does Q F) :
    ∃ t, r.outcome = .next t ∧ ((∃ a, Q a t) ∨ ∃ e u, F e u ∧ t = takeError e u) := by
  match r, h with
  | .ok a t, h => exact ⟨t, rfl, .inl ⟨a, h⟩⟩
  | .raised t, h => exact ⟨t, rfl, .inr h⟩

theorem Does.next {r : Res α} {Q : α → State → Prop} {F : Err → State → Prop} (h : r.Does Q F) {t : State}
    (ht : r.outcome = .next t) : (∃ a, Q a t) ∨ ∃ e u, F e u ∧ t = takeError e u := by
  obtain ⟨t', ht', h'⟩ := h.ends
  rw [ht'] at ht
  cases ht
  exact h'

end Res

/-! ### Stream accesses -/

/-- The state with the source cursor and the collaborators' answers moved on. -/
def State.cursor (s : State) (pos : Nat) (io : List IOAnswer) : State := { s with mem := { s.mem with srcPos := pos, io := io } }

theorem memRead_does (n : Nat) (s : State) :
    (memRead n s).Does (fun r t => r = s.mem.rest.take n ∧ t = s.cursor (s.mem.srcPos + r.length) s.mem.io.tail)
      (fun e u => e = .io ∧ u = s.cursor s.mem.srcPos s.mem.io.tail) := by
  cases h : s.mem.answer with
  | works => rw [memRead_works h]; exact ⟨rfl, rfl⟩
  | fails k => rw [memRead_fails h]; exact Res.does_raise ⟨rfl, rfl⟩

theorem srcRewind_does (s : State) :
    (srcRewind s).Does
      (fun _ t => t = { s with mem := { s.mem.answered with src := s.mem.rewound.getD s.mem.src, srcPos := 0, rewound := none } })
      (fun e u => e = .io ∧ u = { s with mem := s.mem.answered }) := by
  cases h : s.mem.answer with
  | works => rw [srcRewind_works h]; rfl
  | fails k => rw [srcRewind_fails h]; exact Res.does_raise ⟨rfl, rfl⟩

theorem memWrite_does (v : List Byte) (s : State) :
    (memWrite v s).Does (fun _ t => t = { s with mem := s.mem.answered.append v })
      (fun e u => e = .io ∧ ∃ k, u = { s with mem := s.mem.answered.append (v.take k) }) := by
  cases h : s.mem.answer with
  | works => rw [memWrite_works h]; rfl
  | fails k => rw [memWrite_fails h]; exact Res.does_raise ⟨rfl, k, rfl⟩

/-- The loop over the source: `P l` holds before the read that finds `l`, `Q` at the end. -/
theorem forEachByte_does {body : Byte → State → Res Unit} {P : List Byte → State → Prop} {Q : State → Prop}
    {F : Err → State → Prop} (hrest : ∀ l t, P l t → t.mem.rest = l)
    (hstep : ∀ b l t, P (b :: l) t → (body b (t.cursor (t.mem.srcPos + 1) t.mem.io.tail)).Does (fun _ u => P l u) F)
    (hfail : ∀ l t, P l t → F .io (t.cursor t.mem.srcPos t.mem.io.tail))
    (hend : ∀ t, P [] t → Q (t.cursor t.mem.srcPos t.mem.io.tail)) (fuel : Nat) {l : List Byte} {s : State} (h : P l s)
    (hf : l.length < fuel) : (forEachByte body fuel s).Does (fun _ t => Q t) F := by
  induction fuel generalizing l s with
  | zero => omega
  | succ fuel ih =>
    have hr := hrest l s h
    refine (memRead_does 1 s).bind ?_ (by rintro e u ⟨rfl, rfl⟩; exact hfail l s h)
    rintro r t ⟨rfl, rfl⟩
    rw [hr]
    match l, h with
    | [], h => exact hend s h
    | b :: l, h =>
      exact (hstep b l s h).bind (fun _ u hu => ih hu (by simpa using hf)) fun _ _ hu => hu

theorem rest_cursor {s : State} {b : Byte} {l : List Byte} (h : s.mem.rest = b :: l) (io : List IOAnswer) :
    (s.cursor (s.mem.srcPos + 1) io).mem.rest = l := by
  have : (s.cursor (s.mem.srcPos + 1) io).mem.rest = s.mem.rest.drop 1 := by
    simp [State.cursor, Memory.rest, List.drop_drop]
  rw [this, h]
  rfl

theorem srcPos_lt {m : Memory} {b : Byte} {l : List Byte} (h : m.rest = b :: l) : m.srcPos < m.src.length := by
  by_contra hn
  rw [Memory.rest, List.drop_eq_nil_of_le (Nat.le_of_not_lt hn)] at h
  cases h

theorem wf_cursor_take {s : State} (h : s.mem.wf) (n : Nat) (io : List IOAnswer) :
    (s.cursor (s.mem.srcPos + (s.mem.rest.take n).length) io).mem.wf := Memory.wf_read h n

/-! ### `FCOUNT`, `TBUILD`, `CDERIVE` -/

/-- What `FCOUNT` may change (R131). -/
def Counted (s t : State) : Prop :=
  (∃ freq size pos io, t = { s with freq := freq, size := size, mem := { s.mem with srcPos := pos, io := io } }) ∧
    (s.mem.wf → t.mem.wf)

/-- The count of a list of bytes already read, from the state in which `FCOUNT` was started. -/
structure Counting (s : State) (done l : List Byte) (t : State) : Prop where
  input : done ++ l = s.mem.rest
  rest : t.mem.rest = l
  freq : t.freq = countsOf done
  size : t.size = BitVec.ofNat 64 done.length
  counted : Counted s t

theorem countsOf_snoc (l : List Byte) (b : Byte) :
    Table.put (countsOf l) b (Table.entry (countsOf l) b + 1) = countsOf (l ++ [b]) := by
  rw [← countInto_all, ← countInto_all, countInto, countInto, List.foldl_append]
  rfl

theorem fcount_does {s : State} (hl : InLimits s.mem.rest) :
    (fcount s).Does
      (fun _ t => Counted s t ∧ t.freq = countsOf s.mem.rest ∧ t.size = BitVec.ofNat 64 s.mem.rest.length)
      fun e u => e = .io ∧ Counted s u := by
  rw [fcount_limits hl]
  refine forEachByte_does (P := fun l t => ∃ done, Counting s done l t) ?_ ?_ ?_ ?_ _
    (l := s.mem.rest) ⟨[], rfl, rfl, ?_, rfl, ⟨_, _, _, _, rfl⟩, fun h => h⟩ (Nat.lt_succ_self _)
  · rintro l t ⟨_, h⟩; exact h.rest
  · rintro b l t ⟨done, hin, hr, hf, hz, ⟨freq, size, pos, io, rfl⟩, hw⟩
    refine ⟨done ++ [b], by rw [← hin]; simp, rest_cursor hr _, ?_, ?_, ⟨_, _, _, _, rfl⟩, fun h => ⟨?_, (hw h).2⟩⟩
    · rw [← countsOf_snoc, ← hf]
      rfl
    · rw [List.length_append, BitVec.ofNat_add, ← hz]
      rfl
    · exact srcPos_lt hr
  · rintro l t ⟨done, hin, hr, hf, hz, ⟨freq, size, pos, io, rfl⟩, hw⟩
    exact ⟨rfl, ⟨_, _, _, _, rfl⟩, hw⟩
  · rintro t ⟨done, hin, hr, hf, hz, ⟨freq, size, pos, io, rfl⟩, hw⟩
    rw [List.append_nil] at hin
    rw [hin] at hf hz
    exact ⟨⟨⟨_, _, _, _, rfl⟩, hw⟩, hf, hz⟩
  · rw [← countInto_all]
    rfl

/-! ### The Bit Writer -/

/-- What a returning use of the Bit Writer on a string of bits has done (R171, R176): `v` are the bytes appended. -/
structure Wrote (bits : List Bool) (s t : State) (v : List Byte) : Prop where
  shape : ∃ acc n io, t = { s with bwAcc := acc, bwN := n, mem := { s.mem.append v with io := io } }
  length : v.length = (s.bwN.val + bits.length) / 8
  pending : t.bwN.val = (s.bwN.val + bits.length) % 8
  value : s.WriterOk → v = fullBytes (s.pendingBits ++ bits) ∧ t.WriterOk ∧ t.pendingBits = leftover (s.pendingBits ++ bits)

/-- What a raising use of the Bit Writer has done by then. -/
structure WroteSome (bits : List Bool) (s t : State) (v : List Byte) : Prop where
  shape : ∃ acc n draws io, t = { s with bwAcc := acc, bwN := n, draws := draws, mem := { s.mem.append v with io := io } }
  length : v.length ≤ (s.bwN.val + bits.length) / 8
  value : s.WriterOk → v <+: fullBytes (s.pendingBits ++ bits)

theorem Wrote.nil {s : State} : Wrote [] s s [] := by
  have hl : s.pendingBits.length < 8 := by rw [pendingBits_length]; exact s.bwN.isLt
  refine ⟨⟨s.bwAcc, s.bwN, s.mem.io, by simp⟩, ?_, ?_, fun h => ⟨?_, h, ?_⟩⟩
  · simp [Nat.div_eq_of_lt s.bwN.isLt]
  · simp [Nat.mod_eq_of_lt s.bwN.isLt]
  · rw [List.append_nil, fullBytes_of_lt hl]
  · rw [List.append_nil, leftover_of_lt hl]

theorem Wrote.some {bits : List Bool} {s t : State} {v : List Byte} (h : Wrote bits s t v) (more : List Bool) :
    WroteSome (bits ++ more) s t v := by
  obtain ⟨acc, n, io, rfl⟩ := h.shape
  refine ⟨⟨acc, n, s.draws, io, rfl⟩, ?_, fun hw => ?_⟩
  · rw [h.length, List.length_append]
    omega
  · rw [(h.value hw).1, ← List.append_assoc, fullBytes_append (s.pendingBits ++ bits)]
    exact List.prefix_append _ _

theorem Wrote.trans {bs cs : List Bool} {s t u : State} {v w : List Byte} (h : Wrote bs s t v) (k : Wrote cs t u w) :
    Wrote (bs ++ cs) s u (v ++ w) := by
  obtain ⟨a1, n1, i1, ht⟩ := h.shape
  obtain ⟨a2, n2, i2, hu⟩ := k.shape
  have hp := h.pending
  refine ⟨⟨a2, n2, i2, ?_⟩, ?_, ?_, fun hw => ?_⟩
  · rw [hu, ht]; simp [Memory.append, Nat.add_assoc]
  · rw [List.length_append, List.length_append, h.length, k.length, hp]; omega
  · rw [k.pending, hp, List.length_append]; omega
  · obtain ⟨h1, h2, h3⟩ := h.value hw
    obtain ⟨k1, k2, k3⟩ := k.value h2
    refine ⟨?_, k2, ?_⟩
    · rw [h1, k1, h3, ← List.append_assoc, ← fullBytes_append]
    · rw [k3, h3, ← List.append_assoc, ← leftover_append]

theorem Wrote.transSome {bs cs : List Bool} {s t u : State} {v w : List Byte} (h : Wrote bs s t v) (k : WroteSome cs t u w) :
    WroteSome (bs ++ cs) s u (v ++ w) := by
  obtain ⟨a1, n1, i1, ht⟩ := h.shape
  obtain ⟨a2, n2, d2, i2, hu⟩ := k.shape
  have hp := h.pending
  refine ⟨⟨a2, n2, d2, i2, ?_⟩, ?_, fun hw => ?_⟩
  · rw [hu, ht]; simp [Memory.append, Nat.add_assoc]
  · have := k.length
    rw [hp] at this
    rw [List.length_append, List.length_append, h.length]
    omega
  · obtain ⟨h1, h2, h3⟩ := h.value hw
    have hk := k.value h2
    rw [h3] at hk
    rw [h1, ← List.append_assoc, fullBytes_append (s.pendingBits ++ bs)]
    exact (List.prefix_append_right_inj _).2 hk

theorem bwbit_does (b : Bool) (s : State) :
    (bwbit b s).Does (fun _ t => ∃ v, Wrote [b] s t v) fun e u => e = .io ∧ ∃ v, WroteSome [b] s u v := by
  have hlen := pendingBits_length s
  have h8 := s.bwN.isLt
  by_cases h7 : s.bwN.val < 7
  · have hl : (s.pendingBits ++ [b]).length < 8 := by simp [hlen]; omega
    have hv : (s.bwN + 1 : Fin 8).val = s.bwN.val + 1 := by
      rw [Fin.val_add]
      show (s.bwN.val + 1) % 8 = _
      omega
    rw [bwbit]
    simp only [h7, if_true]
    refine ⟨[], ⟨accWith s.bwAcc s.bwN.val b, s.bwN + 1, s.mem.io, by simp⟩, ?_, ?_, fun hw => ?_⟩
    · simp; omega
    · show (s.bwN + 1 : Fin 8).val = _
      rw [hv, List.length_singleton]
      omega
    · have hp : State.pendingBits { s with bwAcc := accWith s.bwAcc s.bwN.val b, bwN := s.bwN + 1 } = s.pendingBits ++ [b] :=
        pendingBits_of hl (by apply Fin.ext; simp only [Fin.val_ofNat, List.length_append, hlen, List.length_singleton]; rw [hv]; omega)
          (bwbit_value hw b)
      refine ⟨(fullBytes_of_lt hl).symm, writerOk_of_eq ?_, ?_⟩
      · rw [hp]; exact bwbit_value hw b
      · rw [leftover_of_lt hl]; exact hp
  · have hl : (s.pendingBits ++ [b]).length = 8 := by simp [hlen]; omega
    have h1 : fullBytes (s.pendingBits ++ [b]) = [byteFrom (s.pendingBits ++ [b])] := by
      have := fullBytes_chunk hl []
      rwa [List.append_nil, fullBytes_of_lt (bs := []) (by simp)] at this
    have h2 : leftover (s.pendingBits ++ [b]) = [] := by
      have := leftover_chunk hl []
      rwa [List.append_nil, leftover_of_lt (bs := []) (by simp)] at this
    rw [bwbit]
    simp only [h7, if_false]
    have hm := memWrite_does [accWith s.bwAcc s.bwN.val b] { s with bwAcc := accWith s.bwAcc s.bwN.val b }
    match hr : memWrite [accWith s.bwAcc s.bwN.val b] { s with bwAcc := accWith s.bwAcc s.bwN.val b } with
    | .ok a t =>
      rw [hr] at hm
      obtain rfl : t = _ := hm
      refine ⟨[accWith s.bwAcc s.bwN.val b], ⟨0, 0, s.mem.io.tail, rfl⟩, ?_, ?_, fun hw => ⟨?_, ?_, ?_⟩⟩
      · simp only [List.length_singleton]; omega
      · show 0 = _
        rw [List.length_singleton]; omega
      · rw [h1, bwbit_value hw]
      · intro i hi; simp
      · rw [h2]; rfl
    | .raised t =>
      rw [hr] at hm
      obtain ⟨e, u, ⟨rfl, k, rfl⟩, rfl⟩ := hm
      refine ⟨.io, { s with bwAcc := accWith s.bwAcc s.bwN.val b, bwN := Config.freeBwN s.draws, draws := s.draws + 1, mem := s.mem.answered.append ([accWith s.bwAcc s.bwN.val b].take k) }, ⟨rfl, [accWith s.bwAcc s.bwN.val b].take k, ⟨_, _, _, s.mem.io.tail, rfl⟩, ?_, fun hw => ?_⟩, rfl⟩
      · simp only [List.length_singleton, List.length_take]; omega
      · rw [h1, bwbit_value hw]; exact List.take_prefix _ _
    | .fault f => rw [hr] at hm; exact hm
    | .refused f => rw [hr] at hm; exact hm

theorem writeBits_does (bits : List Bool) (s : State) :
    (writeBits bits s).Does (fun _ t => ∃ v, Wrote bits s t v) fun e u => e = .io ∧ ∃ v, WroteSome bits s u v := by
  induction bits generalizing s with
  | nil => exact ⟨[], Wrote.nil⟩
  | cons b bs ih =>
    rw [writeBits]
    refine (bwbit_does b s).bind ?_ ?_
    · rintro _ t ⟨v, hv⟩
      refine (ih t).mono ?_ ?_
      · rintro _ u ⟨w, hw⟩
        exact ⟨v ++ w, hv.trans hw⟩
      · rintro e u ⟨he, w, hw⟩
        exact ⟨he, v ++ w, hv.transSome hw⟩
    · rintro e u ⟨he, v, h⟩
      refine ⟨he, v, h.shape, ?_, fun hw => (h.value hw).trans ?_⟩
      · have := h.length
        simp only [List.length_cons, List.length_nil] at this ⊢
        omega
      · rw [show b :: bs = [b] ++ bs from rfl, ← List.append_assoc, fullBytes_append (s.pendingBits ++ [b])]
        exact List.prefix_append _ _

theorem bwbits_does (p : Pattern) (n : Nat) (s : State) :
    (bwbits p n s).Does (fun _ t => ∃ v, Wrote (pat2bits p n) s t v) fun e u => e = .io ∧ ∃ v, WroteSome (pat2bits p n) s u v := by
  rw [bwbits_eq]
  exact writeBits_does _ s

/-- What `BWFLUSH` has done: at most one byte, the pending bits packed (R173). -/
def Flushed (s t : State) : Prop :=
  ∃ acc n v io, t = { s with bwAcc := acc, bwN := n, mem := { s.mem.append v with io := io } } ∧
    v.length ≤ (if s.bwN.val = 0 then 0 else 1) ∧ (s.WriterOk → v <+: pack s.pendingBits)

theorem bwflush_does (s : State) :
    (bwflush s).Does
      (fun _ t => Flushed s t ∧ t.bwN = 0 ∧ (s.WriterOk → t.WriterOk ∧ t.mem.snk = s.mem.snk ++ pack s.pendingBits)) fun e u => e = .io ∧ Flushed s u := by
  by_cases h0 : s.bwN.val = 0
  · rw [bwflush, if_pos h0]
    have hnil : s.pendingBits = [] := List.eq_nil_of_length_eq_zero (by rw [pendingBits_length, h0])
    exact ⟨⟨s.bwAcc, s.bwN, [], s.mem.io, by simp, by simp, fun _ => List.nil_prefix⟩, Fin.ext h0,
      fun h => ⟨h, by rw [hnil]; simp [pack]⟩⟩
  · have hl : s.pendingBits.length < 8 := by rw [pendingBits_length]; exact s.bwN.isLt
    have hp := pack_eq s.pendingBits
    have hne : s.pendingBits ≠ [] := fun e => h0 (by rw [← pendingBits_length, e]; rfl)
    rw [fullBytes_of_lt hl, leftover_of_lt hl, List.nil_append, if_neg hne] at hp
    rw [bwflush, if_neg h0]
    refine (memWrite_does [s.bwAcc] s).bind ?_ ?_
    · rintro _ t rfl
      refine ⟨⟨0, 0, [s.bwAcc], s.mem.io.tail, rfl, by simp [h0], fun hw => ?_⟩, rfl,
        fun hw => ⟨fun i _ => by simp, by rw [hp, ← bwAcc_eq hw]; rfl⟩⟩
      rw [hp, ← bwAcc_eq hw]
    · rintro e u ⟨he, k, rfl⟩
      refine ⟨he, s.bwAcc, s.bwN, [s.bwAcc].take k, s.mem.io.tail, rfl, by simp [h0], fun hw => ?_⟩
      rw [hp, ← bwAcc_eq hw]
      exact List.take_prefix _ _

/-! ### The header -/

/-- Bytes appended to the sink, nothing else but the answers having changed. -/
def Appended (v : List Byte) (s t : State) : Prop := ∃ io, t = { s with mem := { s.mem.append v with io := io } }

theorem writeCounts_does (o : HdrOrder) (bs : List Byte) (s : State) :
    (writeCounts o bs s).Does
      (fun _ t => Appended (bs.flatMap fun b => hdrBytes o 4 (Table.entry s.freq b).toNat) s t)
      (fun e u => e = .io ∧ ∃ v, v <+: (bs.flatMap fun b => hdrBytes o 4 (Table.entry s.freq b).toNat) ∧ Appended v s u) := by
  induction bs generalizing s with
  | nil => exact ⟨s.mem.io, by simp⟩
  | cons b bs ih =>
    rw [writeCounts]
    refine (memWrite_does _ s).bind ?_ ?_
    · rintro _ t rfl
      refine (ih _).mono ?_ ?_
      · rintro _ t ⟨io, rfl⟩
        exact ⟨io, by simp [Memory.append, Memory.answered, Nat.add_assoc]⟩
      · rintro e u ⟨he, v, hv, io, rfl⟩
        refine ⟨he, _, ?_, io, by rw [Memory.append_append]; rfl⟩
        rw [List.flatMap_cons]
        exact (List.prefix_append_right_inj _).2 hv
    · rintro e u ⟨he, k, rfl⟩
      refine ⟨he, _, ?_, s.mem.io.tail, rfl⟩
      rw [List.flatMap_cons]
      exact (List.take_prefix _ _).trans (List.prefix_append _ _)

theorem hwrite_does (o : HdrOrder) (s : State) :
    (hwrite o s).Does (fun _ t => Appended (headerBytes o s.size s.freq) s t)
      (fun e u => e = .io ∧ ∃ v, v <+: headerBytes o s.size s.freq ∧ Appended v s u) := by
  rw [hwrite]
  refine (memWrite_does _ s).bind ?_ ?_
  · rintro _ t rfl
    refine (memWrite_does _ _).bind ?_ ?_
    · rintro _ t rfl
      refine (writeCounts_does o symbols _).mono ?_ ?_
      · rintro _ t ⟨io, rfl⟩
        refine ⟨io, ?_⟩
        simp [Memory.append, Memory.answered, headerBytes, Nat.add_assoc, List.append_assoc]
      · rintro e u ⟨he, v, hv, io, rfl⟩
        refine ⟨he, magic ++ hdrBytes o 8 s.size.toNat ++ v, ?_, io, ?_⟩
        · rw [headerBytes]
          exact (List.prefix_append_right_inj _).2 hv
        · simp [Memory.append, Memory.answered, Nat.add_assoc, List.append_assoc]
    · rintro e u ⟨he, k, rfl⟩
      refine ⟨he, magic ++ (hdrBytes o 8 s.size.toNat).take k, ?_, s.mem.io.tail.tail, ?_⟩
      · rw [headerBytes, List.append_assoc]
        exact (List.prefix_append_right_inj _).2 ((List.take_prefix _ _).trans (List.prefix_append _ _))
      · simp [Memory.append, Memory.answered, Nat.add_assoc, List.append_assoc]
  · rintro e u ⟨he, k, rfl⟩
    refine ⟨he, magic.take k, ?_, s.mem.io.tail, rfl⟩
    rw [headerBytes, List.append_assoc]
    exact (List.take_prefix _ _).trans (List.prefix_append _ _)

/-- What `HREAD` may change (R193). -/
def HeaderRead (s t : State) : Prop :=
  (∃ size freq pos io, t = { s with size := size, freq := freq, mem := { s.mem with srcPos := pos, io := io } }) ∧
    (s.mem.wf → t.mem.wf)

theorem HeaderRead.refl (s : State) : HeaderRead s s := ⟨⟨s.size, s.freq, s.mem.srcPos, s.mem.io, rfl⟩, fun h => h⟩

theorem HeaderRead.trans {s t u : State} (h : HeaderRead s t) (k : HeaderRead t u) : HeaderRead s u := by
  obtain ⟨⟨z1, f1, p1, i1, rfl⟩, h2⟩ := h
  obtain ⟨⟨z2, f2, p2, i2, rfl⟩, k2⟩ := k
  exact ⟨⟨z2, f2, p2, i2, rfl⟩, fun hw => k2 (h2 hw)⟩

theorem memRead_header (n : Nat) (s : State) :
    (memRead n s).Does (fun r t => HeaderRead s t ∧ r = s.mem.rest.take n) fun e u => e = .io ∧ HeaderRead s u := by
  refine (memRead_does n s).mono ?_ ?_
  · rintro r t ⟨rfl, rfl⟩
    exact ⟨⟨⟨_, _, _, _, rfl⟩, fun h => wf_cursor_take h n _⟩, rfl⟩
  · rintro e u ⟨rfl, rfl⟩
    exact ⟨rfl, ⟨_, _, _, _, rfl⟩, fun h => h⟩

theorem readCounts_does (o : HdrOrder) (bs : List Byte) (s : State) :
    (readCounts o bs s).Does (fun _ t => HeaderRead s t) fun e u => (e = .io ∨ e = .truncHeader) ∧ HeaderRead s u := by
  induction bs generalizing s with
  | nil => exact HeaderRead.refl s
  | cons b bs ih =>
    rw [readCounts]
    refine (memRead_header 4 s).bind ?_ fun e u h => ⟨.inl h.1, h.2⟩
    rintro f t ⟨ht, -⟩
    split
    · exact Res.does_raise ⟨.inr rfl, ht⟩
    · have hp : HeaderRead t { t with freq := Table.put t.freq b (BitVec.ofNat 32 (unhdr o f)) } :=
        ⟨⟨_, _, _, _, rfl⟩, fun h => h⟩
      exact (ih _).mono (fun _ _ h => (ht.trans hp).trans h) fun e u h => ⟨h.1, (ht.trans hp).trans h.2⟩

theorem hread_does (o : HdrOrder) (s : State) :
    (hread o s).Does (fun _ t => HeaderRead s t)
      fun e u => (e = .io ∨ e = .truncHeader ∨ e = .badMagic) ∧ HeaderRead s u := by
  rw [hread]
  refine (memRead_header 4 s).bind ?_ fun e u h => ⟨.inl h.1, h.2⟩
  rintro m t ⟨ht, -⟩
  split
  · refine (memRead_header 8 t).bind ?_ fun e u h => ⟨.inl h.1, ht.trans h.2⟩
    rintro z u ⟨hu, -⟩
    split
    · exact Res.does_raise ⟨.inr (.inl rfl), ht.trans hu⟩
    · have hp : HeaderRead u { u with size := BitVec.ofNat 64 (unhdr o z) } := ⟨⟨_, _, _, _, rfl⟩, fun h => h⟩
      refine (readCounts_does o symbols _).mono (fun _ _ h => ((ht.trans hu).trans hp).trans h) fun e u h =>
        ⟨?_, ((ht.trans hu).trans hp).trans h.2⟩
      rcases h.1 with h | h
      · exact .inl h
      · exact .inr (.inl h)
  · exact Res.does_raise ⟨.inr (.inr rfl), ht⟩

/-! ### `EEMIT` -/

/-- What the emitting pass has done when it ends, over the bytes `input` that the source delivers after the rewind: the
Bit Writer's work on a prefix of their code bits. -/
def Emitted (s t : State) : Prop :=
  (∃ acc n draws v src pos rw io, t = { s with
      bwAcc := acc
      bwN := n
      draws := draws
      mem := { s.mem.append v with src := src, srcPos := pos, rewound := rw, io := io } } ∧
    (src = s.mem.src ∧ rw = s.mem.rewound ∨ src = s.mem.rewound.getD s.mem.src ∧ rw = none) ∧
    v.length ≤ (s.bwN.val + (s.code.encodeAll (s.mem.rewound.getD s.mem.src)).length) / 8 ∧
    (s.WriterOk → v <+: fullBytes (s.pendingBits ++ s.code.encodeAll (s.mem.rewound.getD s.mem.src)))) ∧
  (s.mem.wf → t.mem.wf)

/-- The pass over a list of bytes, from a source that stands before them. -/
structure Emitting (s : State) (done l : List Byte) (t : State) : Prop where
  input : done ++ l = s.mem.rest
  rest : t.mem.rest = l
  wrote : ∃ pos io v, Wrote (s.code.encodeAll done) (s.cursor pos io) t v
  wf : s.mem.wf → t.mem.wf

theorem Wrote.mem_wf {bits : List Bool} {s t : State} {v : List Byte} (h : Wrote bits s t v) (hw : s.mem.wf) : t.mem.wf := by
  obtain ⟨acc, n, io, rfl⟩ := h.shape
  exact Memory.wf_append hw v

/-- The Bit Writer does not depend on the source. -/
theorem Wrote.cursor {bits : List Bool} {s t : State} {v : List Byte} (h : Wrote bits s t v) (pos : Nat) (io : List IOAnswer) :
    Wrote bits (s.cursor pos io) (t.cursor pos io) v := by
  obtain ⟨acc, n, io', ht⟩ := h.shape
  refine ⟨⟨acc, n, io, ?_⟩, h.length, h.pending, h.value⟩
  rw [ht]
  simp [State.cursor, Memory.append]

/-- The state in which the loop of `EEMIT` ends or raises, relative to the state after the rewind. -/
def EmittedRest (s : State) (u : State) : Prop :=
  ∃ bits more pos io v, s.code.encodeAll s.mem.rest = bits ++ more ∧ WroteSome bits (s.cursor pos io) u v ∧ (s.mem.wf → u.mem.wf)

theorem emit_does (s : State) (fuel : Nat) (hf : s.mem.rest.length < fuel) :
    (forEachByte emitByte fuel s).Does
      (fun _ t => ∃ pos io v, Wrote (s.code.encodeAll s.mem.rest) (s.cursor pos io) t v ∧ (s.mem.wf → t.mem.wf))
      (fun e u => (e = .io ∨ e = .noCode ∧ ∃ b ∈ s.mem.rest, Table.entry s.code.len b = 0) ∧ EmittedRest s u) := by
  refine forEachByte_does (P := fun l t => ∃ done, Emitting s done l t) ?_ ?_ ?_ ?_ fuel (l := s.mem.rest)
    ⟨[], rfl, rfl, ⟨s.mem.srcPos, s.mem.io, [], Wrote.nil⟩, fun h => h⟩ hf
  · rintro l t ⟨_, h⟩; exact h.rest
  · rintro b l t ⟨done, h⟩
    have hr := h.rest
    obtain ⟨pos, io, v, hw⟩ := h.wrote
    have hc : t.code = s.code := by obtain ⟨_, _, _, rfl⟩ := hw.shape; rfl
    have hwf : s.mem.wf → (t.cursor (t.mem.srcPos + 1) t.mem.io.tail).mem.wf := fun hs => ⟨srcPos_lt hr, (h.wf hs).2⟩
    have hw' := hw.cursor (t.mem.srcPos + 1) t.mem.io.tail
    have hin : (done ++ [b]) ++ l = s.mem.rest := by rw [← h.input]; simp
    have hsplit : s.code.encodeAll s.mem.rest = s.code.encodeAll (done ++ [b]) ++ s.code.encodeAll l := by
      rw [← hin, encodeAll_append]
    have hone : s.code.encodeAll (done ++ [b]) = s.code.encodeAll done ++ s.code.bits b := by
      simp [CodeTable.encodeAll]
    rw [emitByte]
    split
    next hz =>
      have hz' : Table.entry s.code.len b = 0 := by rw [← hc]; exact hz
      have hbm : b ∈ s.mem.rest := by rw [← hin]; simp
      refine Res.does_raise ⟨.inr ⟨rfl, b, hbm, hz'⟩, s.code.encodeAll done, s.code.bits b ++ s.code.encodeAll l, t.mem.srcPos + 1, t.mem.io.tail, v, ?_, ?_, hwf⟩
      · rw [hsplit, hone, List.append_assoc]
      · have := hw'.some []
        rw [List.append_nil] at this
        exact this
    next =>
      have hbits : pat2bits (Table.entry t.code.pat b) (Table.entry t.code.len b).toNat = s.code.bits b := by
        rw [hc, CodeTable.bits]
      have hd := bwbits_does (Table.entry t.code.pat b) (Table.entry t.code.len b).toNat
        (t.cursor (t.mem.srcPos + 1) t.mem.io.tail)
      rw [hbits] at hd
      refine hd.mono ?_ ?_
      · rintro _ u ⟨w, hu⟩
        refine ⟨done ++ [b], hin, ?_, ⟨t.mem.srcPos + 1, t.mem.io.tail, v ++ w, ?_⟩, fun hs => hu.mem_wf (hwf hs)⟩
        · obtain ⟨acc, n, io', rfl⟩ := hu.shape
          have := rest_cursor hr t.mem.io.tail
          exact this
        · rw [hone]
          exact hw'.trans hu
      · rintro e u ⟨he, w, hu⟩
        refine ⟨.inl he, s.code.encodeAll (done ++ [b]), s.code.encodeAll l, t.mem.srcPos + 1, t.mem.io.tail, v ++ w, hsplit, ?_, fun hs => ?_⟩
        · rw [hone]
          exact hw'.transSome hu
        · obtain ⟨acc, n, d, io', rfl⟩ := hu.shape
          exact Memory.wf_append (hwf hs) w
  · rintro l t ⟨done, h⟩
    obtain ⟨pos, io, v, hw⟩ := h.wrote
    refine ⟨.inl rfl, s.code.encodeAll done, s.code.encodeAll l, t.mem.srcPos, t.mem.io.tail, v, ?_, ?_, h.wf⟩
    · rw [← encodeAll_append, h.input]
    · have := (hw.cursor t.mem.srcPos t.mem.io.tail).some []
      rw [List.append_nil] at this
      exact this
  · rintro t ⟨done, h⟩
    obtain ⟨pos, io, v, hw⟩ := h.wrote
    have hd : done = s.mem.rest := by rw [← h.input, List.append_nil]
    rw [hd] at hw
    exact ⟨t.mem.srcPos, t.mem.io.tail, v, hw.cursor t.mem.srcPos t.mem.io.tail, h.wf⟩

theorem eemit_does (s : State) :
    (eemit s).Does
      (fun _ t => Emitted s t ∧ t.draws = s.draws ∧
        (s.WriterOk → t.WriterOk ∧ t.pendingBits = leftover (s.pendingBits ++ s.code.encodeAll (s.mem.rewound.getD s.mem.src)) ∧
          t.mem.snk = s.mem.snk ++ fullBytes (s.pendingBits ++ s.code.encodeAll (s.mem.rewound.getD s.mem.src))))
      (fun e u => (e = .io ∨ e = .noCode ∧ ∃ b ∈ s.mem.rewound.getD s.mem.src, Table.entry s.code.len b = 0) ∧ Emitted s u) := by
  rw [eemit]
  refine (srcRewind_does s).bind ?_ ?_
  · rintro _ t rfl
    have hrest : ∀ m : Memory, m.srcPos = 0 → m.rest = m.src := fun m h => by rw [Memory.rest, h, List.drop_zero]
    refine (emit_does _ _ (Nat.lt_succ_self _)).mono ?_ ?_
    · rintro _ t ⟨pos, io, v, h, hwf⟩
      rw [hrest _ rfl] at h
      have hv := h.value
      have hl := h.length
      obtain ⟨acc, n, io', rfl⟩ := h.shape
      refine ⟨⟨⟨acc, n, s.draws, v, _, pos, none, io', rfl, .inr ⟨rfl, rfl⟩, Nat.le_of_eq hl, fun hw => ?_⟩,
        fun hw => hwf (Memory.wf_rewind hw _)⟩, rfl, fun hw => ?_⟩
      · rw [(hv hw).1]; exact List.prefix_refl _
      · obtain ⟨h1, h2, h3⟩ := hv hw
        exact ⟨h2, h3, congrArg (s.mem.snk ++ ·) h1⟩
    · rintro e u ⟨he, bits, more, pos, io, v, hsp, h, hwf⟩
      rw [hrest _ rfl] at hsp
      have hv := h.value
      have hl := h.length
      obtain ⟨acc, n, d, io', rfl⟩ := h.shape
      rw [hrest _ rfl] at he
      refine ⟨he, ⟨acc, n, d, v, _, pos, none, io', rfl, .inr ⟨rfl, rfl⟩, ?_, fun hw => (hv hw).trans ?_⟩,
        fun hw => hwf (Memory.wf_rewind hw _)⟩
      · have hlen := congrArg List.length hsp
        rw [List.length_append] at hlen
        change v.length ≤ (s.bwN.val + bits.length) / 8 at hl
        change (s.code.encodeAll (s.mem.rewound.getD s.mem.src)).length = _ at hlen
        omega
      · change s.code.encodeAll (s.mem.rewound.getD s.mem.src) = _ at hsp
        rw [hsp, ← List.append_assoc, fullBytes_append (s.pendingBits ++ bits)]
        exact List.prefix_append _ _
  · rintro e u ⟨rfl, rfl⟩
    refine ⟨.inl rfl, ⟨s.bwAcc, s.bwN, s.draws, [], s.mem.src, s.mem.srcPos, s.mem.rewound, s.mem.io.tail, ?_,
      .inl ⟨rfl, rfl⟩, by simp, fun _ => List.nil_prefix⟩, fun h => h⟩
    simp [Memory.answered]

/-! ### `BRBIT` and `DWALK` -/

/-- What `BRBIT` may change (R181). -/
def BitPulled (s t : State) : Prop :=
  (∃ buf n ok pos io, t = { s with brBuf := buf, brN := n, brOk := ok, mem := { s.mem with srcPos := pos, io := io } }) ∧
    (s.mem.wf → t.mem.wf)

/-- The bits the Bit Reader has left, counted. -/
def bitsLeft (s : State) : Nat := 8 * s.mem.rest.length + s.brN.val

theorem deliverBit_does {s u : State} (h : BitPulled s u) (hn : u.brN.val ≠ 0) (hb : bitsLeft u = bitsLeft s) :
    (deliverBit u).Does (fun r t => BitPulled s t ∧ (r ≠ none → bitsLeft t + 1 = bitsLeft s) ∧ (t.brOk = r.isSome))
      fun e v => e = .io ∧ BitPulled s v := by
  have hv : (u.brN - 1 : Fin 9).val = u.brN.val - 1 := by
    have := u.brN.isLt
    rw [Fin.sub_def]
    simp only [Fin.val_one]
    omega
  obtain ⟨⟨buf, n, ok, pos, io, rfl⟩, hw⟩ := h
  refine ⟨⟨⟨_, _, _, _, _, rfl⟩, hw⟩, fun _ => ?_, rfl⟩
  rw [← hb]
  simp only [bitsLeft, setBrOk_brN, setBrOk_mem]
  have hv' : (n - 1 : Fin 9).val = n.val - 1 := hv
  have hn' : n.val ≠ 0 := hn
  rw [hv']
  omega

theorem brbit_does (s : State) :
    (brbit s).Does (fun r t => BitPulled s t ∧ (r ≠ none → bitsLeft t + 1 = bitsLeft s) ∧ (t.brOk = r.isSome))
      fun e u => e = .io ∧ BitPulled s u := by
  by_cases hn : s.brN.val = 0
  · rw [brbit, if_pos hn]
    refine (memRead_does 1 s).bind ?_ ?_
    · rintro r t ⟨hr, rfl⟩
      have hw : s.mem.wf → (s.cursor (s.mem.srcPos + r.length) s.mem.io.tail).mem.wf := by
        rw [hr]
        exact fun h => wf_cursor_take h 1 _
      match r with
      | [] => exact ⟨⟨⟨s.brBuf, s.brN, false, _, _, rfl⟩, hw⟩, fun h => absurd rfl h, rfl⟩
      | x :: l =>
        match hs : s.mem.rest with
        | [] => rw [hs] at hr; cases hr
        | y :: ys =>
          rw [hs] at hr
          cases hr
          have hl := rest_cursor hs s.mem.io.tail
          refine deliverBit_does (u := { s.cursor (s.mem.srcPos + 1) s.mem.io.tail with brBuf := x, brN := 8 })
            ⟨⟨x, 8, s.brOk, _, _, rfl⟩, hw⟩ (show (8 : Fin 9).val ≠ 0 by decide) ?_
          simp only [bitsLeft, hs, hn]
          rw [hl, List.length_cons]
          show 8 * ys.length + 8 = _
          omega
    · rintro e u ⟨rfl, rfl⟩
      exact ⟨rfl, ⟨s.brBuf, s.brN, s.brOk, _, _, rfl⟩, fun h => h⟩
  · rw [brbit, if_neg hn]
    exact deliverBit_does ⟨⟨s.brBuf, s.brN, s.brOk, s.mem.srcPos, s.mem.io, rfl⟩, fun h => h⟩ hn rfl

/-- What a part of the walk may have changed (R219); `v` are the bytes appended. -/
def WalkPart (s t : State) (v : List Byte) : Prop :=
  (∃ em buf n ok cur pos io, t = { s with
      emitted := em
      brBuf := buf
      brN := n
      brOk := ok
      cur := cur
      mem := { s.mem.append v with srcPos := pos, io := io } }) ∧
    (s.mem.wf → t.mem.wf)

theorem WalkPart.refl (s : State) : WalkPart s s [] :=
  ⟨⟨s.emitted, s.brBuf, s.brN, s.brOk, s.cur, s.mem.srcPos, s.mem.io, by simp⟩, fun h => h⟩

theorem WalkPart.trans {s t u : State} {v w : List Byte} (h : WalkPart s t v) (k : WalkPart t u w) : WalkPart s u (v ++ w) := by
  obtain ⟨⟨e1, b1, n1, o1, c1, p1, i1, rfl⟩, h2⟩ := h
  obtain ⟨⟨e2, b2, n2, o2, c2, p2, i2, rfl⟩, k2⟩ := k
  refine ⟨⟨e2, b2, n2, o2, c2, p2, i2, ?_⟩, fun hw => k2 (h2 hw)⟩
  simp [Memory.append, Nat.add_assoc]

theorem WalkPart.size {s t : State} {v : List Byte} (h : WalkPart s t v) : t.size = s.size := by
  obtain ⟨⟨_, _, _, _, _, _, _, rfl⟩, _⟩ := h; rfl

theorem WalkPart.tree {s t : State} {v : List Byte} (h : WalkPart s t v) : t.tree = s.tree := by
  obtain ⟨⟨_, _, _, _, _, _, _, rfl⟩, _⟩ := h; rfl

theorem BitPulled.walk {s t : State} (h : BitPulled s t) (cur : Handle) : WalkPart s { t with cur := cur } [] := by
  obtain ⟨⟨buf, n, ok, pos, io, rfl⟩, hw⟩ := h
  exact ⟨⟨s.emitted, buf, n, ok, cur, pos, io, by simp⟩, hw⟩

theorem BitPulled.emitted {s t : State} (h : BitPulled s t) : t.emitted = s.emitted ∧ t.size = s.size := by
  obtain ⟨⟨buf, n, ok, pos, io, rfl⟩, hw⟩ := h
  exact ⟨rfl, rfl⟩

/-- The distance of the walk from its end (R224). -/
def walkMeasure (s : State) : Nat := bitsLeft s + (s.size - s.emitted).toNat

theorem bv_left {x y : Size} (h : x ≠ y) : (y - (x + 1)).toNat + 1 = (y - x).toNat := by
  have hx := x.isLt
  have hy := y.isLt
  have hne : x.toNat ≠ y.toNat := fun e => h (BitVec.eq_of_toNat_eq e)
  simp only [BitVec.toNat_sub, BitVec.toNat_add]
  simp
  omega

/-- The errors of a walk that has a root (R219). -/
def WalkError (e : Err) : Prop := e = .io ∨ e = .missingChild ∨ e = .unexpectedEnd

/-- One step of the walk: one byte out or one bit in, never both (R221); the distance from the end shrinks (R224). -/
theorem walkStep_does (root : Handle) {s : State} (hne : s.emitted ≠ s.size) :
    (walkStep root s).Does
      (fun _ t => ∃ v, WalkPart s t v ∧ walkMeasure t < walkMeasure s ∧ v.length + (t.size - t.emitted).toNat = (s.size - s.emitted).toNat)
      (fun e u => WalkError e ∧ ∃ v, WalkPart s u v ∧ v.length ≤ (s.size - s.emitted).toNat) := by
  have hleft := bv_left hne
  rw [walkStep]
  match hn : s.tree.nodeAt s.cur with
  | .leaf b f =>
    refine (memWrite_does [b] s).bind ?_ ?_
    · rintro _ t rfl
      refine ⟨[b], ⟨⟨_, _, _, _, _, _, _, rfl⟩, fun h => Memory.wf_append h [b]⟩, ?_, ?_⟩
      · show bitsLeft s + (s.size - (s.emitted + 1)).toNat < bitsLeft s + (s.size - s.emitted).toNat
        omega
      · show 1 + (s.size - (s.emitted + 1)).toNat = _
        omega
    · rintro e u ⟨rfl, k, rfl⟩
      refine ⟨.inl rfl, [b].take k, ⟨⟨_, _, _, _, _, _, _, rfl⟩, fun h => Memory.wf_append h _⟩, ?_⟩
      simp only [List.length_take, List.length_singleton]
      omega
  | .internal f l r =>
    refine (brbit_does s).bind ?_ ?_
    · rintro bit t ⟨ht, hb, -⟩
      match bit with
      | none => exact Res.does_raise ⟨.inr (.inr rfl), [], ht.walk t.cur, Nat.zero_le _⟩
      | some bit =>
        have hb := hb (by simp)
        obtain ⟨he, hz⟩ := ht.emitted
        simp only
        match (if bit then r else l) with
        | none => exact Res.does_raise ⟨.inr (.inl rfl), [], ht.walk t.cur, Nat.zero_le _⟩
        | some c =>
          refine ⟨[], ht.walk c, ?_, ?_⟩
          · show bitsLeft t + (t.size - t.emitted).toNat < _
            rw [he, hz, walkMeasure]
            omega
          · show 0 + (t.size - t.emitted).toNat = _
            rw [he, hz, Nat.zero_add]
    · rintro e u ⟨rfl, hu⟩
      exact ⟨.inl rfl, [], hu.walk u.cur, Nat.zero_le _⟩

theorem walkLoop_does (root : Handle) (fuel : Nat) {s : State} (hf : walkMeasure s ≤ fuel) :
    (walkLoop root fuel s).Does
      (fun _ t => ∃ v, WalkPart s t v ∧ t.emitted = t.size ∧ v.length = (s.size - s.emitted).toNat)
      (fun e u => WalkError e ∧ ∃ v, WalkPart s u v ∧ v.length ≤ (s.size - s.emitted).toNat) := by
  induction fuel generalizing s with
  | zero =>
    have h0 : (s.size - s.emitted).toNat = 0 := by rw [walkMeasure] at hf; omega
    have he : s.emitted = s.size := by
      by_contra hne
      have := bv_left hne
      omega
    rw [walkLoop_done he]
    exact ⟨[], WalkPart.refl s, he, by simp [h0]⟩
  | succ fuel ih =>
    by_cases he : s.emitted = s.size
    · rw [walkLoop_done he]
      exact ⟨[], WalkPart.refl s, he, by rw [he]; simp⟩
    · rw [walkLoop, if_neg he]
      refine (walkStep_does root he).bind ?_ (fun e u h => h)
      rintro _ t ⟨v, hv, hm, hl⟩
      refine (ih (s := t) (by omega)).mono ?_ ?_
      · rintro _ u ⟨w, hw, hu, hlen⟩
        exact ⟨v ++ w, hv.trans hw, hu, by rw [List.length_append]; omega⟩
      · rintro e u ⟨hne, w, hw, hlen⟩
        exact ⟨hne, v ++ w, hv.trans hw, by rw [List.length_append]; omega⟩

/-- Everything `DWALK` can do: it ends, and it never writes more than `SIZE` bytes (R224, R225). -/
theorem dwalk_does (s : State) :
    (dwalk s).Does (fun _ t => ∃ v, WalkPart s t v ∧ t.emitted = s.size ∧ v.length = s.size.toNat)
      (fun e u => e = .noTree ∧ u = s ∨ WalkError e ∧ ∃ v, WalkPart s u v ∧ v.length ≤ s.size.toNat) := by
  rw [dwalk]
  match hr : s.tree.root with
  | none => exact Res.does_raise (.inl ⟨rfl, rfl⟩)
  | some root =>
    have hstart : WalkPart s { s with cur := root, emitted := 0 } [] :=
      ⟨⟨0, s.brBuf, s.brN, s.brOk, root, s.mem.srcPos, s.mem.io, by simp⟩, fun h => h⟩
    have hz : (s.size - 0 : Size).toNat = s.size.toNat := by simp
    refine (walkLoop_does root (walkBound s) (s := { s with cur := root, emitted := 0 }) ?_).mono ?_ ?_
    · simp only [walkMeasure, bitsLeft, walkBound]
      rw [hz]
      omega
    · rintro _ t ⟨v, hv, he, hl⟩
      exact ⟨v, hstart.trans hv, by rw [he, hv.size], by rw [hl]; exact hz⟩
    · rintro e u ⟨hne, v, hv, hl⟩
      exact .inr ⟨hne, v, hstart.trans hv, by rw [← hz]; exact hl⟩

end Sys2Proof.Machine
end

