-- ==== Sys2Proof/Laws/Invariant.lean ====
section
/-! SUPPORT. Every operation keeps the invariant `State.Inv` of safe states. -/

namespace Sys2Proof.Machine

/-- What a returning operation keeps. -/
structure Keeps (s t : State) : Prop where
  status : t.status = s.status
  err : t.err = s.err
  phase : t.phase = s.phase
  host : t.host = s.host
  streams : s.mem.wf → t.mem.wf
  tree : s.tree.Ok → t.tree.Ok
  writer : s.WriterOk → t.WriterOk

/-- What a raising operation has kept when it raises. -/
structure KeepsSome (s u : State) : Prop where
  host : u.host = s.host
  streams : s.mem.wf → u.mem.wf
  tree : s.tree.Ok → u.tree.Ok

/-- Every end of an operation keeps what the invariant needs. -/
def Res.Keep {α : Type} (r : Res α) (s : State) : Prop :=
  r.Sat (fun _ t => Keeps s t) fun t => ∃ e u, e ≠ .none ∧ KeepsSome s u ∧ t = takeError e u

theorem Res.Does.keep {α : Type} {r : Res α} {s : State} {Q : α → State → Prop} {F : Err → State → Prop} (h : r.Does Q F)
    (hQ : ∀ a t, Q a t → Keeps s t) (hF : ∀ e u, F e u → e ≠ .none ∧ KeepsSome s u) : r.Keep s := by
  match r, h with
  | .ok a t, h => exact hQ a t h
  | .raised t, ⟨e, u, h, ht⟩ => exact ⟨e, u, (hF e u h).1, (hF e u h).2, ht⟩

theorem Keeps.inv {s t : State} (k : Keeps s t) (h : s.Inv) : t.Inv := by
  obtain ⟨hc, hm, ht, hw⟩ := h
  refine ⟨?_, k.streams hm, k.tree ht, fun hs => k.writer (hw (by rw [← k.status]; exact hs))⟩
  rw [State.ControlOk, k.status, k.phase, k.err]
  exact hc

theorem KeepsSome.inv {s u : State} {e : Err} (k : KeepsSome s u) (he : e ≠ .none) (hm : s.mem.wf) (ht : s.tree.Ok) :
    (takeError e u).Inv := by
  refine ⟨?_, k.streams hm, k.tree ht, fun hs => absurd rfl hs⟩
  simp [State.ControlOk, Phase.working, he]

/-! ### The operations -/

theorem fcount_keep (s : State) : (fcount s).Keep s := by
  by_cases hl : InLimits s.mem.rest
  · refine (fcount_does hl).keep ?_ ?_
    · rintro _ t ⟨⟨⟨f, z, p, io, rfl⟩, hw⟩, _⟩
      exact ⟨rfl, rfl, rfl, rfl, hw, fun h => h, fun h => h⟩
    · rintro e u ⟨rfl, ⟨f, z, p, io, rfl⟩, hw⟩
      exact ⟨by decide, rfl, hw, fun h => h⟩
  · rcases fcount_refuses hl with h | h <;> rw [h] <;> trivial

theorem tbuild_keep (s : State) : (tbuild s).Keep s :=
  ⟨rfl, rfl, rfl, rfl, fun h => h, fun _ => (buildTree_ok s.freq s.tree).1, fun h => h⟩

theorem cderive_cases (s : State) : (∃ c, cderive s = .ok () { s with code := c }) ∨ cderive s = .fault .treeTooDeep := by
  cases hr : s.tree.root with
  | none => exact .inl ⟨_, cderive_none hr⟩
  | some r =>
    simp only [cderive, hr]
    split
    · exact .inl ⟨_, rfl⟩
    · exact .inr rfl

theorem cderive_keep (s : State) : (cderive s).Keep s := by
  rcases cderive_cases s with ⟨c, h⟩ | h
  · rw [h]; exact ⟨rfl, rfl, rfl, rfl, fun h => h, fun h => h, fun h => h⟩
  · rw [h]; trivial

theorem Wrote.keeps {bits : List Bool} {s t : State} {v : List Byte} (h : Wrote bits s t v) : Keeps s t := by
  have hv := h.value
  have hm := h.mem_wf
  obtain ⟨acc, n, io, rfl⟩ := h.shape
  exact ⟨rfl, rfl, rfl, rfl, hm, fun h => h, fun h => (hv h).2.1⟩

theorem WroteSome.keeps {bits : List Bool} {s t : State} {v : List Byte} (h : WroteSome bits s t v) : KeepsSome s t := by
  obtain ⟨acc, n, d, io, rfl⟩ := h.shape
  exact ⟨rfl, fun h => Memory.wf_append h v, fun h => h⟩

theorem bwbit_keep (b : Bool) (s : State) : (bwbit b s).Keep s := by
  refine (bwbit_does b s).keep ?_ ?_
  · rintro _ t ⟨v, h⟩; exact h.keeps
  · rintro e u ⟨rfl, v, h⟩; exact ⟨by decide, h.keeps⟩

theorem bwbits_keep (p : Pattern) (n : Nat) (s : State) : (bwbits p n s).Keep s := by
  refine (bwbits_does p n s).keep ?_ ?_
  · rintro _ t ⟨v, h⟩; exact h.keeps
  · rintro e u ⟨rfl, v, h⟩; exact ⟨by decide, h.keeps⟩

theorem bwflush_keep (s : State) : (bwflush s).Keep s := by
  refine (bwflush_does s).keep ?_ ?_
  · rintro _ t ⟨⟨acc, n, v, io, rfl, _, _⟩, _, hw⟩
    exact ⟨rfl, rfl, rfl, rfl, fun h => Memory.wf_append h v, fun h => h, fun h => (hw h).1⟩
  · rintro e u ⟨rfl, acc, n, v, io, rfl, _, _⟩
    exact ⟨by decide, rfl, fun h => Memory.wf_append h v, fun h => h⟩

theorem hwrite_keep (o : HdrOrder) (s : State) : (hwrite o s).Keep s := by
  refine (hwrite_does o s).keep ?_ ?_
  · rintro _ t ⟨io, rfl⟩
    exact ⟨rfl, rfl, rfl, rfl, fun h => Memory.wf_append h _, fun h => h, fun h => h⟩
  · rintro e u ⟨rfl, v, _, io, rfl⟩
    exact ⟨by decide, rfl, fun h => Memory.wf_append h _, fun h => h⟩

theorem hread_keep (o : HdrOrder) (s : State) : (hread o s).Keep s := by
  refine (hread_does o s).keep ?_ ?_
  · rintro _ t ⟨⟨z, f, p, io, rfl⟩, hw⟩
    exact ⟨rfl, rfl, rfl, rfl, hw, fun h => h, fun h => h⟩
  · rintro e u ⟨he, ⟨z, f, p, io, rfl⟩, hw⟩
    refine ⟨?_, rfl, hw, fun h => h⟩
    rcases he with rfl | rfl | rfl <;> decide

theorem eemit_keep (s : State) : (eemit s).Keep s := by
  refine (eemit_does s).keep ?_ ?_
  · rintro _ t ⟨⟨⟨acc, n, d, v, src, p, rw, io, rfl, _, _, _⟩, hw⟩, _, hv⟩
    exact ⟨rfl, rfl, rfl, rfl, hw, fun h => h, fun h => (hv h).1⟩
  · rintro e u ⟨he, ⟨acc, n, d, v, src, p, rw, io, rfl, _, _, _⟩, hw⟩
    refine ⟨?_, rfl, hw, fun h => h⟩
    rcases he with rfl | ⟨rfl, _⟩ <;> decide

theorem brbit_keep (s : State) : (brbit s).Keep s := by
  refine (brbit_does s).keep ?_ ?_
  · rintro _ t ⟨⟨⟨b, n, ok, p, io, rfl⟩, hw⟩, _⟩
    exact ⟨rfl, rfl, rfl, rfl, hw, fun h => h, fun h => h⟩
  · rintro e u ⟨rfl, ⟨b, n, ok, p, io, rfl⟩, hw⟩
    exact ⟨by decide, rfl, hw, fun h => h⟩

theorem dwalk_keep (s : State) : (dwalk s).Keep s := by
  refine (dwalk_does s).keep ?_ ?_
  · rintro _ t ⟨v, ⟨⟨em, b, n, ok, c, p, io, rfl⟩, hw⟩, _⟩
    exact ⟨rfl, rfl, rfl, rfl, hw, fun h => h, fun h => h⟩
  · rintro e u (⟨rfl, rfl⟩ | ⟨he, v, ⟨⟨em, b, n, ok, c, p, io, rfl⟩, hw⟩, _⟩)
    · exact ⟨by decide, rfl, fun h => h, fun h => h⟩
    · exact ⟨by rcases he with rfl | rfl | rfl <;> decide, rfl, hw, fun h => h⟩

/-! ### The commands -/

/-- The state of a running command between two phases. -/
def Running (s : State) : Prop := s.Inv ∧ s.status = .busy

theorem commandStart_running {p : Phase} (hp : p.working = true) (s : State) : Running (commandStart p s) := by
  have hne : p ≠ .done ∧ p ≠ .fault ∧ p ≠ .idle := by cases p <;> simp_all [Phase.working]
  refine ⟨⟨?_, ?_, ?_, fun _ => ?_⟩, rfl⟩
  · simp [State.ControlOk, hp, hne]
  · exact ⟨Nat.zero_le _, rfl⟩
  · exact ⟨rfl, Nat.zero_le _, fun r h => by cases h⟩
  · intro i _
    simp

theorem goPhase_running {s : State} (h : Running s) {p : Phase} (hp : p.working = true) : Running (goPhase p s) := by
  obtain ⟨⟨hc, hm, ht, hw⟩, hb⟩ := h
  have hne : p ≠ .done ∧ p ≠ .fault ∧ p ≠ .idle := by cases p <;> simp_all [Phase.working]
  have he := hc.2.2.2.2
  rw [hb] at he
  refine ⟨⟨?_, hm, ht, hw⟩, hb⟩
  simp only [State.ControlOk, goPhase_status, goPhase_phase, goPhase_err, hb, hp, hne]
  simp only [reduceCtorEq, false_iff] at he
  simp [he]

theorem finishCommand_inv {s : State} (h : Running s) : (finishCommand s).Inv := by
  obtain ⟨⟨hc, hm, ht, hw⟩, hb⟩ := h
  have he := hc.2.2.2.2
  rw [hb] at he
  simp only [reduceCtorEq, false_iff] at he
  refine ⟨?_, hm, ht, fun _ => hw (by rw [hb]; decide)⟩
  simp [State.ControlOk, Phase.working, he]

theorem Res.Keep.running {α : Type} {r : Res α} {s : State} (k : r.Keep s) (h : Running s) :
    r.Sat (fun _ t => Running t) fun t => t.Inv := by
  match r, k with
  | .ok a t, k => exact ⟨Keeps.inv k h.1, k.status.trans h.2⟩
  | .raised t, ⟨e, u, he, k, ht⟩ =>
    show t.Inv
    rw [ht]
    exact k.inv he h.1.streams h.1.tree
  | .fault f, _ => trivial
  | .refused f, _ => trivial

theorem Res.Keep.next {α : Type} {r : Res α} {s t : State} (k : r.Keep s) (h : s.Inv) (ht : r.outcome = .next t) : t.Inv := by
  refine Res.Sat.next (P := State.Inv) (r := r) ?_ ht
  refine Res.Sat.mono k (fun _ u hk => hk.inv h) ?_
  rintro u ⟨e, v, he, hk, rfl⟩
  exact hk.inv he h.streams h.tree

theorem startCommand_running {p : Phase} (hp : p.working = true) (s : State) :
    (startCommand p s).Sat (fun _ t => Running t) fun t => t.Inv := by
  rw [startCommand]
  split
  · trivial
  · exact commandStart_running hp s

theorem runEncode_inv (o : HdrOrder) (s : State) : (runEncode o s).Sat (fun _ t => t.Inv) fun t => t.Inv := by
  rw [runEncode]
  refine (startCommand_running rfl s).bind fun _ s h => ?_
  refine ((fcount_keep s).running h).bind fun _ s h => ?_
  refine ((tbuild_keep _).running (goPhase_running h rfl)).bind fun _ s h => ?_
  refine ((cderive_keep _).running (goPhase_running h rfl)).bind fun _ s h => ?_
  refine ((hwrite_keep o _).running (goPhase_running h rfl)).bind fun _ s h => ?_
  refine ((eemit_keep _).running (goPhase_running h rfl)).bind fun _ s h => ?_
  refine ((bwflush_keep _).running (goPhase_running h rfl)).bind fun _ s h => ?_
  exact finishCommand_inv h

theorem runDecode_inv (o : HdrOrder) (s : State) : (runDecode o s).Sat (fun _ t => t.Inv) fun t => t.Inv := by
  rw [runDecode]
  refine (startCommand_running rfl s).bind fun _ s h => ?_
  refine ((hread_keep o s).running h).bind fun _ s h => ?_
  refine ((tbuild_keep _).running (goPhase_running h rfl)).bind fun _ s h => ?_
  split
  · exact finishCommand_inv h
  · refine ((dwalk_keep _).running (goPhase_running h rfl)).bind fun _ s h => ?_
    exact finishCommand_inv h

/-- Every operation keeps the invariant. -/
theorem exec_inv {i : Instr} {s t : State} (h : s.Inv) (ht : exec i s = .next t) : t.Inv := by
  cases i with
  | encode => exact (runEncode_inv _ s).next ht
  | decode => exact (runDecode_inv _ s).next ht
  | fcount => exact (fcount_keep s).next h ht
  | tbuild => exact (tbuild_keep s).next h ht
  | cderive => exact (cderive_keep s).next h ht
  | bwbit b => exact (bwbit_keep b s).next h ht
  | bwbits p n =>
    simp only [exec, execBwbits] at ht
    split at ht
    · exact (bwbits_keep p n s).next h ht
    · cases ht
  | bwflush => exact (bwflush_keep s).next h ht
  | brbit => exact (brbit_keep s).next h ht
  | hwrite => exact (hwrite_keep _ s).next h ht
  | hread => exact (hread_keep _ s).next h ht
  | eemit => exact (eemit_keep s).next h ht
  | dwalk => exact (dwalk_keep s).next h ht

/-- An internal operation that does not raise leaves `STATUS`, `ERR` and `PHASE` alone; one that raises takes the error
(R256). -/
theorem Res.Keep.control {α : Type} {r : Res α} {s t : State} (k : r.Keep s) (ht : r.outcome = .next t) :
    (t.status = s.status ∧ t.err = s.err ∧ t.phase = s.phase) ∨ (t.status = .fault ∧ t.err ≠ .none ∧ t.phase = .fault) := by
  match r, k with
  | .ok a u, k => cases ht; exact .inl ⟨k.status, k.err, k.phase⟩
  | .raised u, ⟨e, v, he, _, hu⟩ =>
    cases ht
    rw [hu]
    exact .inr ⟨rfl, he, rfl⟩

end Sys2Proof.Machine
end

