-- ==== Sys2Proof/Laws/Same.lean ====
section
/-! SUPPORT. `TBUILD` is a function of `FREQ` (`41_tree_builder.md` rule R140): whatever the arena held before, the same
tree comes out. -/

namespace Sys2Proof.Machine

/-- Two arenas that agree on the nodes in use, the candidates among them. -/
def Alike (t u : TreeRegs) : Prop := t.Same u ∧ ∀ h ∈ t.pq, h.val < t.cnt

theorem newNode_alike {t u : TreeRegs} (n : Node) (h : t.Same u) :
    (newNode n t).1 = (newNode n u).1 ∧ (newNode n t).2.Same (newNode n u).2 ∧ t.cnt ≤ (newNode n t).2.cnt ∧
      (newNode n t).1.val < (newNode n t).2.cnt ∧ (newNode n t).2.pq = t.pq ∧
      ((newNode n t).2.root = t.root) := by
  obtain ⟨hc, hr, hp, hn⟩ := h
  by_cases hlt : t.cnt < 511
  · have hlu : u.cnt < 511 := hc ▸ hlt
    rw [newNode_eq hlt, newNode_eq hlu]
    refine ⟨Fin.ext hc, ⟨congrArg (· + 1) hc, hr, hp, ?_⟩, Nat.le_succ _, Nat.lt_succ_self _, rfl, rfl⟩
    intro x hx
    simp only [TreeRegs.nodeAt, Vector.get_eq_getElem, Vector.getElem_set]
    by_cases he : t.cnt = x.val
    · rw [if_pos he, if_pos (hc ▸ he)]
    · rw [if_neg he, if_neg (hc ▸ he)]
      have := hn x (by simp only at hx; omega)
      simpa only [TreeRegs.nodeAt, Vector.get_eq_getElem] using this
  · have hlu : ¬ u.cnt < 511 := hc ▸ hlt
    simp only [newNode, dif_neg hlt, dif_neg hlu]
    exact ⟨trivial, ⟨hc, hr, hp, hn⟩, Nat.le_refl _, by show 510 < t.cnt; omega, trivial, trivial⟩

theorem insertNode_alike {t u : TreeRegs} (n : Node) (h : Alike t u) : Alike (insertNode n t) (insertNode n u) := by
  obtain ⟨h1, h2, h3, h4, h5, -⟩ := newNode_alike n h.1
  obtain ⟨hc, hr, hp, hn⟩ := h2
  have hused : ∀ x ∈ (newNode n t).2.pq, x.val < (newNode n t).2.cnt := by
    intro x hx
    rw [h5] at hx
    exact Nat.lt_of_lt_of_le (h.2 x hx) h3
  have hpq : insertByFreq (newNode n t).2.freqAt (newNode n t).1 (newNode n t).2.pq =
      insertByFreq (newNode n u).2.freqAt (newNode n u).1 (newNode n u).2.pq := by
    rw [← h1, ← hp]
    apply insertByFreq_congr
    · rw [TreeRegs.freqAt, hn _ h4, TreeRegs.freqAt]
    · intro e he
      rw [TreeRegs.freqAt, hn _ (hused e he), TreeRegs.freqAt]
  refine ⟨⟨hc, hr, hpq, hn⟩, ?_⟩
  intro x hx
  rcases List.mem_cons.1 ((insertByFreq_perm _ _ _).mem_iff.1 hx) with rfl | hx
  · exact h4
  · exact hused x hx

theorem collectLeaves_alike (freq : Table Count) {t u : TreeRegs} (h : Alike t u) :
    Alike (collectLeaves freq t) (collectLeaves freq u) := by
  have key : ∀ (l : List Byte) {t u : TreeRegs}, Alike t u → Alike (l.foldl (addLeaf freq) t) (l.foldl (addLeaf freq) u) := by
    intro l
    induction l with
    | nil => intro t u h; exact h
    | cons b l ih =>
      intro t u h
      rw [List.foldl_cons, List.foldl_cons]
      apply ih
      rw [addLeaf, addLeaf]
      split
      · exact h
      · exact insertNode_alike _ h
  exact key symbols h

theorem freqAt_alike {t u : TreeRegs} (h : Alike t u) {x : Handle} (hx : x ∈ t.pq) : t.freqAt x = u.freqAt x := by
  rw [TreeRegs.freqAt, h.1.2.2.2 x (h.2 x hx), TreeRegs.freqAt]

theorem mergeLoop_alike (fuel : Nat) {t u : TreeRegs} (h : Alike t u) : Alike (mergeLoop fuel t) (mergeLoop fuel u) := by
  induction fuel generalizing t u with
  | zero => exact h
  | succ fuel ih =>
    have hp := h.1.2.2.1
    match ht : t.pq with
    | [] => rw [mergeLoop, mergeLoop, ← hp, ht]; exact h
    | [a] => rw [mergeLoop, mergeLoop, ← hp, ht]; exact h
    | a :: b :: pq =>
      rw [mergeLoop, mergeLoop, ← hp, ht]
      simp only
      rw [freqAt_alike h (x := a) (by simp [ht]), freqAt_alike h (x := b) (by simp [ht])]
      apply ih
      apply insertNode_alike
      exact ⟨⟨h.1.1, h.1.2.1, rfl, h.1.2.2.2⟩, fun x hx => h.2 x (by simp only at hx; simp [ht, hx])⟩

/-- `TBUILD` depends on `FREQ` alone (R140). -/
theorem buildTree_same (freq : Table Count) (t u : TreeRegs) : (buildTree freq t).Same (buildTree freq u) := by
  have h : Alike (collectLeaves freq { t with cnt := 0, pq := [], root := none })
      (collectLeaves freq { u with cnt := 0, pq := [], root := none }) :=
    collectLeaves_alike freq ⟨⟨rfl, rfl, rfl, fun h hh => absurd hh (Nat.not_lt_zero _)⟩, fun h hh => by cases hh⟩
  rw [buildTree, buildTree]
  generalize collectLeaves freq { t with cnt := 0, pq := [], root := none } = v at *
  generalize collectLeaves freq { u with cnt := 0, pq := [], root := none } = w at *
  have hp := h.1.2.2.1
  rw [makeRoot.eq_def, makeRoot.eq_def, ← hp]
  match hv : v.pq with
  | [] => exact h.1
  | [a] =>
    simp only
    rw [freqAt_alike h (x := a) (by simp [hv])]
    obtain ⟨h1, h2, h3, h4, h5, h6⟩ := newNode_alike (t := { v with pq := [] }) (u := { w with pq := [] })
      (.internal (w.freqAt a) (some a) none) ⟨h.1.1, h.1.2.1, rfl, h.1.2.2.2⟩
    exact ⟨h2.1, congrArg some h1, h2.2.2.1, h2.2.2.2⟩
  | a :: b :: pq =>
    have hm := mergeLoop_alike v.pq.length h
    rw [hv] at hm
    exact ⟨hm.1.1, congrArg List.head? hm.1.2.2.1, rfl, hm.1.2.2.2⟩

theorem TreeRegs.Same.extends {t u : TreeRegs} (h : t.Same u) : Extends t u :=
  ⟨Nat.le_of_eq h.1, fun x hx => (h.2.2.2 x hx).symm⟩

theorem TreeRegs.Same.symm {t u : TreeRegs} (h : t.Same u) : u.Same t :=
  ⟨h.1.symm, h.2.1.symm, h.2.2.1.symm, fun x hx => (h.2.2.2 x (h.1 ▸ hx)).symm⟩

end Sys2Proof.Machine
end

