-- ==== Sys2Proof/Laws/Commands.lean ====
section
/-! SUPPORT. The second pass, its failing accesses included, and the two commands: what `ENCODE` leaves (`46_encoder.md`
rules R204 to R208) and how `DECODE` goes on from its header (`47_decoder.md` rules R215 to R217). -/

namespace Sys2Proof.Machine

/-! ### `EEMIT` -/

theorem afterBits_consumedAll (s : State) (m : Memory) (bits : List Bool) (n k : Nat) :
    (State.afterBits { s with mem := m.consumed n k } bits).mem.rest = m.rest.drop n := by
  simp [State.afterBits, Memory.wrote, Memory.rest, Memory.consumed, List.drop_drop]

/-- The streams after the rewind (R62). -/
def Memory.again (m : Memory) : Memory := { m.answered with src := m.rewound.getD m.src, srcPos := 0, rewound := none }

theorem Memory.again_rest (m : Memory) : m.again.rest = m.rewound.getD m.src := by simp [Memory.again, Memory.rest]

/-- The answers left when the bytes that some bits fill have been written, behind the rewind and some reads. -/
theorem afterBits_io (s : State) (bits : List Bool) (n k : Nat) :
    (State.afterBits { s with mem := s.mem.again.consumed n k } bits).mem.io =
      s.mem.io.drop (1 + (k + (fullBytes (s.pendingBits ++ bits)).length)) := by
  show List.drop _ (List.drop _ s.mem.io.tail) = _
  rw [← List.drop_one, List.drop_drop, List.drop_drop]
  rfl

/-- `EEMIT` up to the read behind some bytes that have codes: one access for the rewind, one for each byte read, one for each
byte filled (R204, R206). -/
theorem eemit_reaches {s : State} {l tail : List Byte}
    (ha : s.mem.WorksFor (1 + (l.length + (fullBytes (s.pendingBits ++ s.code.encodeAll l)).length))) (hw : s.WriterOk)
    (hin : s.mem.rewound.getD s.mem.src = l ++ tail) (hc : ∀ c ∈ l, Table.entry s.code.len c ≠ 0) :
    eemit s = forEachByte emitByte (tail.length + 1)
      (State.afterBits { s with mem := s.mem.again.consumed l.length l.length } (s.code.encodeAll l)) := by
  have hr : s.mem.again.rest = l ++ tail := by rw [Memory.again_rest, hin]
  have hio : s.mem.again.io = s.mem.io.drop 1 := by simp [Memory.again]
  have hstart : eemit s = forEachByte emitByte (s.mem.again.rest.length + 1) { s with mem := s.mem.again } := by
    rw [eemit, srcRewind_works (Memory.WorksFor.answer (n := 0) fun i hi => ha i (by omega)), Res.bind_ok]
    rfl
  rw [hstart, hr, List.length_append, Nat.add_assoc]
  exact emit_loop l tail (tail.length + 1) (s := { s with mem := s.mem.again }) (ha.drop hio (Nat.le_refl _)) hw hr hc

/-- `EEMIT` where every byte of the second pass has a code (R204, R206). -/
theorem eemit_works {s : State} (hf : s.mem.NoFailure) (hw : s.WriterOk)
    (hc : ∀ b ∈ s.mem.rewound.getD s.mem.src, Table.entry s.code.len b ≠ 0) :
    ∃ io, eemit s = .ok () (State.afterBits { s with mem := { s.mem.again with srcPos := s.mem.again.rest.length, io := io } }
        (s.code.encodeAll (s.mem.rewound.getD s.mem.src))) ∧ ∀ a ∈ io, a = IOAnswer.works := by
  have hf' : s.mem.again.NoFailure := Memory.noFailure_tail hf rfl
  have hr := Memory.again_rest s.mem
  rw [eemit_reaches (tail := []) (hf.worksFor _) hw (List.append_nil _).symm hc, ← hr, List.length_nil, Nat.zero_add,
    forEachByte_nil _ _ (Memory.answer_of_noFailure (afterBits_noFailure (Memory.consumed_noFailure hf' _ _) _))
      (by rw [afterBits_consumedAll]; simp)]
  refine ⟨(s.mem.again.io.drop s.mem.again.rest.length).drop 1, ?_, fun a ha => hf' a (List.mem_of_mem_drop (List.mem_of_mem_drop ha))⟩
  have h0 := afterBits_consumed { s with mem := s.mem.again.consumed s.mem.again.rest.length s.mem.again.rest.length }
    (s.code.encodeAll s.mem.again.rest) 0 1
  rw [h0]
  simp [Memory.consumed, Memory.again]

/-- `EEMIT` where a byte of the second pass has no code: `NoCode` at the first such byte (R205, R258). -/
theorem eemit_noCode {s : State} (hf : s.mem.NoFailure) (hw : s.WriterOk) {l tail : List Byte} {b : Byte}
    (hin : s.mem.rewound.getD s.mem.src = l ++ b :: tail) (hc : ∀ c ∈ l, Table.entry s.code.len c ≠ 0)
    (hb : Table.entry s.code.len b = 0) :
    ∃ io, eemit s = .raised (takeError .noCode
      (State.afterBits { s with mem := { s.mem.again with srcPos := l.length + 1, io := io } } (s.code.encodeAll l))) := by
  have hf' : s.mem.again.NoFailure := Memory.noFailure_tail hf rfl
  have hr : s.mem.again.rest = l ++ b :: tail := by rw [Memory.again_rest, hin]
  rw [eemit_reaches (hf.worksFor _) hw hin hc,
    forEachByte_cons (b := b) (l := tail) _ _ (Memory.answer_of_noFailure (afterBits_noFailure (Memory.consumed_noFailure hf' _ _) _))
      (by rw [afterBits_consumedAll]; simp [hr])]
  rw [emitByte_noCode, raise, Res.bind_raised]
  swap
  · exact hb
  refine ⟨(s.mem.again.io.drop l.length).drop 1, ?_⟩
  rw [afterBits_consumed { s with mem := s.mem.again.consumed l.length l.length }]
  simp [Memory.consumed, Memory.again]

/-- `EEMIT` where the read behind some bytes fails: their codes have been written (R251). -/
theorem eemit_read_fails {s : State} {l tail : List Byte} {k : Nat}
    (ha : s.mem.FailsAfter (1 + (l.length + (fullBytes (s.pendingBits ++ s.code.encodeAll l)).length)) k) (hw : s.WriterOk)
    (hin : s.mem.rewound.getD s.mem.src = l ++ tail) (hc : ∀ c ∈ l, Table.entry s.code.len c ≠ 0) :
    eemit s = .raised (takeError .io
      (State.afterBits { s with mem := s.mem.again.consumed l.length (l.length + 1) } (s.code.encodeAll l))) := by
  have hu : (State.afterBits { s with mem := s.mem.again.consumed l.length l.length } (s.code.encodeAll l)).mem.FailsAfter 0 k :=
    ha.drop (a := 1 + (l.length + (fullBytes (s.pendingBits ++ s.code.encodeAll l)).length)) (afterBits_io _ _ _ _) rfl
  rw [eemit_reaches ha.1 hw hin hc, forEachByte_fails _ _ hu.answer, afterBits_consumed]
  simp only [Memory.consumed_consumed, Nat.add_zero]

/-- `EEMIT` where the write of a byte that a code fills fails: of the bytes filled, those before it are in the sink, and of
itself what it landed (R251, R172). -/
theorem eemit_write_fails {s : State} {l tail : List Byte} {b : Byte} {m k : Nat} (ha : s.mem.FailsAfter (l.length + 2 + m) k)
    (hw : s.WriterOk) (hin : s.mem.rewound.getD s.mem.src = l ++ b :: tail)
    (hc : ∀ c ∈ l ++ [b], Table.entry s.code.len c ≠ 0)
    (hlo : (fullBytes (s.pendingBits ++ s.code.encodeAll l)).length ≤ m)
    (hhi : m < (fullBytes (s.pendingBits ++ s.code.encodeAll (l ++ [b]))).length) :
    ∃ acc n d io, eemit s = .raised (takeError .io { s with
      bwAcc := acc, bwN := n, draws := d
      mem := { s.mem.again.append ((fullBytes (s.pendingBits ++ s.code.encodeAll (l ++ [b]))).take m ++
        (((fullBytes (s.pendingBits ++ s.code.encodeAll (l ++ [b]))).drop m).take 1).take k) with srcPos := l.length + 1, io := io } }) := by
  have hr : s.mem.again.rest = l ++ b :: tail := by rw [Memory.again_rest, hin]
  obtain ⟨u, hu⟩ : ∃ u, u = State.afterBits { s with mem := s.mem.again.consumed l.length l.length } (s.code.encodeAll l) := ⟨_, rfl⟩
  have hcode : s.code.encodeAll (l ++ [b]) = s.code.encodeAll l ++ s.code.bits b := by
    rw [encodeAll_append]; simp [CodeTable.encodeAll]
  have hsplit : fullBytes (s.pendingBits ++ s.code.encodeAll (l ++ [b])) =
      fullBytes (s.pendingBits ++ s.code.encodeAll l) ++ fullBytes (u.pendingBits ++ s.code.bits b) := by
    rw [hcode, ← List.append_assoc, fullBytes_append, hu, afterBits_pending]
    rfl
  obtain ⟨j, rfl⟩ : ∃ j, m = (fullBytes (s.pendingBits ++ s.code.encodeAll l)).length + j := ⟨_, (Nat.add_sub_cancel' hlo).symm⟩
  rw [hsplit, List.length_append] at hhi
  have huio : u.mem.io = s.mem.io.drop (1 + (l.length + (fullBytes (s.pendingBits ++ s.code.encodeAll l)).length)) := by
    rw [hu, afterBits_io]
  have hau : u.mem.FailsAfter (1 + j) k := ha.drop huio (by omega)
  have huw : u.WriterOk := by rw [hu]; exact afterBits_writerOk _ _
  have hucode : u.code = s.code := by rw [hu]; rfl
  have hurest : u.mem.rest = b :: tail := by rw [hu, afterBits_consumedAll, hr, List.drop_left]
  obtain ⟨acc, n, d, h⟩ := emitByte_fails (s := { u with mem := u.mem.consumed 1 1 }) (b := b) (j := j) (k := k)
    (hau.drop (a := 1) rfl rfl) huw (by rw [hucode]; exact hc b (by simp)) (by
      show j < (fullBytes (u.pendingBits ++ u.code.bits b)).length
      rw [hucode]
      omega)
  have hx : fullBytes (State.pendingBits { u with mem := u.mem.consumed 1 1 } ++ u.code.bits b) =
      fullBytes (u.pendingBits ++ s.code.bits b) := by
    rw [hucode]; rfl
  dsimp only at h
  rw [hx] at h
  refine ⟨acc, n, d, (u.mem.consumed 1 1).io.drop (j + 1), ?_⟩
  rw [eemit_reaches (ha.1.drop (a := 0) rfl (by omega)) hw hin fun c hm => hc c (by simp [hm]), ← hu, List.length_cons,
    forEachByte_cons _ _ (Memory.WorksFor.answer (n := 0) fun i hi => hau.1 i (by omega)) hurest, h, Res.bind_raised, hsplit,
    List.take_length_add_append, List.drop_length_add_append]
  generalize fullBytes (u.pendingBits ++ s.code.bits b) = x
  rw [hu]
  simp only [State.afterBits, Memory.wrote, Memory.appended, Memory.append, Memory.consumed, Memory.again, List.append_assoc,
    List.length_append, Nat.zero_add, Nat.add_assoc]
  rfl

/-! ### `ENCODE` without failures -/

/-- The end of a successful `ENCODE` (R208). -/
def encodeEnd (o : HdrOrder) (s : State) (c : CodeTable) (io : List IOAnswer) : State :=
  { finishCommand (commandStart .eCount s) with
    size := BitVec.ofNat 64 s.mem.src.length
    freq := countsOf s.mem.src
    code := c
    tree := buildTree (countsOf s.mem.src) (commandStart .eCount s).tree
    mem := { s.mem with
      srcPos := s.mem.src.length
      snk := headerBytes o (BitVec.ofNat 64 s.mem.src.length) (countsOf s.mem.src) ++ pack (c.encodeAll s.mem.src)
      snkPos := Config.hdrLen + (pack (c.encodeAll s.mem.src)).length
      io := io } }

theorem countsOf_ne_zero {l : List Byte} (hl : InLimits l) {b : Byte} : Table.entry (countsOf l) b ≠ 0 ↔ b ∈ l := by
  have hc : l.count b < 2 ^ 32 := by
    have h := hl.2 b
    have h2 : Config.maxCount = 4294967295 := rfl
    omega
  rw [countsOf_entry, ← List.count_pos_iff]
  constructor
  · intro h
    by_contra h0
    apply h
    rw [show l.count b = 0 by omega]
    rfl
  · intro h e
    have := congrArg BitVec.toNat e
    rw [BitVec.toNat_ofNat, Nat.mod_eq_of_lt hc] at this
    simp at this
    omega

/-- A code table derived from a state whose tree is that of a frequency table: no code without a tree, else its paths. -/
def Derived (freq : Table Count) (s : State) (c : CodeTable) : Prop :=
  s.tree.root = none ∧ c = { s.code with len := Table.all 0 } ∨
    ∃ r sh, s.tree.root = some r ∧ Rep s.tree r sh ∧ sh.isInternal = true ∧ sh.depth ≤ Config.codeLenMax ∧
      sh.symbols.Perm (usedSymbols freq) ∧ CodesOf sh c

/-- The codes of the tree of a frequency table: what `CDERIVE` leaves after `TBUILD`. -/
theorem cderive_codes (freq : Table Count) (t : TreeRegs) {s : State} (h : s.tree = buildTree freq t) :
    ∃ c, cderive s = .ok () { s with code := c } ∧ Derived freq s c := by
  cases hr : s.tree.root with
  | none => exact ⟨_, cderive_none hr, .inl ⟨hr, rfl⟩⟩
  | some r =>
    obtain ⟨sh, h1, h2, h3, h4⟩ := (buildTree_ok freq t).2 r (h ▸ hr)
    rw [← h] at h1
    exact ⟨_, cderive_rep hr h1 h3, .inr ⟨r, sh, hr, h1, h2, h3, h4,
      codesOf_recordAll h3 (h4.nodup_iff.2 (usedSymbols_nodup freq)) s.code⟩⟩

/-- A symbol has a code exactly when its count is not zero (R163). -/
theorem cderive_len_ne {freq : Table Count} {t : TreeRegs} {s : State} {c : CodeTable} (h : s.tree = buildTree freq t)
    (hc : Derived freq s c) (b : Byte) :
    Table.entry c.len b ≠ 0 ↔ Table.entry freq b ≠ 0 := by
  rcases hc with ⟨h1, h2⟩ | ⟨r, sh, h1, h2, h3, h4, h5, h6⟩
  · rw [h] at h1
    have h0 := (buildTree_root_none freq t).1 h1 b
    rw [h2, h0]
    simp
  · rw [← mem_usedSymbols, ← h5.mem_iff]
    constructor
    · intro hne
      by_contra hm
      exact hne (h6.none b hm)
    · intro hm e
      obtain ⟨p, hp⟩ := Shape.exists_path hm
      have hl := (h6.path b p hp).2
      rw [e] at hl
      exact Shape.paths_ne_nil h3 hp (List.eq_nil_of_length_eq_zero hl.symm)

/-- The state in which `ENCODE` derives the codes. -/
def encodeBuilt (s : State) : State :=
  { commandStart .eDerive s with
    size := BitVec.ofNat 64 s.mem.src.length
    freq := countsOf s.mem.src
    tree := buildTree (countsOf s.mem.src) (commandStart .eCount s).tree
    mem := (commandStart .eCount s).mem.consumed s.mem.src.length (s.mem.src.length + 1) }

theorem encodeBuilt_tree (s : State) :
    (encodeBuilt s).tree = buildTree (countsOf s.mem.src) (commandStart .eCount s).tree := by
  rw [encodeBuilt]

/-- The last four phases of `ENCODE`, from a state with an empty sink and an empty Bit Writer (R204 to R207). -/
theorem encode_tail (o : HdrOrder) {u : State} {c : CodeTable} (hf : u.mem.NoFailure) (hs : u.mem.Stable) (ha : u.bwAcc = 0)
    (hn : u.bwN = 0) (hk : u.mem.snk = []) (hp : u.mem.snkPos = 0) (hcd : cderive u = .ok () { u with code := c })
    (hc : ∀ b ∈ u.mem.src, Table.entry c.len b ≠ 0) :
    ∃ io, ((cderive u).bind fun _ s => (hwrite o (goPhase .eHeader s)).bind fun _ s => (eemit (goPhase .eEmit s)).bind fun _ s =>
        (bwflush (goPhase .eFlush s)).bind fun _ s => .ok () (finishCommand s)) =
      .ok () (finishCommand { u with
        code := c
        bwAcc := 0
        bwN := 0
        mem := { u.mem with
          srcPos := u.mem.src.length
          snk := headerBytes o u.size u.freq ++ pack (c.encodeAll u.mem.src)
          snkPos := Config.hdrLen + (pack (c.encodeAll u.mem.src)).length
          io := io } }) := by
  rw [hcd, Res.bind_ok, hwrite_works o (s := goPhase .eHeader { u with code := c }) hf, Res.bind_ok]
  obtain ⟨v, hv⟩ : ∃ v : State, v = goPhase .eEmit { goPhase .eHeader { u with code := c } with
    mem := u.mem.appended (headerBytes o u.size u.freq) 258 } := ⟨_, rfl⟩
  show ∃ io, Res.bind (eemit (goPhase .eEmit { goPhase .eHeader { u with code := c } with
    mem := u.mem.appended (headerBytes o u.size u.freq) 258 })) _ = _
  rw [← hv]
  have hva : v.bwAcc = 0 := by rw [hv]; exact ha
  have hvn : v.bwN = 0 := by rw [hv]; exact hn
  have hvc : v.code = c := by rw [hv]; rfl
  have hvm : v.mem = u.mem.appended (headerBytes o u.size u.freq) 258 := by rw [hv]; rfl
  have hfv : v.mem.NoFailure := by rw [hvm]; exact Memory.appended_noFailure hf _ _
  have hwv : v.WriterOk := by
    intro i _
    rw [hva]; simp
  have hin : v.mem.rewound.getD v.mem.src = u.mem.src := by
    rw [hvm]
    show u.mem.rewound.getD u.mem.src = _
    rw [hs]; rfl
  have hvp : v.pendingBits = [] := by simp [State.pendingBits, hvn]
  obtain ⟨io, he, hio⟩ := eemit_works hfv hwv (by rw [hin, hvc]; exact hc)
  rw [hin] at he
  rw [he, Res.bind_ok]
  obtain ⟨v', hv'⟩ : ∃ v' : State, v' = { v with mem := { v.mem.again with srcPos := v.mem.again.rest.length, io := io } } :=
    ⟨_, rfl⟩
  rw [← hv', hvc]
  have hv'p : v'.pendingBits = [] := by rw [hv']; exact hvp
  have hfw : (goPhase .eFlush (v'.afterBits (c.encodeAll u.mem.src))).mem.NoFailure := by
    intro a hm
    have hm' : a ∈ (v'.afterBits (c.encodeAll u.mem.src)).mem.io := hm
    simp only [State.afterBits, Memory.wrote] at hm'
    have := List.mem_of_mem_drop hm'
    rw [hv'] at this
    exact hio a this
  have hww : (goPhase .eFlush (v'.afterBits (c.encodeAll u.mem.src))).WriterOk := afterBits_writerOk v' _
  have hpb : (goPhase .eFlush (v'.afterBits (c.encodeAll u.mem.src))).pendingBits = leftover (c.encodeAll u.mem.src) := by
    have := afterBits_pending v' (c.encodeAll u.mem.src)
    rw [hv'p, List.nil_append] at this
    exact this
  rw [bwflush_works hfw hww, Res.bind_ok, hpb]
  refine ⟨((goPhase .eFlush (v'.afterBits (c.encodeAll u.mem.src))).mem.wrote (pack (leftover (c.encodeAll u.mem.src)))).io, ?_⟩
  have hmem : (goPhase .eFlush (v'.afterBits (c.encodeAll u.mem.src))).mem.wrote (pack (leftover (c.encodeAll u.mem.src))) =
      { u.mem with
          srcPos := u.mem.src.length
          snk := headerBytes o u.size u.freq ++ pack (c.encodeAll u.mem.src)
          snkPos := Config.hdrLen + (pack (c.encodeAll u.mem.src)).length
          io := ((goPhase .eFlush (v'.afterBits (c.encodeAll u.mem.src))).mem.wrote (pack (leftover (c.encodeAll u.mem.src)))).io } := by
    have h1 : v'.mem.src = u.mem.src := by rw [hv']; exact hin
    have h2 : v'.mem.srcPos = u.mem.src.length := by
      rw [hv']
      show v.mem.again.rest.length = _
      rw [Memory.again_rest, hin]
    have h3 : v'.mem.rewound = u.mem.rewound := by rw [hv']; exact hs.symm
    have h4 : v'.mem.snk = headerBytes o u.size u.freq := by
      rw [hv']
      show v.mem.snk = _
      rw [hvm]
      show u.mem.snk ++ _ = _
      rw [hk, List.nil_append]
    have h5 : v'.mem.snkPos = Config.hdrLen := by
      rw [hv']
      show v.mem.snkPos = _
      rw [hvm]
      show u.mem.snkPos + _ = _
      rw [hp, headerBytes_length, Nat.zero_add]
    rw [pack_split (c.encodeAll u.mem.src)]
    simp only [goPhase_mem, State.afterBits, Memory.wrote, Memory.append, hv'p, List.nil_append, h1, h2, h3, h4, h5,
      List.length_append, List.append_assoc, Nat.add_assoc]
  rw [hmem]
  congr 1
  rw [hv', hv]
  rfl

/-- `ENCODE` on a stable source within the limits, nothing failing (R208). -/
theorem runEncode_works (o : HdrOrder) {s : State} (hb : s.status ≠ .busy) (hf : s.mem.NoFailure) (hs : s.mem.Stable)
    (hl : InLimits s.mem.src) :
    ∃ c io, runEncode o s = .ok () (encodeEnd o s c io) ∧
      Derived (countsOf s.mem.src) (encodeBuilt s) c := by
  have hrest : (commandStart .eCount s).mem.rest = s.mem.src := by simp [Memory.rest]
  have hfc := fcount_works (s := commandStart .eCount s) hf (by rw [hrest]; exact hl)
  rw [hrest] at hfc
  obtain ⟨c, hcd, hcases⟩ := cderive_codes (countsOf s.mem.src) (commandStart .eCount s).tree (encodeBuilt_tree s)
  have hcode := cderive_len_ne (encodeBuilt_tree s) hcases
  obtain ⟨io, ht⟩ := encode_tail o (u := encodeBuilt s) (c := c) (Memory.noFailure_drop hf rfl) hs rfl rfl rfl rfl hcd
    (fun b hbm => (hcode b).2 ((countsOf_ne_zero hl).2 hbm))
  refine ⟨c, io, ?_, hcases⟩
  rw [runEncode, startCommand, if_neg hb, Res.bind_ok, hfc, Res.bind_ok, tbuild, Res.bind_ok]
  refine Eq.trans (Eq.trans ?_ ht) ?_
  · simp only [encodeBuilt, commandStart, goPhase]
  · simp only [encodeEnd, encodeBuilt, finishCommand, commandStart, Memory.consumed]

/-! ### `DECODE`, after its header -/

/-- The state in which `DECODE` has rebuilt the tree from a header (R215, R216). -/
def decodeBuilt (s : State) (size : Size) (freq : Table Count) : State :=
  { commandStart .dBuild s with
    size := size
    freq := freq
    tree := buildTree freq (commandStart .dHeader s).tree
    mem := (commandStart .dHeader s).mem.consumed Config.hdrLen 258 }

/-- `DECODE` of a source that begins with a header (R215, R217). -/
theorem runDecode_header (o : HdrOrder) {s : State} (hb : s.status ≠ .busy) (hf : s.mem.NoFailure) {size : Size}
    {freq : Table Count} {payload : List Byte} (hr : s.mem.src = headerBytes o size freq ++ payload) :
    runDecode o s =
      if size = 0 then .ok () (finishCommand (decodeBuilt s size freq))
      else (dwalk (goPhase .dWalk (decodeBuilt s size freq))).bind fun _ t => .ok () (finishCommand t) := by
  have hrest : (commandStart .dHeader s).mem.rest = headerBytes o size freq ++ payload := by simpa [Memory.rest] using hr
  rw [runDecode, startCommand, if_neg hb, Res.bind_ok, hread_header o (s := commandStart .dHeader s) hf hrest, Res.bind_ok,
    tbuild, Res.bind_ok]
  rfl

/-- The bits the walk of `DECODE` has before it. -/
theorem decodeBuilt_bits (o : HdrOrder) {s : State} {size : Size} {freq : Table Count} {payload : List Byte}
    (hr : s.mem.src = headerBytes o size freq ++ payload) (p : Phase) :
    (goPhase p (decodeBuilt s size freq)).availableBits = payload.flatMap byteBits := by
  have h1 : (goPhase p (decodeBuilt s size freq)).mem.rest = payload := by
    show ((commandStart .dHeader s).mem.consumed Config.hdrLen 258).rest = payload
    rw [Memory.consumed_rest]
    have : (commandStart .dHeader s).mem.rest = headerBytes o size freq ++ payload := by simpa [Memory.rest] using hr
    rw [this, List.drop_left' (headerBytes_length o size freq)]
  have h2 : (goPhase p (decodeBuilt s size freq)).brN = 0 := rfl
  rw [State.availableBits, h1, h2]
  rfl

theorem decodeBuilt_noFailure {s : State} (hf : s.mem.NoFailure) (size : Size) (freq : Table Count) (p : Phase) :
    (goPhase p (decodeBuilt s size freq)).mem.NoFailure := Memory.noFailure_drop hf rfl

/-- `DECODE` of a source without the magic (R195, R240). -/
theorem runDecode_badMagic (o : HdrOrder) {s : State} (hb : s.status ≠ .busy) (hf : s.mem.NoFailure)
    (hm : s.mem.src.take 4 ≠ magic) :
    runDecode o s = .raised (takeError .badMagic { commandStart .dHeader s with
      mem := (commandStart .dHeader s).mem.consumed (s.mem.src.take 4).length 1 }) := by
  have hrest : (commandStart .dHeader s).mem.rest = s.mem.src := by simp [Memory.rest]
  have h := hread_badMagic o (s := commandStart .dHeader s) hf (by rw [hrest]; exact hm)
  rw [hrest] at h
  rw [runDecode, startCommand, if_neg hb, Res.bind_ok, h, raise, Res.bind_raised]

/-- `DECODE` of a source that ends inside its header (R194, R240). -/
theorem runDecode_truncated (o : HdrOrder) {s : State} (hb : s.status ≠ .busy) (hf : s.mem.NoFailure)
    (hm : s.mem.src.take 4 = magic) (hl : s.mem.src.length < Config.hdrLen) :
    ∃ z f k, runDecode o s = .raised (takeError .truncHeader { commandStart .dHeader s with
      size := z, freq := f, mem := (commandStart .dHeader s).mem.consumed s.mem.src.length k }) := by
  have hrest : (commandStart .dHeader s).mem.rest = s.mem.src := by simp [Memory.rest]
  obtain ⟨z, f, k, h⟩ := hread_truncated o (s := commandStart .dHeader s) hf (by rw [hrest]; exact hm) (by rw [hrest]; exact hl)
  rw [hrest] at h
  exact ⟨z, f, k, by rw [runDecode, startCommand, if_neg hb, Res.bind_ok, h, raise, Res.bind_raised]⟩

/-- Where codes are the paths of a tree, each symbol's code leads from the root to its leaf (R97). -/
theorem codes_follow {t : TreeRegs} {r : Handle} {sh : Shape} {c : CodeTable} (hr : Rep t r sh) (hc : CodesOf sh c)
    {b : Byte} (hb : b ∈ sh.symbols) : ∃ g f, t.follow r (c.bits b) = some g ∧ t.nodeAt g = .leaf b f := by
  obtain ⟨p, hp⟩ := Shape.exists_path hb
  rw [(hc.path b p hp).1]
  exact hr.follow hp

end Sys2Proof.Machine
end

