-- ==== Sys2Proof/Laws/Outcomes.lean ====
section
/-! SUPPORT. How the commands and the operations end whatever the accesses answer: every command ends, and all or nothing
(`48_properties.md` rule R244, `70_reset_and_hazards.md` rule R294). -/

namespace Sys2Proof.Machine

theorem commandStart_rest (p : Phase) (s : State) : (commandStart p s).mem.rest = s.mem.src := by simp [Memory.rest]

/-- `CDERIVE` reads the tree and the old table only. -/
theorem cderive_congr {u v : State} {c : CodeTable} (ht : v.tree = u.tree) (hc : v.code = u.code)
    (h : cderive u = .ok () { u with code := c }) : cderive v = .ok () { v with code := c } := by
  have key : ∀ w : State, (∃ c', cderive w = .ok () { w with code := c' } ∧
      (w.tree.root = none ∧ c' = { w.code with len := Table.all 0 } ∨
        ∃ r, w.tree.root = some r ∧ visit w.tree (Config.codeLenMax + 1) r 0 0 { w.code with len := Table.all 0 } = some c')) ∨
      cderive w = .fault .treeTooDeep ∧
        ∃ r, w.tree.root = some r ∧ visit w.tree (Config.codeLenMax + 1) r 0 0 { w.code with len := Table.all 0 } = none := by
    intro w
    cases hr : w.tree.root with
    | none => exact .inl ⟨_, cderive_none hr, .inl ⟨rfl, rfl⟩⟩
    | some r =>
      cases hv : visit w.tree (Config.codeLenMax + 1) r 0 0 { w.code with len := Table.all 0 } with
      | none => exact .inr ⟨by simp only [cderive, hr, hv], r, rfl, hv⟩
      | some c' => exact .inl ⟨c', by simp only [cderive, hr, hv], .inr ⟨r, rfl, hv⟩⟩
  rcases key u with ⟨c', h1, h2⟩ | ⟨h1, _⟩
  · rw [h1] at h
    have hcc : c' = c := by
      injection h with _ h
      exact congrArg State.code h
    subst hcc
    rcases h2 with ⟨h2, h3⟩ | ⟨r, h2, h3⟩
    · rw [cderive_none (by rw [ht]; exact h2), h3, hc]
    · simp only [cderive, ht, hc, h2, h3]
  · rw [h1] at h; cases h

/-- A running `ENCODE` between two phases: what has been counted, and what the sink holds. -/
structure EncodeAt (s : State) (snk : List Byte) (t : State) : Prop where
  busy : t.status = .busy
  err : t.err = .none
  emitted : t.emitted = 0
  size : t.size = BitVec.ofNat 64 s.mem.src.length
  freq : t.freq = countsOf s.mem.src
  src : t.mem.src = s.mem.src
  rewound : t.mem.rewound = s.mem.rewound
  snk : t.mem.snk = snk
  bwN : t.bwN = 0
  bwAcc : t.bwAcc = 0

theorem EncodeAt.go {s t : State} {snk : List Byte} (h : EncodeAt s snk t) (p : Phase) : EncodeAt s snk (goPhase p t) :=
  ⟨h.busy, h.err, h.emitted, h.size, h.freq, h.src, h.rewound, h.snk, h.bwN, h.bwAcc⟩

/-- Every end of `ENCODE` on a stable source within the limits, whatever the accesses answer: the complete container, or an
I/O failure with a prefix of it in the sink (R73, R210, R244). -/
theorem runEncode_does (o : HdrOrder) {s : State} (hb : s.status ≠ .busy) (hs : s.mem.Stable) (hl : InLimits s.mem.src) :
    ∃ c, Derived (countsOf s.mem.src) (encodeBuilt s) c ∧
      (runEncode o s).Does
        (fun _ t => t.status = .done ∧ t.phase = .done ∧ t.err = .none ∧ t.emitted = 0 ∧
          t.size = BitVec.ofNat 64 s.mem.src.length ∧ t.code = c ∧
          t.mem.snk = headerBytes o (BitVec.ofNat 64 s.mem.src.length) (countsOf s.mem.src) ++ pack (c.encodeAll s.mem.src))
        (fun e u => e = .io ∧
          u.mem.snk <+: headerBytes o (BitVec.ofNat 64 s.mem.src.length) (countsOf s.mem.src) ++ pack (c.encodeAll s.mem.src)) := by
  obtain ⟨c, hcd, hcases⟩ := cderive_codes (countsOf s.mem.src) (commandStart .eCount s).tree (encodeBuilt_tree s)
  have hcode := cderive_len_ne (encodeBuilt_tree s) hcases
  refine ⟨c, hcases, ?_⟩
  have hrest := commandStart_rest .eCount s
  have hl' : InLimits (commandStart .eCount s).mem.rest := by rw [hrest]; exact hl
  rw [runEncode, startCommand, if_neg hb, Res.bind_ok]
  refine (fcount_does hl').bind ?_ ?_
  · rintro _ t ⟨⟨⟨f, z, p, io, ht⟩, -⟩, hfreq, hsize⟩
    rw [hrest] at hfreq hsize
    have htree : t.tree = (commandStart .eCount s).tree := by rw [ht]
    have hcodet : t.code = (encodeBuilt s).code := by rw [ht]; rfl
    have hat : EncodeAt s [] t := by
      refine ⟨?_, ?_, ?_, hsize, hfreq, ?_, ?_, ?_, ?_, ?_⟩ <;> rw [ht] <;> rfl
    rw [tbuild, Res.bind_ok]
    have hat' : EncodeAt s [] (goPhase .eDerive { goPhase .eBuild t with tree := buildTree (goPhase .eBuild t).freq (goPhase .eBuild t).tree }) :=
      ⟨hat.busy, hat.err, hat.emitted, hat.size, hat.freq, hat.src, hat.rewound, hat.snk, hat.bwN, hat.bwAcc⟩
    have htr' : (goPhase .eDerive { goPhase .eBuild t with tree := buildTree (goPhase .eBuild t).freq (goPhase .eBuild t).tree }).tree = (encodeBuilt s).tree := by
      rw [encodeBuilt_tree]
      simp only [goPhase_tree, goPhase_freq, hfreq, htree]
    have hc' : (goPhase .eDerive { goPhase .eBuild t with tree := buildTree (goPhase .eBuild t).freq (goPhase .eBuild t).tree }).code = (encodeBuilt s).code := hcodet
    generalize goPhase .eDerive { goPhase .eBuild t with tree := buildTree (goPhase .eBuild t).freq (goPhase .eBuild t).tree } = u at *
    rw [cderive_congr htr' hc' hcd, Res.bind_ok]
    have hau : EncodeAt s [] (goPhase .eHeader { u with code := c }) :=
      ⟨hat'.busy, hat'.err, hat'.emitted, hat'.size, hat'.freq, hat'.src, hat'.rewound, hat'.snk, hat'.bwN, hat'.bwAcc⟩
    have hcu : (goPhase .eHeader { u with code := c }).code = c := rfl
    generalize goPhase .eHeader { u with code := c } = v at *
    refine (hwrite_does o v).bind ?_ ?_
    · rintro _ w ⟨io, hw⟩
      rw [hau.size, hau.freq] at hw
      have haw : EncodeAt s (headerBytes o (BitVec.ofNat 64 s.mem.src.length) (countsOf s.mem.src)) (goPhase .eEmit w) := by
        rw [hw]
        exact ⟨hau.busy, hau.err, hau.emitted, rfl, rfl, hau.src, hau.rewound,
          by show v.mem.snk ++ _ = _; rw [hau.snk, List.nil_append], hau.bwN, hau.bwAcc⟩
      have hcw : (goPhase .eEmit w).code = c := by rw [hw]; exact hcu
      generalize goPhase .eEmit w = x at *
      have hin : x.mem.rewound.getD x.mem.src = s.mem.src := by
        rw [haw.rewound, haw.src, hs]; rfl
      have hwx : x.WriterOk := by
        intro i _
        rw [haw.bwAcc]; simp
      have hpx : x.pendingBits = [] := by simp [State.pendingBits, haw.bwN]
      have he := eemit_does x
      rw [hin, hcw, hpx, List.nil_append] at he
      refine he.bind ?_ ?_
      · rintro _ y ⟨⟨⟨acc, n, d, v', src, pos, rw', io', hy, _⟩, _⟩, _, hval⟩
        obtain ⟨hwy, hpy, hsy⟩ := hval hwx
        rw [haw.snk] at hsy
        refine (bwflush_does (goPhase .eFlush y)).bind ?_ ?_
        · rintro _ z ⟨⟨acc', n', v'', io'', hz, _⟩, _, hzv⟩
          obtain ⟨_, hzs⟩ := hzv hwy
          refine ⟨rfl, rfl, ?_, ?_, ?_, ?_, ?_⟩
          · rw [hz, hy]; exact haw.err
          · rw [hz, hy]; exact haw.emitted
          · rw [hz, hy]; exact haw.size
          · rw [hz, hy]; exact hcw
          · show z.mem.snk = _
            rw [hzs]
            show y.mem.snk ++ pack y.pendingBits = _
            rw [hsy, hpy, List.append_assoc, ← pack_split]
        · rintro e u' ⟨he', acc', n', v'', io'', hu', _, hpre⟩
          refine ⟨he', ?_⟩
          rw [hu']
          show y.mem.snk ++ v'' <+: _
          have hpre' : v'' <+: pack y.pendingBits := hpre hwy
          rw [hsy, pack_split (c.encodeAll s.mem.src), List.append_assoc]
          rw [hpy] at hpre'
          exact (List.prefix_append_right_inj _).2 ((List.prefix_append_right_inj _).2 hpre')
      · rintro e u' ⟨he', ⟨acc, n, d, v', src, pos, rw', io', hu', _, _, hpre⟩, _⟩
        have hio : e = .io := by
          rcases he' with he' | ⟨_, b, hbm, hb0⟩
          · exact he'
          · exact absurd hb0 ((hcode b).2 ((countsOf_ne_zero hl).2 hbm))
        refine ⟨hio, ?_⟩
        have hpre' := hpre hwx
        rw [hpx, List.nil_append, hcw, hin] at hpre'
        rw [hu']
        show x.mem.snk ++ v' <+: _
        rw [haw.snk, pack_split (c.encodeAll s.mem.src)]
        exact (List.prefix_append_right_inj _).2 (hpre'.trans (List.prefix_append _ _))
    · rintro e u' ⟨he', v', hpre, io, hu'⟩
      refine ⟨he', ?_⟩
      rw [hu']
      show v.mem.snk ++ v' <+: _
      rw [hau.snk, List.nil_append]
      rw [hau.size, hau.freq] at hpre
      exact hpre.trans (List.prefix_append _ _)
  · rintro e u ⟨he, ⟨f, z, p, io, hu⟩, _⟩
    refine ⟨he, ?_⟩
    rw [hu]
    exact List.nil_prefix

theorem fcount_ends {s : State} (hl : InLimits s.mem.rest) :
    (fcount s).Does (fun _ t => t.mem.rewound = s.mem.rewound) fun e _ => e = .io :=
  (fcount_does hl).mono (fun _ t h => by obtain ⟨⟨⟨_, _, _, _, rfl⟩, _⟩, _⟩ := h; rfl) fun _ _ h => h.1

/-- `CDERIVE` after `TBUILD` returns (R294). -/
theorem cderive_after (s : State) (h : s.tree.Ok) : (cderive s).Does (fun _ _ => True) fun _ _ => False := by
  obtain ⟨c, hc⟩ := cderive_ok h
  rw [hc]
  trivial

/-- `ENCODE` within the limits ends, whatever the accesses answer and whether or not the source is stable (R294). -/
theorem runEncode_ends (o : HdrOrder) {s : State} (hb : s.status ≠ .busy) (hl : InLimits s.mem.src) :
    (runEncode o s).Does (fun _ t => t.status = .done ∧ t.phase = .done) fun e _ => e = .io ∨ e = .noCode := by
  have hl' : InLimits (commandStart .eCount s).mem.rest := by rw [commandStart_rest]; exact hl
  rw [runEncode, startCommand, if_neg hb, Res.bind_ok]
  refine (fcount_ends hl').bind ?_ fun _ _ h => .inl h
  rintro _ t -
  rw [tbuild, Res.bind_ok]
  refine (cderive_after _ (buildTree_ok _ _).1).bind ?_ fun _ _ h => h.elim
  rintro _ u -
  refine (hwrite_does o _).bind ?_ fun _ _ h => .inl h.1
  rintro _ v -
  refine (eemit_does _).bind ?_ ?_
  · rintro _ w -
    refine (bwflush_does _).bind ?_ fun _ _ h => .inl h.1
    rintro _ x -
    exact ⟨rfl, rfl⟩
  · rintro e w ⟨h, _⟩
    rcases h with h | ⟨h, _⟩
    · exact .inl h
    · exact .inr h

/-- Every end of `DECODE`, whatever the accesses answer (R225, R226, R244, R252, R294). -/
theorem runDecode_does (o : HdrOrder) {s : State} (hb : s.status ≠ .busy) :
    (runDecode o s).Does
      (fun _ t => t.status = .done ∧ t.phase = .done ∧ t.err = .none ∧ t.emitted = t.size ∧ t.mem.snk.length = t.size.toNat)
      (fun e u => u.mem.snk.length ≤ u.size.toNat ∧
        (WalkError e ∨ (e = .badMagic ∨ e = .truncHeader ∨ e = .noTree) ∧ u.mem.snk = [])) := by
  rw [runDecode, startCommand, if_neg hb, Res.bind_ok]
  refine (hread_does o _).bind ?_ ?_
  · rintro _ t ⟨⟨z, f, p, io, ht⟩, -⟩
    have h1 : t.err = .none := by rw [ht]; rfl
    have h2 : t.emitted = 0 := by rw [ht]; rfl
    have h3 : t.mem.snk = [] := by rw [ht]; rfl
    rw [tbuild, Res.bind_ok]
    split
    next hz =>
      refine ⟨rfl, rfl, h1, ?_, ?_⟩
      · exact h2.trans (Eq.symm hz)
      · have hz' : t.size = 0 := hz
        show t.mem.snk.length = t.size.toNat
        rw [h3, hz']; rfl
    next hz =>
      refine (dwalk_does _).bind ?_ ?_
      · rintro _ u ⟨v, ⟨⟨em, buf, n, ok, cur, pos, io', hu⟩, _⟩, he, hlen⟩
        refine ⟨rfl, rfl, ?_, ?_, ?_⟩
        · rw [hu]; exact h1
        · have hsz : u.size = t.size := by rw [hu]; rfl
          show u.emitted = u.size
          rw [he, hsz]; rfl
        · rw [hu]
          show (t.mem.snk ++ v).length = t.size.toNat
          rw [h3, List.nil_append]; exact hlen
      · rintro e u (⟨rfl, rfl⟩ | ⟨he, v, ⟨⟨em, buf, n, ok, cur, pos, io', hu⟩, _⟩, hlen⟩)
        · refine ⟨?_, .inr ⟨.inr (.inr rfl), h3⟩⟩
          show t.mem.snk.length ≤ t.size.toNat
          rw [h3]
          exact Nat.zero_le _
        · refine ⟨?_, .inl he⟩
          rw [hu]
          show (t.mem.snk ++ v).length ≤ t.size.toNat
          rw [h3, List.nil_append]; exact hlen
  · rintro e u ⟨he, ⟨z, f, p, io, hu⟩, -⟩
    refine ⟨by rw [hu]; exact Nat.zero_le _, ?_⟩
    rcases he with rfl | rfl | rfl
    · exact .inl (.inl rfl)
    · exact .inr ⟨.inr (.inl rfl), by rw [hu]; rfl⟩
    · exact .inr ⟨.inl rfl, by rw [hu]; rfl⟩

end Sys2Proof.Machine
end

