-- ==== Sys2Proof/Laws/Operations.lean ====
section
/-! SUPPORT. Operations in a row, the errors of an operation, and the Bit Reader call by call (`44_bit_reader.md` rules R181 to R184). -/

namespace Sys2Proof.Machine

/-- Every internal operation as a result that keeps the invariant; only a bit count out of range is refused. -/
theorem exec_keep {i : Instr} (hi : i.isCommand = false) (s : State) :
   (∃ (α : Type) (r : Res α), r.Keep s ∧ exec i s = r.outcome) ∨ exec i s = .refused .operandRange := by
  cases i with
  | encode => cases hi
  | decode => cases hi
  | fcount => exact .inl ⟨_, _, fcount_keep s, rfl⟩
  | tbuild => exact .inl ⟨_, _, tbuild_keep s, rfl⟩
  | cderive => exact .inl ⟨_, _, cderive_keep s, rfl⟩
  | bwbit b => exact .inl ⟨_, _, bwbit_keep b s, rfl⟩
  | bwbits p n =>
    by_cases h : n ≤ Config.codeLenMax
    · exact .inl ⟨_, _, bwbits_keep p n s, by simp only [exec, execBwbits, if_pos h]⟩
    · exact .inr (by simp only [exec, execBwbits, if_neg h])
  | bwflush => exact .inl ⟨_, _, bwflush_keep s, rfl⟩
  | brbit => exact .inl ⟨_, _, brbit_keep s, rfl⟩
  | hwrite => exact .inl ⟨_, _, hwrite_keep _ s, rfl⟩
  | hread => exact .inl ⟨_, _, hread_keep _ s, rfl⟩
  | eemit => exact .inl ⟨_, _, eemit_keep s, rfl⟩
  | dwalk => exact .inl ⟨_, _, dwalk_keep s, rfl⟩

/-- What both kinds of ends of an operation have in common. -/
theorem Res.Does.sat {α : Type} {r : Res α} {Q : α → State → Prop} {F : Err → State → Prop} {P : State → Prop} (h : r.Does Q F)
    (hQ : ∀ a t, Q a t → P t) (hF : ∀ e u, F e u → P (takeError e u)) : r.Sat (fun _ t => P t) P := by
  match r, h with
  | .ok a t, h => exact hQ a t h
  | .raised t, ⟨e, u, h, ht⟩ => show P t; rw [ht]; exact hF e u h

/-- The error of an operation that ends is one it may raise (R250). -/
theorem Res.Does.errs {α : Type} {r : Res α} {s t : State} {Q : α → State → Prop} {F : Err → State → Prop} {l : List Err} (k : r.Keep s) (h : r.Does Q F) (hF : ∀ e u, F e u → e ∈ l)
   (ht : r.outcome = .next t) : t.err = s.err ∨ (t.err ∈ l ∧ t.status = .fault) := by
  rcases h.next ht with ⟨a, ha⟩ | ⟨e, u, hu, rfl⟩
  · rcases k.control ht with h1 | h1
    · exact .inl h1.2.1
    · cases r with
      | ok a' t' => cases ht; exact .inl (Keeps.err k)
      | raised t' => 
        obtain ⟨e, u, h2, h3⟩ := h
        cases ht
        exact .inr ⟨by rw [h3]; exact hF _ _ h2, by rw [h3]; rfl⟩
      | fault f => cases ht
      | refused f => cases ht
  · exact .inr ⟨hF _ _ hu, rfl⟩

/-- `ENCODE` refuses an input beyond the limits (R132). -/
theorem runEncode_refuses (o : HdrOrder) {s : State} (hb : s.status ≠ .busy) (hl : ¬ InLimits s.mem.src) :
    runEncode o s = .refused .lengthLimit ∨ runEncode o s = .refused .countLimit := by
  rw [runEncode, startCommand, if_neg hb, Res.bind_ok]
  rcases fcount_refuses (s := commandStart .eCount s) (by rw [commandStart_rest]; exact hl) with h | h <;> rw [h]
  · exact .inl rfl
  · exact .inr rfl

theorem execAll_append (is js : List Instr) {s t : State} (h : execAll is s = .next t) : execAll (is ++ js) s = execAll js t := by
  induction is generalizing s with
  | nil => cases h; rfl
  | cons i is ih =>
    rw [execAll] at h
    rw [List.cons_append, execAll]
    cases hi : exec i s with
    | next u => rw [hi] at h; exact ih h
    | fault f => rw [hi] at h; cases h
    | refused f => rw [hi] at h; cases h

/-- Bits written one after the other (R176). -/
theorem execAll_bits {s : State} (hf : s.mem.NoFailure) (bits : List Bool) : execAll (bits.map Instr.bwbit) s = (writeBits bits s).outcome := by
  induction bits generalizing s with
  | nil => rfl
  | cons b bs ih =>
    obtain ⟨t, h1, h2⟩ := bwbit_next hf b
    rw [List.map_cons, execAll, writeBits, h1, Res.bind_ok]
    have : exec (.bwbit b) s = .next t := by rw [exec, execBwbit, h1]; rfl
    rw [this]
    exact ih h2

/-- Appending changes no byte but those appended (R71). -/
theorem sinkByte_append (m : Memory) {v : List Byte} {n a : Nat} (hv : v.length ≤ n) (ha : a < m.snk.length ∨ m.snk.length + n ≤ a) :
    (m.snk ++ v)[a]? = m.snk[a]? := by
  rcases ha with ha | ha
  · rw [List.getElem?_append_left ha]
  · rw [List.getElem?_eq_none (by rw [List.length_append]; omega), List.getElem?_eq_none (by omega)]

theorem brN_pred {s : State} (h : s.brN.val ≠ 0) : (s.brN - 1 : Fin 9).val = s.brN.val - 1 := by
  have := s.brN.isLt
  rw [Fin.sub_def]
  simp only [Fin.val_one]
  omega

/-- A bit of the byte in the buffer (R181). -/
theorem brbit_buffered {s : State} (h : s.brN.val ≠ 0) :
    brbit s = .ok (some (s.brBuf.getLsbD (s.brN.val - 1))) { s with brN := s.brN - 1, brOk := true } := by
  rw [brbit, if_neg h]; rfl

/-- A bit of a byte pulled in (R181). -/
theorem brbit_pulls {s : State} {b : Byte} {l : List Byte} (h : s.brN.val = 0) (ha : s.mem.answer = .works) (hr : s.mem.rest = b :: l) :
    brbit s = .ok (some (b.getLsbD 7)) { s with brBuf := b, brN := 7, brOk := true, mem := { s.mem.answered with srcPos := s.mem.srcPos + 1 } } := by
  rw [brbit, if_pos h, memRead_works ha, hr]
  rfl

/-- No bit (R182). -/
theorem brbit_end {s : State} (hf : s.mem.NoFailure) (h : s.brN = 0) (hr : s.mem.rest = []) :
    brbit s = .ok none { s with brOk := false, mem := s.mem.answered } := by
  rw [brbit, if_pos (show s.brN.val = 0 by rw [h]; rfl), memRead_works (Memory.answer_of_noFailure hf), hr]
  rfl

/-- The state after `k + 1` bits (R183, R184). -/
theorem brbit_many {s : State} (hf : s.mem.NoFailure) (h0 : s.brN = 0) (k : Nat) (hk : k < 8 * s.mem.rest.length) :
    ∃ io, (∀ a ∈ io, a = IOAnswer.works) ∧ execAll (List.replicate (k + 1) Instr.brbit) s = .next { s with
      brBuf := s.mem.rest.getD (k / 8) 0
      brN := Fin.ofNat 9 (7 - k % 8)
      brOk := true
      mem := { s.mem with srcPos := s.mem.srcPos + (k + 8) / 8, io := io } } := by
  have hrest : ∀ p io, Memory.rest { s.mem with srcPos := s.mem.srcPos + p, io := io } = s.mem.rest.drop p := by
    intro p io
    simp [Memory.rest, List.drop_drop]
  induction k with
  | zero =>
    match hr : s.mem.rest, hk with
    | b :: l, _ =>
      refine ⟨s.mem.io.tail, fun a ha => hf a (List.mem_of_mem_tail ha), ?_⟩
      show execAll [Instr.brbit] s = _
      rw [execAll, exec, execBrbit, brbit_pulls (show s.brN.val = 0 by rw [h0]; rfl) (Memory.answer_of_noFailure hf) hr]
      rfl
  | succ k ih =>
    obtain ⟨io, hio, hx⟩ := ih (by omega)
    rw [List.replicate_succ', execAll_append _ _ hx, execAll]
    obtain ⟨t, ht⟩ : ∃ t : State, t = { s with
      brBuf := s.mem.rest.getD (k / 8) 0
      brN := Fin.ofNat 9 (7 - k % 8)
      brOk := true
      mem := { s.mem with srcPos := s.mem.srcPos + (k + 8) / 8, io := io } } := ⟨_, rfl⟩
    rw [← ht]
    have hn : t.brN.val = 7 - k % 8 := by
      rw [ht]
      show (7 - k % 8) % 9 = _
      omega
    by_cases hz : k % 8 = 7
    · have hr : t.mem.rest = s.mem.rest.drop ((k + 8) / 8) := by rw [ht]; exact hrest _ _
      have hlt : (k + 8) / 8 < s.mem.rest.length := by omega
      rw [List.drop_eq_getElem_cons hlt] at hr
      have hft : t.mem.NoFailure := by rw [ht]; exact hio
      refine ⟨io.tail, fun a ha => hio a (List.mem_of_mem_tail ha), ?_⟩
      rw [exec, execBrbit, brbit_pulls (by omega) (Memory.answer_of_noFailure hft) hr]
      have e1 : (k + 1) / 8 = (k + 8) / 8 := by omega
      have e2 : (k + 1) % 8 = 0 := by omega
      have e3 : (k + 1 + 8) / 8 = (k + 8) / 8 + 1 := by omega
      rw [e1, e2, e3, List.getD_eq_getElem _ _ hlt, ht]
      rfl
    · refine ⟨io, hio, ?_⟩
      rw [exec, execBrbit, brbit_buffered (by omega)]
      have e1 : (k + 1) / 8 = k / 8 := by omega
      have e3 : (k + 1 + 8) / 8 = (k + 8) / 8 := by omega
      have e4 : t.brN - 1 = Fin.ofNat 9 (7 - (k + 1) % 8) := by
        apply Fin.ext
        rw [brN_pred (by omega), hn]
        show _ = (7 - (k + 1) % 8) % 9
        omega
      rw [e1, e3, e4, ht]
      rfl

/-- Behind the end every call fails (R182). -/
theorem brbit_beyond {s : State} (hf : s.mem.NoFailure) (h0 : s.brN = 0) (hr : s.mem.rest = []) (k : Nat) :
    ∃ t, execAll (List.replicate (k + 1) Instr.brbit) s = .next t ∧ t.deliveredBit = none := by
  induction k generalizing s with
  | zero =>
    refine ⟨_, by rw [List.replicate_one, execAll, exec, execBrbit, brbit_end hf h0 hr]; rfl, rfl⟩
  | succ k ih =>
    obtain ⟨t, h1, h2⟩ := ih (s := { s with brOk := false, mem := s.mem.answered }) (Memory.noFailure_tail hf rfl) h0 hr
    refine ⟨t, ?_, h2⟩
    rw [List.replicate_succ, execAll, exec, execBrbit, brbit_end hf h0 hr]
    exact h1

end Sys2Proof.Machine
end

