-- ==== Sys2Proof/Laws/CommandFrames.lean ====
section
/-! SUPPORT. What a command leaves as it is, at every end (`70_reset_and_hazards.md` rule R281, `20_memory.md` rule R71). -/

namespace Sys2Proof.Machine

/-- What every end of `ENCODE` has kept or set. -/
structure EncodeFrame (s t : State) : Prop where
  src : s.mem.Stable → t.mem.src = s.mem.src ∧ t.mem.rewound = none
  host : t.host = s.host
  brBuf : t.brBuf = s.brBuf
  brN : t.brN = 0
  brOk : t.brOk = true
  cur : t.cur = s.cur
  emitted : t.emitted = 0
  snk : t.mem.snkPos = t.mem.snk.length

theorem runEncode_frame (o : HdrOrder) (s : State) : (runEncode o s).Sat (fun _ t => EncodeFrame s t) (EncodeFrame s) := by
  rw [runEncode]
  refine Res.Sat.bind (P := fun _ t => EncodeFrame s t) ?_ fun _ t h => ?_
  · rw [startCommand]
    split
    · trivial
    · exact ⟨fun h => ⟨rfl, h⟩, rfl, rfl, rfl, rfl, rfl, rfl, rfl⟩
  refine Res.Sat.bind (P := fun _ t => EncodeFrame s t) ?_ fun _ u h => ?_
  · by_cases hl : InLimits t.mem.rest
    · refine (fcount_does hl).sat ?_ ?_
      · rintro _ u ⟨⟨⟨_, _, _, _, rfl⟩, _⟩, _⟩
        exact ⟨h.src, h.host, h.brBuf, h.brN, h.brOk, h.cur, h.emitted, h.snk⟩
      · rintro e u ⟨_, ⟨_, _, _, _, rfl⟩, _⟩
        exact ⟨h.src, h.host, h.brBuf, h.brN, h.brOk, h.cur, h.emitted, h.snk⟩
    · rcases fcount_refuses hl with h | h <;> rw [h] <;> trivial
  rw [tbuild, Res.bind_ok]
  refine Res.Sat.bind (P := fun _ t => EncodeFrame s t) ?_ fun _ v h => ?_
  · rcases cderive_cases (goPhase .eDerive { goPhase .eBuild u with tree := buildTree (goPhase .eBuild u).freq (goPhase .eBuild u).tree }) with ⟨c, h'⟩ | h' <;> rw [h']
    · exact ⟨h.src, h.host, h.brBuf, h.brN, h.brOk, h.cur, h.emitted, h.snk⟩
    · trivial
  refine Res.Sat.bind (P := fun _ t => EncodeFrame s t) ?_ fun _ w h => ?_
  · refine (hwrite_does o _).sat ?_ ?_
    · rintro _ w ⟨io, rfl⟩
      exact ⟨h.src, h.host, h.brBuf, h.brN, h.brOk, h.cur, h.emitted, by simp [Memory.append, h.snk]⟩
    · rintro e w ⟨_, x, _, io, rfl⟩
      exact ⟨h.src, h.host, h.brBuf, h.brN, h.brOk, h.cur, h.emitted, by simp [Memory.append, h.snk]⟩
  refine Res.Sat.bind (P := fun _ t => EncodeFrame s t) ?_ fun _ x h => ?_
  · have key : ∀ y, Emitted (goPhase .eEmit w) y → EncodeFrame s y := by
      rintro y ⟨⟨acc, n, d, v, src, pos, rw', io, rfl, hsrc, _⟩, _⟩
      refine ⟨fun hst => ?_, h.host, h.brBuf, h.brN, h.brOk, h.cur, h.emitted, by simp [Memory.append, h.snk]⟩
      obtain ⟨h1, h2⟩ := h.src hst
      rcases hsrc with ⟨k1, k2⟩ | ⟨k1, k2⟩
      · exact ⟨k1.trans h1, k2.trans h2⟩
      · refine ⟨?_, k2⟩
        show src = _
        rw [k1]
        show w.mem.rewound.getD w.mem.src = _
        rw [h2]; exact h1
    refine (eemit_does _).sat ?_ ?_
    · rintro _ y ⟨hy, _⟩; exact key y hy
    · rintro e y ⟨_, hy⟩
      have := key y hy
      exact ⟨this.src, this.host, this.brBuf, this.brN, this.brOk, this.cur, this.emitted, this.snk⟩
  refine Res.Sat.bind (P := fun _ t => EncodeFrame s t) ?_ fun _ y h => ?_
  · refine (bwflush_does _).sat ?_ ?_
    · rintro _ y ⟨⟨acc, n, v, io, rfl, _⟩, _⟩
      exact ⟨h.src, h.host, h.brBuf, h.brN, h.brOk, h.cur, h.emitted, by simp [Memory.append, h.snk]⟩
    · rintro e y ⟨_, acc, n, v, io, rfl, _⟩
      exact ⟨h.src, h.host, h.brBuf, h.brN, h.brOk, h.cur, h.emitted, by simp [Memory.append, h.snk]⟩
  exact ⟨h.src, h.host, h.brBuf, h.brN, h.brOk, h.cur, h.emitted, h.snk⟩

/-- What every end of `DECODE` has kept or set. -/
structure DecodeFrame (s t : State) : Prop where
  src : t.mem.src = s.mem.src
  rewound : t.mem.rewound = s.mem.rewound
  host : t.host = s.host
  draws : t.draws = s.draws
  bwAcc : t.bwAcc = 0
  bwN : t.bwN = 0
  pat : t.code.pat = s.code.pat
  len : ∀ b, Table.entry t.code.len b = 0
  snk : t.mem.snkPos = t.mem.snk.length

theorem runDecode_frame (o : HdrOrder) (s : State) : (runDecode o s).Sat (fun _ t => DecodeFrame s t) (DecodeFrame s) := by
  rw [runDecode]
  refine Res.Sat.bind (P := fun _ t => DecodeFrame s t) ?_ fun _ t h => ?_
  · rw [startCommand]
    split
    · trivial
    · exact ⟨rfl, rfl, rfl, rfl, rfl, rfl, rfl, fun b => Table.entry_all _ _, rfl⟩
  refine Res.Sat.bind (P := fun _ t => DecodeFrame s t) ?_ fun _ u h => ?_
  · refine (hread_does o _).sat ?_ ?_
    · rintro _ u ⟨⟨_, _, _, _, rfl⟩, _⟩
      exact ⟨h.src, h.rewound, h.host, h.draws, h.bwAcc, h.bwN, h.pat, h.len, h.snk⟩
    · rintro e u ⟨_, ⟨_, _, _, _, rfl⟩, _⟩
      exact ⟨h.src, h.rewound, h.host, h.draws, h.bwAcc, h.bwN, h.pat, h.len, h.snk⟩
  rw [tbuild, Res.bind_ok]
  split
  · exact ⟨h.src, h.rewound, h.host, h.draws, h.bwAcc, h.bwN, h.pat, h.len, h.snk⟩
  refine Res.Sat.bind (P := fun _ t => DecodeFrame s t) ?_ fun _ y h => ?_
  · refine (dwalk_does _).sat ?_ ?_
    · rintro _ y ⟨v, ⟨⟨_, _, _, _, _, _, _, rfl⟩, _⟩, _⟩
      exact ⟨h.src, h.rewound, h.host, h.draws, h.bwAcc, h.bwN, h.pat, h.len, by simp [Memory.append, h.snk]⟩
    · rintro e y (⟨_, rfl⟩ | ⟨_, v, ⟨⟨_, _, _, _, _, _, _, rfl⟩, _⟩, _⟩)
      · exact ⟨h.src, h.rewound, h.host, h.draws, h.bwAcc, h.bwN, h.pat, h.len, h.snk⟩
      · exact ⟨h.src, h.rewound, h.host, h.draws, h.bwAcc, h.bwN, h.pat, h.len, by simp [Memory.append, h.snk]⟩
  exact ⟨h.src, h.rewound, h.host, h.draws, h.bwAcc, h.bwN, h.pat, h.len, h.snk⟩

end Sys2Proof.Machine
end

