-- ==== Sys2Proof/Laws/Containers.lean ====
section
/-! SUPPORT. Containers: they are a function of the input (`48_properties.md` rule R236), and a decoder's tree is the
encoder's (R242). -/

namespace Sys2Proof.Machine

/-- Codes derived from the same table are the same, whatever the states. -/
theorem Derived.bits_eq {freq : Table Count} {t t' : TreeRegs} {s s' : State} {c c' : CodeTable} (hs : s.tree = buildTree freq t)
    (hs' : s'.tree = buildTree freq t') (h : Derived freq s c) (h' : Derived freq s' c') (b : Byte) : c.bits b = c'.bits b := by
  have hsame : s.tree.Same s'.tree := by rw [hs, hs']; exact buildTree_same freq t t'
  have hzero : ∀ {x : CodeTable}, Table.entry x.len b = 0 → x.bits b = [] := by
    intro x hx
    rw [CodeTable.bits, hx]
    rfl
  by_cases hb : Table.entry freq b = 0
  · have h1 : Table.entry c.len b = 0 := by
      by_contra hn
      exact (cderive_len_ne hs h b).1 hn hb
    have h2 : Table.entry c'.len b = 0 := by
      by_contra hn
      exact (cderive_len_ne hs' h' b).1 hn hb
    rw [hzero h1, hzero h2]
  · rcases h with ⟨h1, h2⟩ | ⟨r, sh, h1, h2, _, _, h5, h6⟩
    · rw [hs] at h1
      exact absurd ((buildTree_root_none freq t).1 h1 b) hb
    · rcases h' with ⟨k1, k2⟩ | ⟨r', sh', k1, k2, _, _, k5, k6⟩
      · rw [hs'] at k1
        exact absurd ((buildTree_root_none freq t').1 k1 b) hb
      · have hr : r = r' := by
          have := hsame.2.1
          rw [h1, k1] at this
          exact Option.some.inj this
        subst hr
        have hsh : sh = sh' := (h2.extends hsame.extends).unique k2
        subst hsh
        obtain ⟨p, hp⟩ := Shape.exists_path (h5.mem_iff.2 (mem_usedSymbols.2 hb))
        rw [(h6.path b p hp).1, (k6.path b p hp).1]

theorem Derived.encodeAll_eq {freq : Table Count} {t t' : TreeRegs} {s s' : State} {c c' : CodeTable}
    (hs : s.tree = buildTree freq t) (hs' : s'.tree = buildTree freq t') (h : Derived freq s c) (h' : Derived freq s' c')
    (l : List Byte) : c.encodeAll l = c'.encodeAll l := by
  rw [CodeTable.encodeAll, CodeTable.encodeAll]
  exact List.flatMap_congr fun b _ => Derived.bits_eq hs hs' h h' b

/-- In the tree rebuilt from the same table each code leads to its symbol (R97, R242). -/
theorem Derived.follow {freq : Table Count} {t t' : TreeRegs} {s : State} {c : CodeTable} (hs : s.tree = buildTree freq t)
    (h : Derived freq s c) {b : Byte} (hb : Table.entry freq b ≠ 0) :
    ∃ r sh, (buildTree freq t').root = some r ∧ Rep (buildTree freq t') r sh ∧ CodesOf sh c ∧ b ∈ sh.symbols ∧
      sh.isInternal = true := by
  rcases h with ⟨h1, h2⟩ | ⟨r, sh, h1, h2, h3, _, h5, h6⟩
  · rw [hs] at h1
    exact absurd ((buildTree_root_none freq t).1 h1 b) hb
  · have hsame : s.tree.Same (buildTree freq t') := by rw [hs]; exact buildTree_same freq t t'
    exact ⟨r, sh, by rw [← hsame.2.1]; exact h1, h2.extends hsame.extends, h6, h5.mem_iff.2 (mem_usedSymbols.2 hb), h3⟩

/-- `TBUILD` and then `CDERIVE`. -/
theorem codes_after (s : State) : ∃ u t, exec .tbuild s = .next u ∧ exec .cderive u = .next t ∧ u = { s with tree := buildTree s.freq s.tree } ∧ Derived s.freq u t.code := by
  obtain ⟨c, h1, h2⟩ := cderive_codes s.freq s.tree (s := { s with tree := buildTree s.freq s.tree }) rfl
  exact ⟨_, { s with tree := buildTree s.freq s.tree, code := c }, rfl, by rw [exec, execCderive, h1]; rfl, rfl, h2⟩

/-- `DECODE` of a container whose payload begins with the paths of `SIZE` symbols (R218, R235). -/
theorem runDecode_works (o : HdrOrder) {s : State} (hb : s.status ≠ .busy) (hf : s.mem.NoFailure) {size : Size} {freq : Table Count}
    {payload : List Byte} (hr : s.mem.src = headerBytes o size freq ++ payload) (hz : size ≠ 0) {root : Handle} (hroot : (buildTree freq (commandStart .dHeader s).tree).root = some root)
    (ps : List (Byte × List Bool)) {rest : List Bool} (hbits : payload.flatMap byteBits = ps.flatMap Prod.snd ++ rest)
    (hp : ∀ x ∈ ps, ∃ g f, (buildTree freq (commandStart .dHeader s).tree).follow root x.2 = some g ∧ (buildTree freq (commandStart .dHeader s).tree).nodeAt g = .leaf x.1 f)
    (hs : ps.length = size.toNat) :
    ∃ t, runDecode o s = .ok () t ∧ t.status = .done ∧ t.phase = .done ∧ t.err = .none ∧ t.mem.snk = ps.map Prod.fst ∧ t.size = size ∧ t.emitted = size ∧ t.freq = freq ∧
      t.tree = buildTree freq (commandStart .dHeader s).tree := by
  obtain ⟨t, _, h, hw, h1, h2, h3⟩ := dwalk_decodes (s := goPhase .dWalk (decodeBuilt s size freq)) hroot (decodeBuilt_noFailure hf size freq .dWalk) ps
    (by rw [decodeBuilt_bits o hr]; exact hbits) hp hs
  obtain ⟨buf, n, ok, cur, pos, io, ht⟩ := hw.walked
  refine ⟨finishCommand t, by rw [runDecode_header o hb hf hr, if_neg hz, h]; rfl, rfl, rfl, ?_, ?_, ?_, h3, ?_, ?_⟩
  · rw [ht]; rfl
  · rw [ht]; rfl
  · rw [ht]; rfl
  · rw [ht]; rfl
  · rw [ht]; rfl

/-- `DECODE` of what `ENCODE` writes (R235). -/
theorem runDecode_container (o : HdrOrder) {s : State} {input : List Byte} {extra : List Byte} {t0 : TreeRegs} {u : State} {c : CodeTable} (hb : s.status ≠ .busy) (hf : s.mem.NoFailure)
    (hl : InLimits input) (ht : u.tree = buildTree (countsOf input) t0) (d : Derived (countsOf input) u c)
    (hr : s.mem.src = (headerBytes o (BitVec.ofNat 64 input.length) (countsOf input) ++ pack (c.encodeAll input)) ++ extra) :
    ∃ t, runDecode o s = .ok () t ∧ t.status = .done ∧ t.phase = .done ∧ t.err = .none ∧ t.mem.snk = input ∧ t.size = BitVec.ofNat 64 input.length ∧ t.emitted = BitVec.ofNat 64 input.length ∧
      t.tree = buildTree (countsOf input) (commandStart .dHeader s).tree := by
  rw [List.append_assoc] at hr
  have hlen := length_toNat hl
  by_cases hz : BitVec.ofNat 64 input.length = 0
  · have h := runDecode_header o hb hf hr
    rw [if_pos hz] at h
    have hnil : input = [] := List.eq_nil_of_length_eq_zero (by rw [← hlen, hz]; rfl)
    refine ⟨_, h, rfl, rfl, rfl, hnil.symm, rfl, hz.symm, ?_⟩
    simp only [finishCommand, decodeBuilt]
  · obtain ⟨b, hbm⟩ : ∃ b, b ∈ input := List.exists_mem_of_ne_nil _ (fun e => hz (by rw [e]; rfl))
    obtain ⟨r, sh, h1, h2, h3, h4, h5⟩ := Derived.follow (t' := (commandStart .dHeader s).tree) ht d ((countsOf_ne_zero hl).2 hbm)
    obtain ⟨pad, hpad, _⟩ := pack_bits (c.encodeAll input)
    obtain ⟨t, k1, k2, k3, k4, k5, k6, k7, k8, k9⟩ := runDecode_works o hb hf hr hz h1 (input.map fun x => (x, c.bits x))
      (rest := List.replicate pad false ++ extra.flatMap byteBits)
      (by rw [List.flatMap_append, hpad, List.append_assoc, List.flatMap_map]; rfl)
      (by
        intro x hx
        obtain ⟨y, hy, rfl⟩ := List.mem_map.1 hx
        obtain ⟨r', sh', m1, m2, m3, m4, m5⟩ := Derived.follow (t' := (commandStart .dHeader s).tree) ht d ((countsOf_ne_zero hl).2 hy)
        have : r' = r := by rw [h1] at m1; exact (Option.some.inj m1).symm
        subst this
        exact codes_follow m2 m3 m4)
      (by rw [List.length_map, hlen])
    refine ⟨t, k1, k2, k3, k4, ?_, k6, k7, k9⟩
    rw [k5, List.map_map]
    exact List.map_id _

/-- `DECODE` of a payload that ends inside a code (R223, R240). -/
theorem runDecode_short (o : HdrOrder) {s : State} (hb : s.status ≠ .busy) (hf : s.mem.NoFailure) {size : Size} {freq : Table Count}
    {payload : List Byte} (hr : s.mem.src = headerBytes o size freq ++ payload) (hz : size ≠ 0) {root g : Handle} (hroot : (buildTree freq (commandStart .dHeader s).tree).root = some root)
    (ps : List (Byte × List Bool)) {q : List Bool} (hbits : payload.flatMap byteBits = ps.flatMap Prod.snd ++ q)
    (hp : ∀ x ∈ ps, ∃ g f, (buildTree freq (commandStart .dHeader s).tree).follow root x.2 = some g ∧ (buildTree freq (commandStart .dHeader s).tree).nodeAt g = .leaf x.1 f)
    {f : Weight} {l r : Option Handle} (hq : (buildTree freq (commandStart .dHeader s).tree).follow root q = some g)
    (hg : (buildTree freq (commandStart .dHeader s).tree).nodeAt g = .internal f l r) (hs : ps.length < size.toNat) :
    ∃ t, runDecode o s = .raised (takeError .unexpectedEnd t) ∧ t.mem.snk = ps.map Prod.fst := by
  obtain ⟨t, h, hw, h1, h2, _⟩ := dwalk_unexpectedEnd (s := goPhase .dWalk (decodeBuilt s size freq)) hroot (decodeBuilt_noFailure hf size freq .dWalk) ps
    (by rw [decodeBuilt_bits o hr]; exact hbits) hp hq hg hs
  obtain ⟨buf, n, ok, cur, pos, io, ht⟩ := hw
  refine ⟨t, by rw [runDecode_header o hb hf hr, if_neg hz, h]; rfl, ?_⟩
  rw [ht]; rfl

end Sys2Proof.Machine
end

