-- ==== Sys2Proof/Laws/Lockstep.lean ====
section
/-! SUPPORT. Two runs of a command from states with the same source, parameters and answers stay in step, whatever stands in
the registers that hold no value at command start (`70_reset_and_hazards.md` rule R281). -/

namespace Sys2Proof.Machine

/-- Two results in step. -/
def Res.InStep {α : Type} (r q : Res α) (R : State → State → Prop) : Prop :=
  match r, q with
  | .ok a s, .ok b t => a = b ∧ R s t
  | .raised s, .raised t => SameResult s t
  | .fault f, .fault g => f = g
  | .refused f, .refused g => f = g
  | _, _ => False

theorem Res.InStep.bind {α β : Type} {r q : Res α} {R S : State → State → Prop} {k l : α → State → Res β} (h : r.InStep q R)
    (hk : ∀ a s t, R s t → (k a s).InStep (l a t) S) : (r.bind k).InStep (q.bind l) S := by
  cases r with
  | ok a s =>
    cases q with
    | ok b t =>
      obtain ⟨rfl, h⟩ := h
      exact hk _ s t h
    | _ => exact h.elim
  | raised s => cases q with
    | raised t => exact h
    | _ => exact h.elim
  | fault f => cases q with
    | fault g => exact h
    | _ => exact h.elim
  | refused f => cases q with
    | refused g => exact h
    | _ => exact h.elim

theorem Res.InStep.outcome {α : Type} {r q : Res α} {R : State → State → Prop} (h : r.InStep q R)
    (hR : ∀ s t, R s t → SameResult s t) : SameOutcome r.outcome q.outcome := by
  cases r with
  | ok a s => cases q with
    | ok b t => exact hR s t h.2
    | _ => exact h.elim
  | raised s => cases q with
    | raised t => exact h
    | _ => exact h.elim
  | fault f => cases q with
    | fault g => exact h
    | _ => exact h.elim
  | refused f => cases q with
    | refused g => exact h
    | _ => exact h.elim

/-- Two states that agree wherever a register holds a value: the others are `BR_BUF` with `BR_N = 0`, patterns of symbols
without a code, nodes at or above `NODE_CNT`, `CUR`, and the model's own fields. -/
def Twin (s t : State) : Prop :=
  ∃ buf pat tree cur host draws,
    t = { s with brBuf := buf, code := { s.code with pat := pat }, tree := tree, cur := cur, host := host, draws := draws } ∧
      (s.brN.val ≠ 0 → buf = s.brBuf) ∧ (∀ b, Table.entry s.code.len b ≠ 0 → Table.entry pat b = Table.entry s.code.pat b) ∧
      s.tree.Same tree

theorem Twin.same {s t : State} (h : Twin s t) : SameResult s t := by
  obtain ⟨_, _, _, _, _, _, rfl, _⟩ := h
  exact ⟨rfl, rfl, rfl, rfl, rfl, rfl⟩

theorem SameResult.raise {s t : State} (h : SameResult s t) (e : Err) : SameResult (takeError e s) (takeError e t) :=
  ⟨rfl, rfl, rfl, h.size, h.emitted, h.mem⟩

theorem Twin.goPhase {s t : State} (h : Twin s t) (p : Phase) : Twin (goPhase p s) (goPhase p t) := by
  obtain ⟨a, b, c, d, e, f, rfl, h⟩ := h
  exact ⟨a, b, c, d, e, f, rfl, h⟩

theorem Twin.finish {s t : State} (h : Twin s t) : Twin (finishCommand s) (finishCommand t) := by
  obtain ⟨a, b, c, d, e, f, rfl, h⟩ := h
  exact ⟨a, b, c, d, e, f, rfl, h⟩

theorem commandStart_twin {s t : State} (p : Phase) (hs : s.mem.src = t.mem.src) (hr : s.mem.rewound = t.mem.rewound)
    (hi : s.mem.io = t.mem.io) : Twin (commandStart p s) (commandStart p t) := by
  refine ⟨t.brBuf, t.code.pat, { t.tree with cnt := 0, root := none, pq := [] }, t.cur, t.host, t.draws, ?_, fun h => absurd rfl h, fun b h => absurd (Table.entry_all _ _) h,
    ⟨rfl, rfl, rfl, fun h hh => absurd hh (Nat.not_lt_zero _)⟩⟩
  simp only [commandStart, hs, hr, hi]

/-! ### Stream accesses -/

theorem memRead_inStep (n : Nat) {s t : State} (h : Twin s t) : (memRead n s).InStep (memRead n t) Twin := by
  obtain ⟨a, b, c, d, e, f, rfl, h⟩ := h
  cases ha : s.mem.answer with
  | works =>
    rw [memRead_works ha, memRead_works (s := { s with brBuf := a, code := { s.code with pat := b }, tree := c, cur := d, host := e, draws := f }) ha]
    exact ⟨rfl, a, b, c, d, e, f, rfl, h⟩
  | fails k =>
    rw [memRead_fails ha, memRead_fails (s := { s with brBuf := a, code := { s.code with pat := b }, tree := c, cur := d, host := e, draws := f }) ha]
    exact ⟨rfl, rfl, rfl, rfl, rfl, rfl⟩

theorem memWrite_inStep (v : List Byte) {s t : State} (h : Twin s t) : (memWrite v s).InStep (memWrite v t) Twin := by
  obtain ⟨a, b, c, d, e, f, rfl, h⟩ := h
  cases ha : s.mem.answer with
  | works =>
    rw [memWrite_works ha, memWrite_works (s := { s with brBuf := a, code := { s.code with pat := b }, tree := c, cur := d, host := e, draws := f }) ha]
    exact ⟨rfl, a, b, c, d, e, f, rfl, h⟩
  | fails k =>
    rw [memWrite_fails ha, memWrite_fails (s := { s with brBuf := a, code := { s.code with pat := b }, tree := c, cur := d, host := e, draws := f }) ha]
    exact ⟨rfl, rfl, rfl, rfl, rfl, rfl⟩

theorem srcRewind_inStep {s t : State} (h : Twin s t) : (srcRewind s).InStep (srcRewind t) Twin := by
  obtain ⟨a, b, c, d, e, f, rfl, h⟩ := h
  cases ha : s.mem.answer with
  | works =>
    rw [srcRewind_works ha, srcRewind_works (s := { s with brBuf := a, code := { s.code with pat := b }, tree := c, cur := d, host := e, draws := f }) ha]
    exact ⟨rfl, a, b, c, d, e, f, rfl, h⟩
  | fails k =>
    rw [srcRewind_fails ha, srcRewind_fails (s := { s with brBuf := a, code := { s.code with pat := b }, tree := c, cur := d, host := e, draws := f }) ha]
    exact ⟨rfl, rfl, rfl, rfl, rfl, rfl⟩

theorem forEachByte_inStep {body : Byte → State → Res Unit}
    (hb : ∀ b s t, Twin s t → (body b s).InStep (body b t) Twin) (fuel : Nat) {s t : State} (h : Twin s t) :
    (forEachByte body fuel s).InStep (forEachByte body fuel t) Twin := by
  induction fuel generalizing s t with
  | zero => rfl
  | succ fuel ih =>
    rw [forEachByte, forEachByte]
    refine (memRead_inStep 1 h).bind fun r s t h => ?_
    match r with
    | [] => exact ⟨rfl, h⟩
    | b :: _ => exact (hb b s t h).bind fun _ s t h => ih h

/-! ### The operations of `ENCODE` -/

theorem countByte_inStep (b : Byte) (s t : State) (h : Twin s t) : (countByte b s).InStep (countByte b t) Twin := by
  obtain ⟨a, b, c, d, e, f, rfl, h⟩ := h
  exact ⟨rfl, a, b, c, d, e, f, rfl, h⟩

theorem fcount_inStep {s t : State} (h : Twin s t) : (fcount s).InStep (fcount t) Twin := by
  have hm : t.mem = s.mem := h.same.mem.symm
  rw [fcount, fcount, hm]
  split
  · rfl
  · split
    · rfl
    · refine forEachByte_inStep countByte_inStep _ ?_
      obtain ⟨a, b, c, d, e, f, rfl, h⟩ := h
      exact ⟨a, b, c, d, e, f, rfl, h⟩

/-- A tree builder in step: the trees are the same, and in order. -/
theorem tbuild_inStep {s t : State} (h : Twin s t) : (tbuild s).InStep (tbuild t) fun u v => Twin u v ∧ u.tree.Ok := by
  obtain ⟨a, b, c, d, e, f, rfl, h1, h2, h3⟩ := h
  exact ⟨rfl, ⟨a, b, buildTree s.freq c, d, e, f, rfl, h1, h2, buildTree_same _ _ _⟩, (buildTree_ok _ _).1⟩

theorem recordAll_twin (ps : List (Byte × List Bool)) (path : Pattern) (len : CodeLen) {c d : CodeTable} (hl : c.len = d.len)
    (hp : ∀ b, Table.entry c.len b ≠ 0 → Table.entry d.pat b = Table.entry c.pat b) :
    (recordAll ps path len c).len = (recordAll ps path len d).len ∧
      ∀ b, Table.entry (recordAll ps path len c).len b ≠ 0 →
        Table.entry (recordAll ps path len d).pat b = Table.entry (recordAll ps path len c).pat b := by
  induction ps generalizing c d with
  | nil => exact ⟨hl, hp⟩
  | cons x ps ih =>
    refine ih (c := c.record x.1 (x.2.foldl growPath path) (len + BitVec.ofNat 8 x.2.length)) ?_ ?_
    · simp only [CodeTable.record, hl]
    · intro b hb
      simp only [CodeTable.record, Table.entry_put] at hb ⊢
      split
      · rfl
      next hne =>
        rw [if_neg hne] at hb
        exact hp b hb

theorem codeTable_pat {x y : CodeTable} (h : x.len = y.len) : y = { x with pat := y.pat } := by
  cases y
  cases h
  rfl

theorem cderive_inStep {s t : State} (h : Twin s t) (hok : s.tree.Ok) : (cderive s).InStep (cderive t) Twin := by
  obtain ⟨a, b, c, d, e, f, rfl, h1, h2, h3⟩ := h
  cases hr : s.tree.root with
  | none =>
    have hr' : c.root = none := by rw [← h3.2.1, hr]
    rw [cderive_none hr, cderive_none (s := { s with brBuf := a, code := { s.code with pat := b }, tree := c, cur := d, host := e, draws := f }) hr']
    exact ⟨rfl, a, b, c, d, e, f, rfl, h1, fun x hx => absurd (Table.entry_all _ _) hx, h3⟩
  | some r =>
    obtain ⟨sh, hrep, _, hd, _⟩ := hok.2.2 r hr
    have hr' : c.root = some r := by rw [← h3.2.1, hr]
    have hrep' : Rep c r sh := hrep.extends h3.extends
    rw [cderive_rep hr hrep hd, cderive_rep (s := { s with brBuf := a, code := { s.code with pat := b }, tree := c, cur := d, host := e, draws := f }) hr' hrep' hd]
    obtain ⟨k1, k2⟩ := recordAll_twin sh.paths 0 0 (c := { s.code with len := Table.all 0 })
      (d := { s.code with pat := b, len := Table.all 0 }) rfl (fun x hx => absurd (Table.entry_all _ _) hx)
    refine ⟨rfl, a, _, c, d, e, f, ?_, h1, k2, h3⟩
    exact congrArg (fun x : CodeTable => ({ s with brBuf := a, code := x, tree := c, cur := d, host := e, draws := f } : State))
      (codeTable_pat k1)

theorem writeCounts_inStep (o : HdrOrder) (bs : List Byte) {s t : State} (h : Twin s t) :
    (writeCounts o bs s).InStep (writeCounts o bs t) Twin := by
  induction bs generalizing s t with
  | nil => exact ⟨rfl, h⟩
  | cons b bs ih =>
    have hf : t.freq = s.freq := by obtain ⟨_, _, _, _, _, _, rfl, _⟩ := h; rfl
    rw [writeCounts, writeCounts, hf]
    exact (memWrite_inStep _ h).bind fun _ s t h => ih h

theorem hwrite_inStep (o : HdrOrder) {s t : State} (h : Twin s t) : (hwrite o s).InStep (hwrite o t) Twin := by
  rw [hwrite, hwrite]
  refine (memWrite_inStep _ h).bind fun _ s t h => ?_
  rw [← h.same.size]
  exact (memWrite_inStep _ h).bind fun _ s t h => writeCounts_inStep o symbols h

theorem bwbit_inStep (b : Bool) {s t : State} (h : Twin s t) : (bwbit b s).InStep (bwbit b t) Twin := by
  obtain ⟨a, p, c, d, e, f, rfl, h⟩ := h
  rw [bwbit, bwbit]
  simp only
  split
  · exact ⟨rfl, a, p, c, d, e, f, rfl, h⟩
  · cases ha : s.mem.answer with
    | works =>
      rw [memWrite_works (s := { s with bwAcc := accWith s.bwAcc s.bwN.val b }) ha,
        memWrite_works (s := { s with bwAcc := accWith s.bwAcc s.bwN.val b, brBuf := a, code := { s.code with pat := p }, tree := c, cur := d, host := e, draws := f }) ha]
      exact ⟨rfl, a, p, c, d, e, f, rfl, h⟩
    | fails k =>
      rw [memWrite_fails (s := { s with bwAcc := accWith s.bwAcc s.bwN.val b }) ha,
        memWrite_fails (s := { s with bwAcc := accWith s.bwAcc s.bwN.val b, brBuf := a, code := { s.code with pat := p }, tree := c, cur := d, host := e, draws := f }) ha]
      exact ⟨rfl, rfl, rfl, rfl, rfl, rfl⟩

theorem bwbits_inStep (p : Pattern) (n : Nat) {s t : State} (h : Twin s t) : (bwbits p n s).InStep (bwbits p n t) Twin := by
  induction n generalizing s t with
  | zero => exact ⟨rfl, h⟩
  | succ n ih => exact (bwbit_inStep _ h).bind fun _ s t h => ih h

theorem emitByte_inStep (b : Byte) (s t : State) (h : Twin s t) : (emitByte b s).InStep (emitByte b t) Twin := by
  have hl : t.code.len = s.code.len := by obtain ⟨_, _, _, _, _, _, rfl, _⟩ := h; rfl
  have hp : Table.entry s.code.len b ≠ 0 → Table.entry t.code.pat b = Table.entry s.code.pat b := by
    obtain ⟨_, _, _, _, _, _, rfl, _, h2, _⟩ := h
    exact h2 b
  rw [emitByte, emitByte, hl]
  split
  · exact h.same.raise _
  next hne =>
    rw [hp hne]
    exact bwbits_inStep _ _ h

theorem eemit_inStep {s t : State} (h : Twin s t) : (eemit s).InStep (eemit t) Twin := by
  rw [eemit, eemit]
  refine (srcRewind_inStep h).bind fun _ s t h => ?_
  rw [← h.same.mem]
  exact forEachByte_inStep emitByte_inStep _ h

theorem bwflush_inStep {s t : State} (h : Twin s t) : (bwflush s).InStep (bwflush t) Twin := by
  have hn : t.bwN = s.bwN ∧ t.bwAcc = s.bwAcc := by obtain ⟨_, _, _, _, _, _, rfl, _⟩ := h; exact ⟨rfl, rfl⟩
  rw [bwflush, bwflush, hn.1, hn.2]
  split
  · exact ⟨rfl, h⟩
  · refine (memWrite_inStep _ h).bind fun _ s t h => ?_
    obtain ⟨a, b, c, d, e, f, rfl, h⟩ := h
    exact ⟨rfl, a, b, c, d, e, f, rfl, h⟩

theorem startCommand_inStep {s t : State} (p : Phase) (hb : s.status = .busy ↔ t.status = .busy) (hs : s.mem.src = t.mem.src)
    (hr : s.mem.rewound = t.mem.rewound) (hi : s.mem.io = t.mem.io) : (startCommand p s).InStep (startCommand p t) Twin := by
  rw [startCommand, startCommand]
  by_cases h : s.status = .busy
  · rw [if_pos h, if_pos (hb.1 h)]
    rfl
  · rw [if_neg h, if_neg fun h' => h (hb.2 h')]
    exact ⟨rfl, commandStart_twin p hs hr hi⟩

theorem runEncode_inStep (o : HdrOrder) {s t : State} (hb : s.status = .busy ↔ t.status = .busy) (hs : s.mem.src = t.mem.src)
    (hr : s.mem.rewound = t.mem.rewound) (hi : s.mem.io = t.mem.io) : (runEncode o s).InStep (runEncode o t) Twin := by
  rw [runEncode, runEncode]
  refine (startCommand_inStep _ hb hs hr hi).bind fun _ s t h => ?_
  refine (fcount_inStep h).bind fun _ s t h => ?_
  refine (tbuild_inStep (h.goPhase .eBuild)).bind fun _ s t h => ?_
  refine (cderive_inStep (h.1.goPhase .eDerive) h.2).bind fun _ s t h => ?_
  refine (hwrite_inStep o (h.goPhase .eHeader)).bind fun _ s t h => ?_
  refine (eemit_inStep (h.goPhase .eEmit)).bind fun _ s t h => ?_
  refine (bwflush_inStep (h.goPhase .eFlush)).bind fun _ s t h => ?_
  exact ⟨rfl, h.finish⟩

/-! ### The operations of `DECODE` -/

theorem readCounts_inStep (o : HdrOrder) (bs : List Byte) {s t : State} (h : Twin s t) :
    (readCounts o bs s).InStep (readCounts o bs t) Twin := by
  induction bs generalizing s t with
  | nil => exact ⟨rfl, h⟩
  | cons b bs ih =>
    rw [readCounts, readCounts]
    refine (memRead_inStep 4 h).bind fun r s t h => ?_
    split
    · exact h.same.raise _
    · apply ih
      obtain ⟨a, b, c, d, e, f, rfl, h⟩ := h
      exact ⟨a, b, c, d, e, f, rfl, h⟩

theorem hread_inStep (o : HdrOrder) {s t : State} (h : Twin s t) : (hread o s).InStep (hread o t) Twin := by
  rw [hread, hread]
  refine (memRead_inStep 4 h).bind fun r s t h => ?_
  split
  · refine (memRead_inStep 8 h).bind fun z s t h => ?_
    split
    · exact h.same.raise _
    · refine readCounts_inStep o symbols ?_
      obtain ⟨a, b, c, d, e, f, rfl, h⟩ := h
      exact ⟨a, b, c, d, e, f, rfl, h⟩
  · exact h.same.raise _

/-- Twins that also stand at the same node of the tree. -/
def WalkTwin (s t : State) : Prop := Twin s t ∧ s.cur = t.cur ∧ ∃ sh, Rep s.tree s.cur sh

theorem deliverBit_inStep {s t : State} (h : Twin s t) (hn : s.brN.val ≠ 0) (hc : s.cur = t.cur) :
    (deliverBit s).InStep (deliverBit t) fun u v => Twin u v ∧ u.tree = s.tree ∧ u.cur = s.cur ∧ v.cur = s.cur := by
  obtain ⟨a, b, c, d, e, f, rfl, h1, h2, h3⟩ := h
  have ha := h1 hn
  subst ha
  exact ⟨rfl, ⟨_, b, c, d, e, f, rfl, fun _ => rfl, h2, h3⟩, rfl, rfl, hc.symm⟩

theorem brbit_inStep {s t : State} (h : Twin s t) (hc : s.cur = t.cur) :
    (brbit s).InStep (brbit t) fun u v => Twin u v ∧ u.tree = s.tree ∧ u.cur = s.cur ∧ v.cur = s.cur := by
  have hn : t.brN = s.brN := by obtain ⟨_, _, _, _, _, _, rfl, _⟩ := h; rfl
  have hk := memRead_inStep 1 h
  rw [brbit, brbit, hn]
  by_cases h0 : s.brN.val = 0
  · rw [if_pos h0, if_pos h0]
    cases ha : s.mem.answer with
    | works =>
      have ha' : t.mem.answer = .works := by rw [← h.same.mem]; exact ha
      rw [memRead_works ha, memRead_works ha'] at hk ⊢
      rw [Res.bind_ok, Res.bind_ok]
      obtain ⟨hr, hk⟩ := hk
      rw [← hr]
      match s.mem.rest.take 1 with
      | [] =>
        refine ⟨rfl, ?_, rfl, rfl, hc.symm⟩
        obtain ⟨a, b, c, d, e, f, rfl, h⟩ := h
        exact ⟨a, b, c, d, e, f, rfl, fun hne => absurd h0 hne, h.2⟩
      | x :: _ =>
        refine deliverBit_inStep ?_ (show (8 : Fin 9).val ≠ 0 by decide) hc
        obtain ⟨a, b, c, d, e, f, rfl, h⟩ := h
        exact ⟨x, b, c, d, e, f, rfl, fun _ => rfl, h.2⟩
    | fails k =>
      have ha' : t.mem.answer = .fails k := by rw [← h.same.mem]; exact ha
      rw [memRead_fails ha, memRead_fails ha'] at hk ⊢
      exact hk
  · rw [if_neg h0, if_neg h0]
    exact deliverBit_inStep h h0 hc

theorem walkStep_inStep (root : Handle) {s t : State} (h : WalkTwin s t) (hroot : ∃ sh, Rep s.tree root sh) :
    (walkStep root s).InStep (walkStep root t) fun u v => WalkTwin u v ∧ u.tree = s.tree := by
  obtain ⟨h, hc, sh, hrep⟩ := h
  have hnode : t.tree.nodeAt t.cur = s.tree.nodeAt s.cur := by
    rw [← hc]
    obtain ⟨_, _, _, _, _, _, rfl, _, _, h3⟩ := h
    exact (h3.2.2.2 s.cur hrep.used).symm
  rw [walkStep, walkStep, hnode]
  match hn : s.tree.nodeAt s.cur with
  | .leaf b f =>
    have ht : ∀ {u v : State}, Twin u v → u.tree = s.tree → Twin { u with emitted := u.emitted + 1, cur := root } { v with emitted := v.emitted + 1, cur := root } := by
      rintro u v ⟨a, b, c, d, e, f, rfl, h⟩ _
      exact ⟨a, b, c, root, e, f, rfl, h⟩
    simp only [emitStep]
    cases ha : s.mem.answer with
    | works =>
      have ha' : t.mem.answer = .works := by rw [← h.same.mem]; exact ha
      have hk := memWrite_inStep [b] h
      rw [memWrite_works ha, memWrite_works ha'] at hk ⊢
      exact ⟨rfl, ⟨ht hk.2 rfl, rfl, hroot⟩, rfl⟩
    | fails k =>
      have ha' : t.mem.answer = .fails k := by rw [← h.same.mem]; exact ha
      have hk := memWrite_inStep [b] h
      rw [memWrite_fails ha, memWrite_fails ha'] at hk ⊢
      exact hk
  | .internal f l r =>
    refine (brbit_inStep h hc).bind ?_
    rintro bit u v ⟨huv, htr, hu, hv⟩
    match bit with
    | none => exact huv.same.raise _
    | some bit =>
      simp only
      match hch : (if bit then r else l) with
      | none => exact huv.same.raise _
      | some child =>
        refine ⟨rfl, ⟨?_, rfl, ?_⟩, htr⟩
        · obtain ⟨a, b, c, d, e, f, rfl, h⟩ := huv
          exact ⟨a, b, c, child, e, f, rfl, h⟩
        · show ∃ sh, Rep u.tree child sh
          rw [htr]
          cases hrep with
          | leaf used node => rw [hn] at node; cases node
          | one used node left =>
            rw [hn] at node
            cases node
            cases bit with
            | true => cases hch
            | false => cases hch; exact ⟨_, left⟩
          | two used node left right =>
            rw [hn] at node
            cases node
            cases bit with
            | true => cases hch; exact ⟨_, right⟩
            | false => cases hch; exact ⟨_, left⟩

theorem walkLoop_inStep (root : Handle) (fuel : Nat) {s t : State} (h : WalkTwin s t) (hroot : ∃ sh, Rep s.tree root sh) :
    (walkLoop root fuel s).InStep (walkLoop root fuel t) Twin := by
  induction fuel generalizing s t with
  | zero =>
    rw [walkLoop, walkLoop, ← h.1.same.size, ← h.1.same.emitted]
    split
    · exact ⟨rfl, h.1⟩
    · rfl
  | succ fuel ih =>
    rw [walkLoop, walkLoop, ← h.1.same.size, ← h.1.same.emitted]
    split
    · exact ⟨rfl, h.1⟩
    · exact (walkStep_inStep root h hroot).bind fun _ u v k => ih k.1 (by rw [k.2]; exact hroot)

theorem dwalk_inStep {s t : State} (h : Twin s t) (hok : s.tree.Ok) : (dwalk s).InStep (dwalk t) Twin := by
  have hroot : t.tree.root = s.tree.root := by obtain ⟨_, _, _, _, _, _, rfl, _, _, h3⟩ := h; exact h3.2.1.symm
  have hbound : walkBound t = walkBound s := by obtain ⟨_, _, _, _, _, _, rfl, _⟩ := h; rfl
  rw [dwalk, dwalk, hroot, hbound]
  cases hr : s.tree.root with
  | none => exact h.same.raise _
  | some r =>
    obtain ⟨sh, hrep, _⟩ := hok.2.2 r hr
    refine walkLoop_inStep r _ ⟨?_, rfl, sh, hrep⟩ ⟨sh, hrep⟩
    obtain ⟨a, b, c, d, e, f, rfl, h⟩ := h
    exact ⟨a, b, c, r, e, f, rfl, h⟩

theorem runDecode_inStep (o : HdrOrder) {s t : State} (hb : s.status = .busy ↔ t.status = .busy) (hs : s.mem.src = t.mem.src)
    (hr : s.mem.rewound = t.mem.rewound) (hi : s.mem.io = t.mem.io) : (runDecode o s).InStep (runDecode o t) Twin := by
  rw [runDecode, runDecode]
  refine (startCommand_inStep _ hb hs hr hi).bind fun _ s t h => ?_
  refine (hread_inStep o h).bind fun _ s t h => ?_
  refine (tbuild_inStep (h.goPhase .dBuild)).bind fun _ s t h => ?_
  rw [← h.1.same.size]
  split
  · exact ⟨rfl, h.1.finish⟩
  · refine (dwalk_inStep (h.1.goPhase .dWalk) h.2).bind fun _ s t h => ?_
    exact ⟨rfl, h.finish⟩

end Sys2Proof.Machine
end

