-- ==== Sys2Proof/Laws/Paths.lean ====
section
/-! SUPPORT. Paths in the arena: every node of a tree that `TBUILD` leaves is reached from the root along exactly one path
(`10_state.md` rule R27). -/

namespace Sys2Proof.Machine

/-- The child of a node on one side, left on 0 (R26). -/
def Node.child (n : Node) (b : Bool) : Option Handle :=
  match n with
  | .leaf _ _ => none
  | .internal _ l r => if b then r else l

theorem Node.mem_children {n : Node} {h : Handle} : h ∈ n.children ↔ ∃ b, n.child b = some h := by
  cases n with
  | leaf _ _ => simp [Node.children, Node.child]
  | internal f l r =>
    simp only [Node.children, Node.child, List.mem_append, Option.mem_toList]
    constructor
    · rintro (h | h)
      · exact ⟨false, h⟩
      · exact ⟨true, h⟩
    · rintro ⟨b, h⟩
      cases b
      · exact .inl h
      · exact .inr h

theorem follow_cons (t : TreeRegs) (h : Handle) (b : Bool) (bs : List Bool) :
    t.follow h (b :: bs) = ((t.nodeAt h).child b).bind fun c => t.follow c bs := by
  rw [TreeRegs.follow.eq_def]
  simp only
  cases t.nodeAt h <;> rfl

theorem follow_snoc (t : TreeRegs) (h : Handle) (p : List Bool) (b : Bool) :
    t.follow h (p ++ [b]) = (t.follow h p).bind fun g => (t.nodeAt g).child b := by
  induction p generalizing h with
  | nil =>
    rw [List.nil_append, follow_cons]
    show (Option.bind _ fun c => some c) = (some h).bind _
    simp
  | cons x p ih =>
    rw [List.cons_append, follow_cons, follow_cons, Option.bind_assoc]
    congr 1
    funext c
    exact ih c

/-- An arena whose nodes in use form one tree: each but the root is named as a child once, by a node above it. -/
structure OneTree (t : TreeRegs) (r : Handle) : Prop where
  refs : (t.childRefs ++ [r]).Perm (handlesBelow t.cnt)
  lower : ∀ g : Handle, g.val < t.cnt → ∀ c ∈ (t.nodeAt g).children, c.val < g.val

namespace OneTree

variable {t : TreeRegs} {r : Handle}

theorem nodup (O : OneTree t r) : t.childRefs.Nodup ∧ r ∉ t.childRefs := by
  have h : (t.childRefs ++ [r]).Nodup := O.refs.nodup_iff.2 (handlesBelow_nodup _)
  rw [List.nodup_append] at h
  exact ⟨h.1, fun hr => h.2.2 r hr r (by simp) rfl⟩

theorem mem (O : OneTree t r) {h : Handle} (hh : h.val < t.cnt) : h = r ∨ h ∈ t.childRefs := by
  have := O.refs.mem_iff.2 (mem_handlesBelow.2 hh)
  simp only [List.mem_append, List.mem_singleton] at this
  exact this.symm

theorem root_used (O : OneTree t r) : r.val < t.cnt := mem_handlesBelow.1 (O.refs.mem_iff.1 (by simp))

theorem count (O : OneTree t r) {h : Handle} (hh : h.val < t.cnt) :
    (h ≠ r → t.childRefs.count h = 1) ∧ (h = r → t.childRefs.count h = 0) := by
  refine ⟨fun hne => ?_, fun he => ?_⟩
  · exact List.count_eq_one_of_mem O.nodup.1 ((O.mem hh).resolve_left hne)
  · rw [he]
    exact List.count_eq_zero_of_not_mem O.nodup.2

/-- A node has one parent and stands on one side of it. -/
theorem parent_unique (O : OneTree t r) {g g' h : Handle} {b b' : Bool} (hg : g.val < t.cnt) (hg' : g'.val < t.cnt)
    (h1 : (t.nodeAt g).child b = some h) (h2 : (t.nodeAt g').child b' = some h) : g = g' ∧ b = b' := by
  have hn := O.nodup.1
  rw [childRefs_eq, List.nodup_flatMap] at hn
  have hgg : g = g' := by
    by_contra hne
    have key : ∀ l : List Handle, l.Pairwise (fun x y => List.Disjoint (t.nodeAt x).children (t.nodeAt y).children) →
        g ∈ l → g' ∈ l → False := by
      intro l hl h3 h4
      induction l with
      | nil => cases h3
      | cons x l ih =>
        rw [List.pairwise_cons] at hl
        have m1 := Node.mem_children.2 ⟨b, h1⟩
        have m2 := Node.mem_children.2 ⟨b', h2⟩
        rcases List.mem_cons.1 h3 with e3 | k3 <;> rcases List.mem_cons.1 h4 with e4 | k4
        · exact hne (e3.trans e4.symm)
        · exact hl.1 _ k4 (e3 ▸ m1) m2
        · exact hl.1 _ k3 (e4 ▸ m2) m1
        · exact ih hl.2 k3 k4
    exact key _ hn.2 (mem_handlesBelow.2 hg) (mem_handlesBelow.2 hg')
  subst hgg
  refine ⟨rfl, ?_⟩
  have hc := hn.1 g (mem_handlesBelow.2 hg)
  by_contra hb
  match hnode : t.nodeAt g with
  | .leaf _ _ => rw [hnode] at h1; cases h1
  | .internal f l r' =>
    rw [hnode] at h1 h2 hc
    have hlr : l = some h ∧ r' = some h := by
      cases b <;> cases b' <;> first | exact absurd rfl hb | exact ⟨h1, h2⟩ | exact ⟨h2, h1⟩
    rw [hlr.1, hlr.2] at hc
    simp [Node.children] at hc

theorem follow_used (O : OneTree t r) {h g : Handle} (hh : h.val < t.cnt) {p : List Bool} (hp : t.follow h p = some g) :
    g.val < t.cnt := by
  induction p generalizing h with
  | nil => cases hp; exact hh
  | cons b p ih =>
    rw [follow_cons] at hp
    match hc : (t.nodeAt h).child b with
    | none => rw [hc] at hp; cases hp
    | some c =>
      rw [hc] at hp
      exact ih (Nat.lt_trans (O.lower h hh c (Node.mem_children.2 ⟨b, hc⟩)) hh) hp

/-- Every node in use is reached (R27: no unreachable node). -/
theorem reached (O : OneTree t r) {h : Handle} (hh : h.val < t.cnt) : ∃ p, t.follow r p = some h := by
  have key : ∀ n : Nat, ∀ h : Handle, h.val < t.cnt → 511 - h.val ≤ n → ∃ p, t.follow r p = some h := by
    intro n
    induction n with
    | zero => intro h _ hn; have := h.isLt; omega
    | succ n ih =>
      intro h hh hn
      rcases O.mem hh with rfl | hm
      · exact ⟨[], rfl⟩
      · rw [childRefs_eq, List.mem_flatMap] at hm
        obtain ⟨g, hg, hc⟩ := hm
        rw [mem_handlesBelow] at hg
        have hlt := O.lower g hg h hc
        have hlim := g.isLt
        obtain ⟨p, hp⟩ := ih g hg (by omega)
        obtain ⟨b, hb⟩ := Node.mem_children.1 hc
        exact ⟨p ++ [b], by rw [follow_snoc, hp]; exact hb⟩
  exact key 511 h hh (by omega)

/-- Along one path only (R27: no sharing, no cycles). -/
theorem path_unique (O : OneTree t r) {h : Handle} {p q : List Bool} (hp : t.follow r p = some h) (hq : t.follow r q = some h) :
    p = q := by
  have noback : ∀ (p : List Bool) (b : Bool), t.follow r (p ++ [b]) ≠ some r := by
    intro p b hb
    rw [follow_snoc] at hb
    match hg : t.follow r p with
    | none => rw [hg] at hb; cases hb
    | some g =>
      rw [hg] at hb
      have hm : r ∈ t.childRefs := by
        rw [childRefs_eq, List.mem_flatMap]
        exact ⟨g, mem_handlesBelow.2 (O.follow_used O.root_used hg), Node.mem_children.2 ⟨b, hb⟩⟩
      exact O.nodup.2 hm
  induction p using List.reverseRecOn generalizing h q with
  | nil =>
    cases hp
    rcases List.eq_nil_or_concat' q with rfl | ⟨q, b, rfl⟩
    · rfl
    · exact absurd hq (noback q b)
  | append_singleton p b ih =>
    rcases List.eq_nil_or_concat' q with rfl | ⟨q, b', rfl⟩
    · cases hq
      exact absurd hp (noback p b)
    · rw [follow_snoc] at hp hq
      match hg : t.follow r p, hg' : t.follow r q with
      | none, _ => rw [hg] at hp; cases hp
      | some g, none => rw [hg'] at hq; cases hq
      | some g, some g' =>
        rw [hg] at hp
        rw [hg'] at hq
        obtain ⟨rfl, rfl⟩ := O.parent_unique (O.follow_used O.root_used hg) (O.follow_used O.root_used hg') hp hq
        rw [ih hg hg']

end OneTree

/-- The arena after `TBUILD`, when there is a root (R27). -/
theorem buildTree_oneTree (freq : Table Count) (t : TreeRegs) {r : Handle} (hr : (buildTree freq t).root = some r) :
    OneTree (buildTree freq t) r := by
  match hu : usedSymbols freq with
  | [] =>
    rw [buildTree_none hu] at hr
    cases hr
  | [v] =>
    obtain ⟨h1, h2, _, h4, h5⟩ := buildTree_one hu t
    rw [h2] at hr
    cases hr
    have hb : handlesBelow 2 = [0, 1] := by
      rw [handlesBelow_succ (by decide), handlesBelow_succ (by decide), handlesBelow_zero]
      rfl
    refine ⟨?_, fun g hg c hc => ?_⟩
    · rw [childRefs_eq, h1, hb]
      simp only [List.flatMap_cons, List.flatMap_nil, h4, h5]
      simp [Node.children]
    · rw [h1] at hg
      have hcase : g = 0 ∨ g = 1 := by
        rcases Nat.lt_or_ge g.val 1 with h | h
        · exact .inl (Fin.ext (by show g.val = 0; omega))
        · exact .inr (Fin.ext (by show g.val = 1; omega))
      rcases hcase with rfl | rfl
      · rw [h4] at hc; cases hc
      · rw [h5] at hc
        simp only [Node.children, Option.toList_some, Option.toList_none, List.append_nil, List.mem_singleton] at hc
        rw [hc]
        decide
  | x :: y :: l =>
    have T := buildTree_full (freq := freq) (by rw [hu]; simp) t
    have hrefs := T.refs
    rw [hr] at hrefs
    refine ⟨hrefs, fun g hg c hc => ?_⟩
    rcases T.good g hg with ⟨b, hn, _⟩ | ⟨l, r, hn, hl, hr, _⟩
    · rw [hn] at hc; cases hc
    · rw [hn] at hc
      simp only [Node.children, Option.toList_some, List.mem_append, List.mem_singleton] at hc
      rcases hc with rfl | rfl
      · exact hl
      · exact hr

end Sys2Proof.Machine
end

