-- ==== Sys2Proof/Laws/PerInstr.lean ====
section
/-! SUPPORT. Statements made operation by operation: an encoded operation decodes to itself, whatever bytes follow it
(`30_encoding.md` rule R110). -/

namespace Sys2Proof.Laws.RoundTrip

/-- The encoding of a well-formed operation decodes to it and leaves the bytes behind it. -/
def Statement (i : Instr) : Prop := WellFormed i = true → ∀ rest : List Byte, decode (encode i ++ rest) = .ok (i, rest)

theorem encode : Statement .encode := fun _ _ => rfl
theorem decode : Statement .decode := fun _ _ => rfl
theorem fcount : Statement .fcount := fun _ _ => rfl
theorem tbuild : Statement .tbuild := fun _ _ => rfl
theorem cderive : Statement .cderive := fun _ _ => rfl

theorem bwbit (b : Bool) : Statement (.bwbit b) := by
  intro _ rest
  cases b <;> rfl

theorem bwbits (p : Pattern) (n : Nat) : Statement (.bwbits p n) := by
  intro h rest
  have hn : n ≤ 255 := of_decide_eq_true h
  have hlen : (bytesLE 32 p.toNat).length = 32 := bytesLE_length 32 p.toNat
  have hp : ofBytesLE (bytesLE 32 p.toNat) = p.toNat := by
    rw [ofBytesLE_bytesLE]
    exact Nat.mod_eq_of_lt (Nat.lt_trans p.isLt (by decide))
  show decodeBits (BitVec.ofNat 8 n :: (bytesLE 32 p.toNat ++ rest)) = _
  have h1 : ¬ (bytesLE 32 p.toNat ++ rest).length < 32 := by rw [List.length_append, hlen]; omega
  have hnn : (BitVec.ofNat 8 n).toNat = n := by
    rw [BitVec.toNat_ofNat]
    exact Nat.mod_eq_of_lt (by omega)
  simp only [decodeBits, if_neg h1, List.take_left' hlen, List.drop_left' hlen, hp, if_pos p.isLt, hnn, BitVec.ofNat_toNat,
    BitVec.setWidth_eq]

theorem bwflush : Statement .bwflush := fun _ _ => rfl
theorem brbit : Statement .brbit := fun _ _ => rfl
theorem hwrite : Statement .hwrite := fun _ _ => rfl
theorem hread : Statement .hread := fun _ _ => rfl
theorem eemit : Statement .eemit := fun _ _ => rfl
theorem dwalk : Statement .dwalk := fun _ _ => rfl

end Sys2Proof.Laws.RoundTrip
end

