-- ==== Sys2Proof/Laws/Sequencer.lean ====
section
/-! SUPPORT. The steps of a running command, and how they make up the command (`10_state.md` rules R33, R41). -/

namespace Sys2Proof.Machine

theorem inv_host {s : State} (l : List HostAction) (h : s.Inv) : State.Inv { s with host := l } :=
  ⟨h.control, h.streams, h.tree, h.writer⟩

theorem takeError_inv {s : State} {e : Err} (he : e ≠ .none) (h : s.Inv) : (takeError e s).Inv :=
  KeepsSome.inv (s := s) ⟨rfl, fun h => h, fun h => h⟩ he h.streams h.tree

/-- The operation of a working phase. -/
theorem phaseOp_keep {p : Phase} {i : Instr} (h : phaseOp p = some i) (s : State) :
   ∃ r : Res Unit, r.Keep s ∧ exec i s = r.outcome := by
  cases p <;> simp only [phaseOp, Option.some.injEq, reduceCtorEq] at h <;> subst h
  · exact ⟨_, fcount_keep s, rfl⟩
  · exact ⟨_, tbuild_keep s, rfl⟩
  · exact ⟨_, cderive_keep s, rfl⟩
  · exact ⟨_, hwrite_keep _ s, rfl⟩
  · exact ⟨_, eemit_keep s, rfl⟩
  · exact ⟨_, bwflush_keep s, rfl⟩
  · exact ⟨_, hread_keep _ s, rfl⟩
  · exact ⟨_, tbuild_keep s, rfl⟩
  · exact ⟨_, dwalk_keep s, rfl⟩

theorem phaseOp_working {p : Phase} : p.working = true ↔ ∃ i, phaseOp p = some i := by
  cases p <;> simp [phaseOp, Phase.working]

theorem nextPhase_working {p : Phase} (z : Size) (h : p.working = true) : nextPhase z p = .done ∨ (nextPhase z p).working = true := by
  cases p <;> try first | (exact .inr rfl) | (exact .inl rfl) | cases h
  by_cases hz : z = 0
  · exact .inl (by rw [nextPhase, if_pos hz])
  · exact .inr (by rw [nextPhase, if_neg hz]; rfl)

theorem advance_inv {s : State} (h : Running s) (hp : s.phase.working = true) : (advance s).Inv := by
  rw [advance.eq_def]
  rcases nextPhase_working s.size hp with h' | h'
  · rw [h']; exact finishCommand_inv h
  · have : ∀ q : Phase, q.working = true → (match q with | .done => finishCommand s | p => goPhase p s).Inv := by
      intro q hq
      cases q <;> first | (exact (goPhase_running h hq).1) | cases hq
    exact this _ h'

/-- Everything a step of a running command can do. -/
theorem sequence_cases {s t : State} (h : sequence s = .next t) :
    (s.phase.working = false ∧ t = s) ∨ ∃ (i : Instr) (u : State), phaseOp s.phase = some i ∧ exec i s = .next u ∧
      (t.phase = .fault ∧ u.phase = .fault ∧ t = u ∨ u.phase ≠ .fault ∧ t = advance u) := by
  unfold sequence at h
  cases hp : phaseOp s.phase with
  | none =>
    rw [hp] at h
    cases h
    refine .inl ⟨?_, rfl⟩
    cases hs : s.phase <;> rw [hs] at hp <;> simp_all [phaseOp, Phase.working]
  | some i =>
    rw [hp] at h
    simp only at h
    cases he : exec i s with
    | next u =>
      rw [he] at h
      cases h
      refine .inr ⟨i, u, rfl, he, ?_⟩
      split
      next hf => exact .inl ⟨hf, hf, rfl⟩
      next hf => exact .inr ⟨hf, rfl⟩
    | fault f => rw [he] at h; cases h
    | refused f => rw [he] at h; cases h

theorem sequence_inv {s t : State} (h : s.Inv) (hb : s.status = .busy) (ht : sequence s = .next t) : t.Inv := by
  rcases sequence_cases ht with ⟨_, rfl⟩ | ⟨i, u, hi, he, hor⟩
  · exact h
  · obtain ⟨r, hr, heq⟩ := phaseOp_keep hi s
    have hu := exec_inv h he
    rcases hor with ⟨_, _, rfl⟩ | ⟨hne, rfl⟩
    · exact hu
    · rw [heq] at he
      rcases hr.control he with ⟨h1, h2, h3⟩ | ⟨_, _, h3⟩
      · exact advance_inv ⟨hu, h1.trans hb⟩ (by rw [h3]; exact phaseOp_working.2 ⟨i, hi⟩)
      · exact absurd h3 hne

/-- One step of a run of the machine. -/
theorem run_next (M : Host.Core) (k : Nat) {u t : M.State} (h : M.step u = .next t) : M.run (k + 1) u = M.run k t := by
  rw [Host.Core.run, h]

theorem run_fault (M : Host.Core) (k : Nat) {u : M.State} {f : M.Fault} (h : M.step u = .fault f) : M.run (k + 1) u = .fault f := by
  rw [Host.Core.run, h]

theorem run_refused (M : Host.Core) (k : Nat) {u : M.State} {f : M.Refusal} (h : M.step u = .refused f) : M.run (k + 1) u = .refused f := by
  rw [Host.Core.run, h]

theorem core_run_succ (k : Nat) (u : State) : Host.Core.run core (k + 1) u =
    (match step u with | .next s' => Host.Core.run core k s' | .fault r => .fault r | .refused r => .refused r) := by
  cases h : step u with
  | next t => exact run_next core k h
  | fault f => exact run_fault core k h
  | refused f => exact run_refused core k h

/-- An idle engine stays as it is (R276). -/
theorem run_idle (k : Nat) {s : State} (hh : s.host = []) (hb : s.status ≠ .busy) : Host.Core.run core k s = .next s := by
  induction k with
  | zero => rfl
  | succ k ih =>
    rw [core_run_succ]
    have : step s = .next s := by rw [step, hh]; simp only [if_neg hb]
    rw [this]
    exact ih

/-- A run of a command from one phase on is the result of its operation and then the run from the next phase. -/
theorem run_phase (k : Nat) {s : State} {i : Instr} {r : Res Unit} {K : Unit → State → Res Unit} (hb : s.status = .busy) (hh : s.host = [])
    (hi : phaseOp s.phase = some i) (hr : r.Keep s) (he : exec i s = r.outcome)
    (hK : ∀ t, Keeps s t → Host.Core.run core k (advance t) = (K () t).outcome) :
    Host.Core.run core (k + 1) s = (r.bind K).outcome := by
  have hs : step s = sequence s := by
    rw [step, hh]
    exact if_pos hb
  rw [core_run_succ, hs, sequence, hi]
  simp only [he]
  cases r with
  | ok a t =>
    have hp : t.phase ≠ .fault := by
      have : t.phase = s.phase := Keeps.phase hr
      rw [this]
      intro e; rw [e] at hi; cases hi
    simp only [Res.outcome_ok, if_neg hp, Res.bind_ok]
    exact hK t hr
  | raised t =>
    obtain ⟨e, u, h1, h2, rfl⟩ := hr
    simp only [Res.outcome_raised, takeError_phase, if_true, Res.bind_raised]
    exact run_idle k (h2.host.trans hh) (by simp)
  | fault f => rfl
  | refused f => rfl

end Sys2Proof.Machine
end

