-- ==== Sys2Proof/Tests/Slice0.lean ====
section
/-! SUPPORT. Tests. The expected results of the first part are the vectors of `95_test_vectors.md`, named by their ids, and
words written out from R110 and log 5. The second part has, for each obligation with hypotheses, states and operands that
meet them together. -/

namespace Sys2Proof.Tests

/- One evaluation at a time: side by side they need more memory than the check has. -/
set_option Elab.async false

open Sys2Proof Sys2Proof.Machine

/-! ## Helpers -/

/-- The engine after reset with a source attached, no access failing. -/
def fresh (src : List Byte) : State := { State.reset with mem := freshStreams src none [] }

/-- The engine after reset with streams whose accesses answer as given. -/
def answering (src : List Byte) (io : List IOAnswer) : State := { State.reset with mem := freshStreams src none io }

/-- Answers to the accesses: some work, the one behind them fails. -/
def failing (n k : Nat) : List IOAnswer := List.replicate n .works ++ [.fails k]

theorem failing_failsAfter {m : Memory} {n k : Nat} (h : m.io = failing n k) : m.FailsAfter n k := by
  refine ⟨fun i hi => ?_, ?_⟩
  · simp [h, failing, List.getD_eq_getElem?_getD, List.getElem?_append, hi]
  · simp [h, failing, List.getD_eq_getElem?_getD]

/-- A table from its nonzero entries. -/
def table (l : List (Byte × Count)) : Table Count := l.foldl (fun t x => Table.put t x.1 x.2) (Table.all 0)

/-- A code table from its entries: symbol, pattern, length. -/
def codes (l : List (Byte × Pattern × CodeLen)) : CodeTable :=
  l.foldl (fun c x => c.record x.1 x.2.1 x.2.2) { len := Table.all 0, pat := Table.all 0 }

/-- Tree registers with the given nodes, the last of them the root. -/
def arena (nodes : List Node) (root : Handle) : TreeRegs where
  node := Vector.ofFn fun h => nodes.getD h.val (.leaf 0 0)
  cnt := nodes.length
  root := some root
  pq := []

/-- Whether an outcome is a next state of which something holds. -/
def after (o : Host.Outcome State Fault Refusal) (p : State → Bool) : Bool :=
  match o with
  | .next t => p t
  | .fault _ => false
  | .refused _ => false

theorem next_of_after {o : Host.Outcome State Fault Refusal} {p : State → Bool} (h : after o p = true) :
    ∃ t, o = .next t ∧ p t = true := by
  cases o with
  | next t => exact ⟨t, rfl, h⟩
  | fault f => cases h
  | refused r => cases h

/-! ## Encodings -/

/-- `BWBITS(0x1FF, 9)`: id, count, 32 pattern bytes, least significant first. -/
def bwbitsWord : List Byte := [0x07, 0x09, 0xFF, 0x01] ++ List.replicate 30 0x00

theorem test_word_encode : decode [0x01] = .ok (.encode, []) := rfl
theorem test_word_decode : decode [0x02] = .ok (.decode, []) := rfl
theorem test_word_fcount : decode [0x03] = .ok (.fcount, []) := rfl
theorem test_word_tbuild : decode [0x04] = .ok (.tbuild, []) := rfl
theorem test_word_cderive : decode [0x05] = .ok (.cderive, []) := rfl
theorem test_word_bwbit : decode [0x06, 0x01] = .ok (.bwbit true, []) ∧ decode [0x06, 0x00] = .ok (.bwbit false, []) := ⟨rfl, rfl⟩
theorem test_word_bwbits : decode bwbitsWord = .ok (.bwbits 0x1FF 9, []) := rfl
theorem test_word_bwflush : decode [0x08] = .ok (.bwflush, []) := rfl
theorem test_word_brbit : decode [0x09] = .ok (.brbit, []) := rfl
theorem test_word_hwrite : decode [0x0A] = .ok (.hwrite, []) := rfl
theorem test_word_hread : decode [0x0B] = .ok (.hread, []) := rfl
theorem test_word_eemit : decode [0x0C] = .ok (.eemit, []) := rfl
theorem test_word_dwalk : decode [0x0D] = .ok (.dwalk, []) := rfl

theorem test_reserved_words : decode [] = .error .empty ∧ decode [0x00] = .error (.reservedId 0x00) ∧
    decode [0x0E] = .error (.reservedId 0x0E) ∧ decode [0x0F] = .error (.reservedId 0x0F) ∧
    decode [0x11] = .error (.reservedId 0x11) ∧ decode [0x06] = .error .missingOperand ∧
    decode [0x06, 0x02] = .error .operandRange ∧ decode [0x07, 0x01, 0x00] = .error .missingOperand := by
  exact ⟨rfl, rfl, rfl, rfl, rfl, rfl, rfl, rfl⟩

/-- P4: the ids of the internal operations and all other words are no command words. -/
theorem test_command_words : decodeCmd 0x01 = some .encode ∧ decodeCmd 0x02 = some .decode ∧ decodeCmd 0x00 = none ∧
    decodeCmd 0x03 = none ∧ decodeCmd 0x07 = none ∧ decodeCmd 0x10 = none ∧ decodeCmd 0xFF = none := by decide

theorem test_wellFormed : WellFormed (.bwbits 0 255) = true ∧ WellFormed (.bwbits 0 256) = false := by decide

theorem test_tableWord : decodeTableWord 8 0x01 = some .encode ∧ decodeTableWord 8 0x07 = some (.bwbits 0 0) ∧
    decodeTableWord 8 0x0E = none := by decide

theorem test_step_runs_tableWord : after (step (State.reset.withFetchWord 16 0x0106)) (fun t =>
    decide (t.bwAcc = 0x80 ∧ t.bwN = 1 ∧ t.host = [])) = true := by decide +kernel

/-! ## Operations -/

/-- F1. -/
theorem test_fcount : after (exec .fcount (fresh [0x41, 0x41, 0x41, 0x42, 0x43])) (fun t =>
    decide (Table.entry t.freq 0x41 = 3 ∧ Table.entry t.freq 0x42 = 1 ∧ Table.entry t.freq 0x44 = 0 ∧ t.size = 5 ∧
      t.mem.srcPos = 5)) = true := by decide +kernel

/-- F6. -/
theorem test_fcount_fails : after (exec .fcount (answering [0x41] [.fails 0])) (fun t =>
    decide (t.err = .io ∧ t.status = .fault ∧ t.size = 0 ∧ t.mem.srcPos = 0 ∧ t.mem.snk = [])) = true := by decide +kernel

/-- T7: a merged node goes behind the leaf of equal frequency. -/
theorem test_tbuild_tie : after (exec .tbuild { State.reset with freq := table [(0x41, 2), (0x42, 1), (0x43, 1)] }) (fun t =>
    decide (t.tree.cnt = 5 ∧ t.tree.root = some 4 ∧ t.tree.nodeAt 3 = .internal 2 (some 1) (some 2) ∧
      t.tree.nodeAt 4 = .internal 4 (some 0) (some 3))) = true := by decide +kernel

/-- T2: one symbol. -/
theorem test_tbuild_one : after (exec .tbuild { State.reset with freq := table [(0x41, 4)] }) (fun t =>
    decide (t.tree.cnt = 2 ∧ t.tree.root = some 1 ∧ t.tree.nodeAt 0 = .leaf 0x41 4 ∧
      t.tree.nodeAt 1 = .internal 4 (some 0) none)) = true := by decide +kernel

/-- The tree of T12. -/
def abracadabra : TreeRegs :=
  arena [.leaf 0x41 5, .leaf 0x42 2, .leaf 0x43 1, .leaf 0x44 1, .leaf 0x52 2, .internal 2 (some 2) (some 3),
    .internal 4 (some 1) (some 4), .internal 6 (some 5) (some 6), .internal 11 (some 0) (some 7)] 8

/-- T12. -/
theorem test_cderive : after (exec .cderive { State.reset with tree := abracadabra }) (fun t =>
    decide (t.code.bits 0x41 = [false] ∧ t.code.bits 0x43 = [true, false, false] ∧ t.code.bits 0x44 = [true, false, true] ∧
      t.code.bits 0x42 = [true, true, false] ∧ Table.entry t.code.pat 0x52 = 7 ∧ Table.entry t.code.len 0x45 = 0)) = true := by
  decide +kernel

/-- W1. -/
theorem test_bwbit : after (exec (.bwbit true) State.reset) (fun t => decide (t.bwAcc = 0x80 ∧ t.bwN = 1 ∧ t.mem.snk = [])) =
    true := by decide +kernel

/-- The eighth bit of W4. -/
theorem test_bwbit_eighth : after (exec (.bwbit true) { State.reset with bwAcc := 0xBE, bwN := 7 }) (fun t =>
    decide (t.bwAcc = 0 ∧ t.bwN = 0 ∧ t.mem.snk = [0xBF] ∧ t.mem.snkPos = 1)) = true := by decide +kernel

/-- W5. -/
theorem test_bwbits : after (exec (.bwbits 0x1FF 9) State.reset) (fun t =>
    decide (t.mem.snk = [0xFF] ∧ t.bwAcc = 0x80 ∧ t.bwN = 1)) = true := by decide +kernel

/-- W12: pattern bits above the count are ignored. -/
theorem test_bwbits_high : after (exec (.bwbits 0xFF 2) State.reset) (fun t =>
    decide (t.mem.snk = [] ∧ t.bwAcc = 0xC0 ∧ t.bwN = 2)) = true := by decide +kernel

/-- The flush of W14. -/
theorem test_bwflush : after (exec .bwflush { State.reset with bwAcc := 0xE2, bwN := 7 }) (fun t =>
    decide (t.mem.snk = [0xE2] ∧ t.bwAcc = 0 ∧ t.bwN = 0)) = true := by decide +kernel

/-- W8. -/
theorem test_bwflush_empty : after (exec .bwflush State.reset) (fun t => decide (t.mem.snk = [] ∧ t.bwN = 0)) = true := by
  decide +kernel

/-- B1, the first call. -/
theorem test_brbit : after (exec .brbit (fresh [0xE2])) (fun t =>
    decide (t.deliveredBit = some true ∧ t.brN = 7 ∧ t.mem.srcPos = 1)) = true := by decide +kernel

/-- B2, the ninth call. -/
theorem test_brbit_end : after (exec .brbit { fresh [0xE2] with brBuf := 0xE2, mem := { freshStreams [0xE2] none [] with srcPos := 1 } })
    (fun t => decide (t.deliveredBit = none ∧ t.brN = 0 ∧ t.brOk = false ∧ t.mem.srcPos = 1)) = true := by decide +kernel

/-- The state of H3. -/
def h3 : State := { State.reset with size := 0x0102030405060708, freq := table [(0x00, 0xAABBCCDD), (0xFF, 0x00000001)] }

/-- H3, `LE`. -/
theorem test_hwrite_le : after (hwrite .LE h3).outcome (fun t => decide (t.mem.snk.take 16 =
    [0x48, 0x55, 0x46, 0x31, 0x08, 0x07, 0x06, 0x05, 0x04, 0x03, 0x02, 0x01, 0xDD, 0xCC, 0xBB, 0xAA])) = true := by
  rw [hwrite_works .LE (s := h3) (fun _ h => by cases h)]
  decide +kernel

/-- H3, `BE`. -/
theorem test_hwrite_be : after (hwrite .BE h3).outcome (fun t => decide (t.mem.snk.take 16 =
    [0x48, 0x55, 0x46, 0x31, 0x01, 0x02, 0x03, 0x04, 0x05, 0x06, 0x07, 0x08, 0xAA, 0xBB, 0xCC, 0xDD])) = true := by
  rw [hwrite_works .BE (s := h3) (fun _ h => by cases h)]
  decide +kernel

/-- H4: a short magic is a bad one. -/
theorem test_hread_magic : after (exec .hread (fresh [0x48, 0x55, 0x46])) (fun t =>
    decide (t.err = .badMagic ∧ t.mem.srcPos = 3 ∧ t.mem.snk = [])) = true := by decide +kernel

/-- H4: the size field one byte short. -/
theorem test_hread_short : after (exec .hread (fresh (magic ++ List.replicate 7 0x00))) (fun t =>
    decide (t.err = .truncHeader ∧ t.status = .fault ∧ t.mem.srcPos = 11)) = true := by decide +kernel

/-- The second pass of P1. -/
theorem test_eemit : after (exec .eemit { fresh [0x41, 0x41, 0x41, 0x42, 0x43] with code := codes [(0x41, 1, 1), (0x42, 0, 2), (0x43, 1, 2)] })
    (fun t => decide (t.bwAcc = 0xE2 ∧ t.bwN = 7 ∧ t.mem.snk = [] ∧ t.mem.srcPos = 5)) = true := by decide +kernel

/-- The unstable source at the end of section 7: pass two sees `AABA`. -/
theorem test_eemit_noCode : after (exec .eemit { State.reset with
      code := codes [(0x41, 0, 1)], mem := freshStreams [0x41, 0x41, 0x41, 0x41] (some [0x41, 0x41, 0x42, 0x41]) [] })
    (fun t => decide (t.err = .noCode ∧ t.phase = .fault ∧ t.mem.snk = [])) = true := by decide +kernel

/-- The tree of T6. -/
def aaabc : TreeRegs :=
  arena [.leaf 0x41 3, .leaf 0x42 1, .leaf 0x43 1, .internal 2 (some 1) (some 2), .internal 5 (some 3) (some 0)] 4

/-- The walk of P1. -/
theorem test_dwalk : after (exec .dwalk { fresh [0xE2] with size := 5, tree := aaabc }) (fun t =>
    decide (t.mem.snk = [0x41, 0x41, 0x41, 0x42, 0x43] ∧ t.emitted = 5 ∧ t.cur = 4 ∧ t.brN = 1 ∧ t.err = .none)) = true := by
  decide +kernel

/-- The tree of T2. -/
def single : TreeRegs := arena [.leaf 0x41 4, .internal 4 (some 0) none] 1

/-- The walk of X7. -/
theorem test_dwalk_missing : after (exec .dwalk { fresh [0x20] with size := 4, tree := single }) (fun t =>
    decide (t.mem.snk = [0x41, 0x41] ∧ t.emitted = 2 ∧ t.err = .missingChild)) = true := by decide +kernel

/-- E7, the payload. -/
theorem test_encode : after (exec .encode (fresh [0x42, 0x41])) (fun t =>
    decide (t.status = .done ∧ t.err = .none ∧ t.mem.snk.drop 1036 = [0x80])) = true := by decide +kernel

/-- E23. -/
theorem test_encode_fails : after (exec .encode (answering [0x41, 0x42, 0x43, 0x44] [.fails 0])) (fun t =>
    decide (t.status = .fault ∧ t.err = .io ∧ t.mem.snk = [])) = true := by decide +kernel

/-- `DECODE` of a magic and nothing more (H4). -/
theorem test_decode_short : after (exec .decode (fresh [0x48, 0x55, 0x46, 0x31])) (fun t =>
    decide (t.status = .fault ∧ t.err = .truncHeader ∧ t.mem.snk = [] ∧ t.mem.srcPos = 4)) = true := by decide +kernel

/-- X4's magic. -/
theorem test_decode_magic : after (exec .decode (fresh [0x48, 0x55, 0x46, 0x32])) (fun t =>
    decide (t.status = .fault ∧ t.err = .badMagic ∧ t.mem.snk = [] ∧ t.mem.srcPos = 4)) = true := by decide +kernel

/-! ## Witnesses: states and operands that meet the hypotheses of the obligations -/

theorem fresh_src (src : List Byte) : (fresh src).mem.src = src := rfl
theorem fresh_rest (src : List Byte) : (fresh src).mem.rest = src := rfl
theorem padded_length (n : Nat) : (magic ++ List.replicate n 0).length = 4 + n := by
  rw [List.length_append, List.length_replicate]; rfl
theorem padded_take (n : Nat) : (magic ++ List.replicate n 0).take 4 = [0x48, 0x55, 0x46, 0x31] := rfl
theorem fresh_noFailure (src : List Byte) : (fresh src).mem.NoFailure := fun _ h => by cases h
theorem fresh_status (src : List Byte) : (fresh src).status ≠ .busy := (show Status.idle ≠ .busy by decide)
theorem fresh_writerOk (src : List Byte) : (fresh src).WriterOk := by
  intro i _
  show (0 : Byte).getLsbD i = false
  simp
theorem inLimits_small {l : List Byte} (h : l.length ≤ 255) : InLimits l := by
  refine ⟨Nat.le_trans h (by decide), fun b => Nat.le_trans (List.count_le_length) (Nat.le_trans h (by decide))⟩

/-- What `ENCODE` leaves of a small input: a header, and a payload when there is a byte. -/
theorem encodes {l : List Byte} (hl : l.length ≤ 255) :
    ∃ t, exec .encode (fresh l) = .next t ∧ ∀ b ∈ l, 1036 < t.mem.snk.length := by
  obtain ⟨c, io, h, d⟩ := runEncode_works Config.hdrOrder (fresh_status l) (fresh_noFailure l) rfl (inLimits_small hl)
  refine ⟨encodeEnd Config.hdrOrder (fresh l) c io, congrArg Res.outcome h, fun b hb => ?_⟩
  have hn : Table.entry c.len b ≠ 0 :=
    (cderive_len_ne (encodeBuilt_tree (fresh l)) d b).2 ((countsOf_ne_zero (l := l) (inLimits_small hl)).2 hb)
  have hz : (Table.entry c.len b).toNat ≠ 0 := fun e => hn (BitVec.eq_of_toNat_eq e)
  have hs : (Table.entry c.len b).toNat ≤ (c.encodeAll l).length := by
    rw [encodeAll_length]
    exact List.single_le_sum (fun _ _ => Nat.zero_le _) _ (List.mem_map.2 ⟨b, hb, rfl⟩)
  have e : (encodeEnd Config.hdrOrder (fresh l) c io).mem.snk =
      headerBytes Config.hdrOrder (BitVec.ofNat 64 l.length) (countsOf l) ++ pack (c.encodeAll l) := rfl
  rw [e, List.length_append, headerBytes_length, pack_length]
  have : Config.hdrLen = 1036 := rfl
  omega

theorem fresh_inv (src : List Byte) (host : List HostAction) : ({ fresh src with host := host } : State).Inv where
  control := by
    show _ ∧ _
    simp [fresh, State.reset, Phase.working]
  streams := ⟨Nat.zero_le _, rfl⟩
  tree := ⟨rfl, Nat.zero_le _, fun r h => by cases h⟩
  writer := fun _ => fresh_writerOk src

theorem witness_HostReadsTheCodes : (∀ x, ∃ s : State, s.status = x) ∧ (∀ p, ∃ s : State, s.phase = p) ∧ ∀ e, ∃ s : State, s.err = e :=
  ⟨fun x => ⟨{ State.reset with status := x }, rfl⟩, fun p => ⟨{ State.reset with phase := p }, rfl⟩,
    fun e => ⟨{ State.reset with err := e }, rfl⟩⟩

theorem witness_StepKeepsTheInvariant : ∃ s t : State, s.Inv ∧ step s = .next t ∧ t.status = .busy :=
  ⟨{ fresh [0x41] with host := [.writeCmd 0x01] }, _, fresh_inv [0x41] _, rfl, rfl⟩

theorem witness_StepRunsTheOperation : (∃ s : State, s.status ≠ .busy ∧ s.host = []) ∧
    decode bwbitsWord = .ok (.bwbits 0x1FF 9, []) ∧ decodeTableWord 16 0x0106 = some (.bwbit true) ∧
    decode [0x0E] = .error (.reservedId 0x0E) :=
  ⟨⟨State.reset, (show Status.idle ≠ .busy by decide), rfl⟩, rfl, by decide, rfl⟩

/-- A running command, the host waiting for it or with nothing more to do. -/
theorem witness_StepRunsTheOperation_busy (host : List HostAction) : ∃ s t : State, s.status = .busy ∧ s.host = host ∧
    phaseOp s.phase = some .bwflush ∧ exec .bwflush s = .next t :=
  ⟨{ commandStart .eFlush (fresh []) with host := host }, _, rfl, rfl, rfl, rfl⟩

theorem witness_ReservedCommandWordIsUsageError : (fresh []).status ≠ .busy ∧ (0x03 : Byte) ≠ 0x01 ∧ (0x03 : Byte) ≠ 0x02 :=
  ⟨fresh_status [], by decide, by decide⟩

theorem witness_HostActionWhileBusyHasNoStep : ∃ (s : State) (a : HostAction), s.status = .busy ∧ a ≠ .wait :=
  ⟨commandStart .eCount (fresh [0x41]), .runCmd 0x01, rfl, by decide⟩

theorem witness_CommandStartSetsEveryRegister : (fresh [0x41]).status ≠ .busy ∧
    ((0x01 : Byte) = 0x01 ∨ (0x01 : Byte) = 0x02) ∧ ((0x02 : Byte) = 0x01 ∨ (0x02 : Byte) = 0x02) :=
  ⟨fresh_status _, .inl rfl, .inr rfl⟩

theorem witness_PhaseMovesAlongThePipelines : ∃ s t : State, s.Inv ∧ (∀ w tail, s.host ≠ .runCmd w :: tail) ∧
    (∀ word tail, s.host ≠ .operate word :: tail) ∧ step s = .next t ∧ t.phase ≠ s.phase :=
  ⟨{ fresh [0x41] with host := [.writeCmd 0x01] }, _, fresh_inv [0x41] _, fun w tail h => (by cases h), fun w tail h => (by cases h), rfl,
    (show Phase.eCount ≠ .idle by decide)⟩

theorem witness_RaiseTakesTheError : ∃ (i : Instr) (s t : State), i.isCommand = false ∧ exec i s = .next t ∧ t.err = .noTree :=
  ⟨.dwalk, fresh [], _, rfl, rfl, rfl⟩

theorem witness_OperationsRaiseOnlyTheirErrors : (∃ t, exec .decode (fresh []) = .next t ∧ t.err = .badMagic) ∧
    ∃ t, exec .dwalk (fresh []) = .next t := by
  refine ⟨?_, _, rfl⟩
  obtain ⟨t, h, h'⟩ := next_of_after (show after (exec .decode (fresh [])) (fun t => decide (t.err = .badMagic)) = true by decide +kernel)
  exact ⟨t, h, of_decide_eq_true h'⟩

theorem witness_EveryOperationEnds : (fresh [0x41]).status ≠ .busy ∧ InLimits (fresh [0x41]).mem.src ∧
    InLimits (fresh [0x41]).mem.rest ∧ (fresh [0x41]).tree.Ok :=
  ⟨fresh_status _, inLimits_small (by decide), inLimits_small (by decide), (fresh_inv [0x41] []).tree⟩

/-- The tree of T3. -/
def ab : TreeRegs := arena [.leaf 0x41 1, .leaf 0x42 1, .internal 2 (some 0) (some 1)] 2

theorem ab_nodes : ab.nodeAt 0 = .leaf 0x41 1 ∧ ab.nodeAt 1 = .leaf 0x42 1 ∧ ab.nodeAt 2 = .internal 2 (some 0) (some 1) := by
  decide +kernel

/-- The first access fails, the Bit Writer waits for its eighth bit, and there is a tree to walk: all clauses of the first part. -/
theorem witness_FailingAccessIsFatal : ∃ s : State, s.mem.answer = .fails 1 ∧ InLimits s.mem.rest ∧ s.brN = 0 ∧ s.bwN ≠ 0 ∧
    s.bwN.val = 7 ∧ s.tree.root = some 2 ∧ s.tree.nodeAt 2 = .internal 2 (some 0) (some 1) ∧ s.size ≠ 0 :=
  ⟨{ answering [0x41] [.fails 1] with bwN := 7, tree := ab, size := 1 }, rfl, inLimits_small (by decide), rfl,
    (show (7 : Fin 8) ≠ 0 by decide), rfl, rfl, ab_nodes.2.2, (show (1 : Size) ≠ 0 by decide)⟩

/-- The last access of each of the three operations: the read at the end of the source, count 255 written, count 255 read; and
the size read behind a good magic. -/
theorem witness_FailingAccessIsFatal_later (k : Nat) :
    (∃ s : State, s.mem.FailsAfter 2 k ∧ InLimits s.mem.rest ∧ s.mem.rest.length = 2) ∧ (∃ s : State, s.mem.FailsAfter 257 k) ∧
    (∃ s : State, s.mem.FailsAfter 1 k ∧ s.mem.rest.take 4 = [0x48, 0x55, 0x46, 0x31]) ∧
    ∃ s : State, s.mem.FailsAfter (255 + 2) k ∧ s.mem.rest.take 4 = [0x48, 0x55, 0x46, 0x31] ∧ s.mem.rest.length = 12 + 4 * 255 := by
  refine ⟨⟨answering [0x41, 0x42] (failing 2 k), failing_failsAfter rfl, inLimits_small (show 2 ≤ 255 by decide), rfl⟩,
    ⟨answering [] (failing 257 k), failing_failsAfter rfl⟩, ⟨answering magic (failing 1 k), failing_failsAfter rfl, rfl⟩,
    answering (magic ++ List.replicate 1028 0) (failing 257 k), failing_failsAfter rfl, padded_take 1028, padded_length 1028⟩

theorem witness_ResultIsAFunctionOfTheSource : ∃ s t : State, s.status ≠ .busy ∧ t.status ≠ .busy ∧ s.mem.src = t.mem.src ∧
    s.mem.rewound = t.mem.rewound ∧ s.mem.io = t.mem.io ∧ s.bwN ≠ t.bwN :=
  ⟨fresh [0x41], { fresh [0x41] with bwN := 3 }, fresh_status _, fresh_status [0x41], rfl, rfl, rfl, (show (0 : Fin 8) ≠ 3 by decide)⟩

theorem witness_DecodeUndoesEncode : WellFormed (.bwbits 0x1FF 255) = true := by decide

theorem witness_OnlyEncodingsDecode : decode [0x0D, 0x55] = .ok (.dwalk, [0x55]) ∧ (0x0E : Byte) ≤ 0x0E ∧ (0x0E : Byte) ≤ 0xFF ∧
    255 < 256 := ⟨rfl, by decide, by decide, by decide⟩

theorem witness_FcountCountsTheSource : (fresh [0x41, 0x42]).mem.wf ∧ (fresh [0x41, 0x42]).mem.NoFailure ∧
    InLimits (fresh [0x41, 0x42]).mem.rest ∧ ∃ t, exec .fcount (answering [] [.fails 0]) = .next t :=
  ⟨⟨Nat.zero_le _, rfl⟩, fresh_noFailure _, inLimits_small (by decide), _, rfl⟩

/-- One byte more of one value than a count holds. -/
theorem witness_InputsBeyondTheLimitsAreRefused : ∃ s : State, s.status ≠ .busy ∧ ¬ InLimits s.mem.src ∧ ¬ InLimits s.mem.rest := by
  obtain ⟨l, h⟩ : ∃ l : List Byte, ¬ InLimits l := by
    refine ⟨List.replicate (2 ^ 32) 0x41, fun h => ?_⟩
    have := h.2 0x41
    rw [List.count_replicate_self] at this
    exact absurd this (by decide)
  exact ⟨fresh l, fresh_status _, by rw [fresh_src]; exact h, by rw [fresh_rest]; exact h⟩

/-- Candidates of frequency 2 and 5 wait, one of frequency 2 is inserted: it goes between them. -/
theorem witness_InsertGoesBehindEqualFrequency : ∃ (h : Handle) (t : TreeRegs),
    t.pq.Pairwise (fun a b => t.freqAt a ≤ t.freqAt b) ∧ t.pq = [0, 1] ∧ t.freqAt 0 = t.freqAt h ∧ t.freqAt h < t.freqAt 1 ∧
      (pqInsert h t).pq = [0, h, 1] := by
  refine ⟨2, { node := ((Vector.replicate 511 (.leaf 0 0)).set 0 (.leaf 0x41 2)).set 1 (.leaf 0x42 5) |>.set 2 (.leaf 0x43 2), cnt := 3, root := none, pq := [0, 1] }, ?_⟩
  decide +kernel

theorem used_none : usedSymbols State.reset.freq = [] := by decide +kernel
theorem used_one : usedSymbols (table [(0x41, 4)]) = [0x41] := by decide +kernel

/-- No symbol, one symbol, two symbols. -/
theorem witness_TbuildBuildsTheTree : usedSymbols State.reset.freq = [] ∧ usedSymbols (table [(0x41, 4)]) = [0x41] ∧
    2 ≤ (usedSymbols (table [(0x41, 1), (0x42, 1)])).length := ⟨used_none, used_one, by decide +kernel⟩

/-- T7: when node 3 is made, leaf 0 waits behind its two children. -/
theorem witness_TbuildBuildsTheTree_waiting : ∃ s t : State, exec .tbuild s = .next t ∧ 3 < t.tree.cnt ∧ t.tree.Waiting 3 0 ∧
    t.tree.Before 2 0 := by
  obtain ⟨t, ht⟩ : ∃ t, t = buildTree (table [(0x41, 2), (0x42, 1), (0x43, 1)]) State.reset.tree := ⟨_, rfl⟩
  obtain ⟨hc, hl, hf⟩ : t.cnt = 5 ∧ (∀ p : Fin 3, (t.nodeAt (Fin.ofNat 511 p.val)).children = []) ∧ t.freqAt 2 < t.freqAt 0 := by
    rw [ht]
    decide +kernel
  refine ⟨{ State.reset with freq := table [(0x41, 2), (0x42, 1), (0x43, 1)] }, { State.reset with freq := table [(0x41, 2), (0x42, 1), (0x43, 1)], tree := t }, by rw [ht]; rfl,
    (show 3 < t.cnt by rw [hc]; decide), ⟨by decide, fun p f l r hp hn => ?_⟩, .inl hf⟩
  have h := hl ⟨p.val, hp⟩
  rw [show Fin.ofNat 511 p.val = p from Fin.ext (Nat.mod_eq_of_lt p.isLt), show t.nodeAt p = _ from hn] at h
  simp only [Node.children, List.append_eq_nil_iff, Option.toList_eq_nil_iff] at h
  exact ⟨by rw [h.1]; exact nofun, by rw [h.2]; exact nofun⟩

/-- The root and another node. -/
theorem witness_TreeHasNoSharingAndNoCycles : (∃ s t : State, exec .tbuild s = .next t ∧ t.tree.root = some 2 ∧
      (0 : Handle).val < t.tree.cnt ∧ (0 : Handle) ≠ 2 ∧ (2 : Handle).val < t.tree.cnt) ∧
    ∃ t, Instr.dwalk.isCommand = false ∧ Instr.dwalk ≠ .tbuild ∧ exec .dwalk (fresh []) = .next t := by
  refine ⟨⟨{ State.reset with freq := table [(0x41, 1), (0x42, 1)] }, _, rfl, ?_⟩, _, rfl, by decide, rfl⟩
  decide +kernel

theorem witness_TbuildIsAFunctionOfTheTable : ∃ s s' t t' : State, s.freq = s'.freq ∧ s.bwN ≠ s'.bwN ∧ exec .tbuild s = .next t ∧
    exec .tbuild s' = .next t' :=
  ⟨State.reset, { State.reset with bwN := 3 }, _, _, rfl, (show (0 : Fin 8) ≠ 3 by decide), rfl, rfl⟩

theorem ab_rep : Rep ab 2 (.two (.leaf 0x41) (.leaf 0x42)) := by
  obtain ⟨h0, h1, h2⟩ := ab_nodes
  have hc : ab.cnt = 3 := rfl
  exact .two (by rw [hc]; decide) h2 (.leaf (by rw [hc]; decide) h0) (.leaf (by rw [hc]; decide) h1)

theorem ab_ok : ab.Ok := by
  refine ⟨rfl, (show 3 ≤ 511 by decide), fun r h => ?_⟩
  cases h
  exact ⟨_, ab_rep, rfl, by decide, by decide⟩

theorem ab_follow : ab.follow 2 [false] = some 0 ∧ ab.follow 2 [true] = some 1 := by decide +kernel

/-- Both kinds of `ROOT`; a symbol with a leaf and one without. -/
theorem witness_CderiveRecordsThePaths : State.reset.tree.Ok ∧ State.reset.tree.root = none ∧ ∃ s : State, s.tree.Ok ∧
    s.tree.root = some 2 ∧ (∃ g f, s.tree.follow 2 [true] = some g ∧ s.tree.nodeAt g = .leaf 0x42 f) ∧
    ∀ p g f, s.tree.follow 2 p = some g → s.tree.nodeAt g ≠ .leaf 0x43 f := by
  refine ⟨(fresh_inv [] []).tree, rfl, { State.reset with tree := ab }, ab_ok, rfl, ⟨1, 1, ab_follow.2, ab_nodes.2.1⟩, fun p g f h1 h2 => ?_⟩
  have := ab_rep.path_of_follow h1 h2
  simp [Shape.paths] at this

/-- No symbol, one symbol; two symbols with codes. -/
theorem witness_CodesGoToSymbolsThatOccur : usedSymbols State.reset.freq = [] ∧ usedSymbols (table [(0x41, 4)]) = [0x41] :=
  ⟨used_none, used_one⟩

theorem witness_CodesArePrefixFree : after (exec .tbuild { State.reset with freq := table [(0x41, 1), (0x42, 1)] }) (fun u => after (exec .cderive u) fun t =>
    decide (0 < (Table.entry t.code.len 0x41).toNat ∧ 0 < (Table.entry t.code.len 0x42).toNat)) = true := by decide +kernel

theorem witness_BwbitAppendsOneBit : (∃ s : State, s.bwN.val = 6) ∧ (∃ s : State, s.bwN.val = 7 ∧ s.mem.answer = .works) ∧
    ∃ s : State, s.bwN.val = 7 ∧ s.mem.answer ≠ .works :=
  ⟨⟨{ State.reset with bwN := 6 }, rfl⟩, ⟨{ State.reset with bwN := 7 }, rfl, rfl⟩,
    ⟨{ answering [] [.fails 1] with bwN := 7 }, rfl, (show IOAnswer.fails 1 ≠ .works by decide)⟩⟩

theorem witness_BwbitsAppendsThePattern : (255 : Nat) ≤ 255 ∧ (fresh []).mem.NoFailure ∧ (fresh []).WriterOk ∧
    (answering [] [.fails 0]).WriterOk ∧ ¬ (answering [] [.fails 0]).mem.NoFailure := by
  refine ⟨Nat.le_refl _, fresh_noFailure _, fresh_writerOk _, fresh_writerOk [], fun h => ?_⟩
  have := h (.fails 0) (.head _)
  cases this

/-- Of the two bytes that 17 bits fill, the write of the second fails, and none of them does. -/
theorem witness_BwbitsAppendsThePattern_fails (p : Pattern) (k : Nat) : ∃ s : State, s.WriterOk ∧ s.mem.FailsAfter 1 k ∧
    (fullBytes (s.pendingBits ++ pat2bits p 17)).length = 2 ∧ ∃ u : State, u.WriterOk ∧ u.mem.FailsAfter 2 k ∧
    (fullBytes (u.pendingBits ++ pat2bits p 17)).length = 2 :=
  ⟨answering [] (failing 1 k), fresh_writerOk [], failing_failsAfter rfl, by rw [fullBytes_length, List.length_append, pendingBits_length, pat2bits_length]; exact congrArg (fun n : Fin 8 => (n.val + 17) / 8) (show _ = (0 : Fin 8) from rfl),
    answering [] (failing 2 k), fresh_writerOk [], failing_failsAfter rfl, by rw [fullBytes_length, List.length_append, pendingBits_length, pat2bits_length]; exact congrArg (fun n : Fin 8 => (n.val + 17) / 8) (show _ = (0 : Fin 8) from rfl)⟩

theorem witness_BwflushEmitsThePendingBits_packed : ∃ s : State, s.bwN ≠ 0 ∧ s.WriterOk :=
  ⟨{ fresh [] with bwAcc := 0xE2, bwN := 7 }, (show (7 : Fin 8) ≠ 0 by decide), by decide⟩

theorem witness_BwflushEmitsThePendingBits : State.reset.bwN = 0 ∧ (∃ s : State, s.bwN ≠ 0 ∧ s.mem.answer = .works) ∧
    ∃ s : State, s.bwN ≠ 0 ∧ s.mem.answer ≠ .works :=
  ⟨rfl, ⟨{ State.reset with bwN := 7 }, (show (7 : Fin 8) ≠ 0 by decide), rfl⟩,
    ⟨{ answering [] [.fails 0] with bwN := 1 }, (show (1 : Fin 8) ≠ 0 by decide), (show IOAnswer.fails 0 ≠ .works by decide)⟩⟩

theorem witness_FlushAgainEmitsNothing : ∃ s : State, s.mem.NoFailure ∧ s.WriterOk ∧ s.bwN = 7 :=
  ⟨{ fresh [] with bwAcc := 0xE2, bwN := 7 }, fresh_noFailure [], by decide, rfl⟩

theorem witness_BitsThenFlushIsPack : (fresh []).mem.NoFailure ∧ (fresh []).bwN = 0 ∧ (fresh []).bwAcc = 0 :=
  ⟨fresh_noFailure _, rfl, rfl⟩

theorem witness_WriterFrame : (∃ t, exec (.bwbit true) (answering [] [.fails 0]) = .next t) ∧
    (∃ t, exec (.bwbits 0x1FF 9) (answering [] [.fails 0]) = .next t) ∧
    ∃ t, exec .bwflush { answering [] [.fails 1] with bwN := 3 } = .next t := ⟨⟨_, rfl⟩, ⟨_, rfl⟩, _, rfl⟩

theorem witness_BrbitDeliversTheNextBit : (∃ s : State, s.brN.val ≠ 0) ∧
    ((fresh [0xE2]).brN.val = 0 ∧ (fresh [0xE2]).mem.answer = .works ∧ (fresh [0xE2]).mem.rest = [0xE2]) ∧
    ((fresh []).brN.val = 0 ∧ (fresh []).mem.answer = .works ∧ (fresh []).mem.rest = []) ∧
    ((answering [0xE2] [.fails 0]).brN.val = 0 ∧ (answering [0xE2] [.fails 0]).mem.answer ≠ .works) :=
  ⟨⟨{ State.reset with brN := 8 }, (show (8 : Nat) ≠ 0 by decide)⟩, ⟨rfl, rfl, rfl⟩, ⟨rfl, rfl, rfl⟩, rfl,
    (show IOAnswer.fails 0 ≠ .works by decide)⟩

theorem witness_BrbitFailsAtTheEnd : (fresh []).mem.NoFailure ∧ (fresh []).brN = 0 ∧ (fresh []).mem.rest = [] :=
  ⟨fresh_noFailure _, rfl, rfl⟩

/-- The last bit of one byte, the first beyond it, and a packed bit string. -/
theorem witness_ReaderReturnsThePayloadBits : (fresh [0xE2]).mem.NoFailure ∧ (fresh [0xE2]).brN = 0 ∧
    7 < 8 * (fresh [0xE2]).mem.rest.length ∧ 8 * (fresh [0xE2]).mem.rest.length ≤ 8 ∧
    (fresh [0xE2]).mem.rest = pack [true, true, true, false, false, false, true] :=
  ⟨fresh_noFailure _, rfl, by decide, by decide, by decide⟩

theorem witness_HwriteAppendsTheHeader : (fresh []).mem.NoFailure := fresh_noFailure _

/-- A source that ends with the header. -/
theorem witness_HreadReadsTheHeader : ∃ s : State, s.mem.NoFailure ∧ s.mem.rest.take 4 = [0x48, 0x55, 0x46, 0x31] ∧
    1036 ≤ s.mem.rest.length ∧ s.mem.rest.length ≤ 1036 :=
  ⟨fresh (magic ++ List.replicate 1032 0), fresh_noFailure _, by rw [fresh_rest, padded_take],
    by rw [fresh_rest, padded_length], by rw [fresh_rest, padded_length]⟩

/-- A magic one byte short, and a header one byte short. -/
theorem witness_HreadRejectsBadHeaders : (fresh [0x48, 0x55, 0x46]).mem.rest.take 4 ≠ [0x48, 0x55, 0x46, 0x31] ∧
    ∃ s : State, s.mem.NoFailure ∧ s.mem.rest.take 4 = [0x48, 0x55, 0x46, 0x31] ∧ s.mem.rest.length = 1035 :=
  ⟨by decide, fresh (magic ++ List.replicate 1031 0), fresh_noFailure _, by rw [fresh_rest, padded_take],
    by rw [fresh_rest, padded_length]⟩

/-- A header read back, under either order. -/
theorem witness_HeaderRoundTrip (o : HdrOrder) : ∃ s s' t : State, s.mem.NoFailure ∧ s'.mem.NoFailure ∧
    (hwrite o s).outcome = .next t ∧ s'.mem.rest = t.mem.snk.drop s.mem.snk.length ++ [0xE2] := by
  obtain ⟨v, hv⟩ : ∃ v, v = headerBytes o (fresh []).size (fresh []).freq := ⟨_, rfl⟩
  have h := hwrite_works o (fresh_noFailure [])
  rw [← hv] at h
  exact ⟨fresh [], fresh (v ++ [0xE2]), _, fresh_noFailure _, fresh_noFailure _, congrArg Res.outcome h, rfl⟩

theorem witness_ReadingFrame : (∃ t, exec .fcount (answering [0x41] [.works, .fails 0]) = .next t) ∧
    (∃ t, exec .hread (fresh [0x48]) = .next t) ∧ ∃ t, exec .brbit (fresh [0xE2]) = .next t := by
  refine ⟨?_, ⟨_, rfl⟩, _, rfl⟩
  obtain ⟨t, h, _⟩ := next_of_after (show after (exec .fcount (answering [0x41] [.works, .fails 0])) (fun _ => true) = true by decide +kernel)
  exact ⟨t, h⟩

/-- The codes of `AAABC`. -/
def abc : State := { fresh [0x41, 0x41, 0x41, 0x42, 0x43] with code := codes [(0x41, 1, 1), (0x42, 0, 2), (0x43, 1, 2)] }

theorem witness_EemitWritesTheCodes : abc.mem.NoFailure ∧ abc.WriterOk ∧
    ∀ b ∈ abc.mem.rewound.getD abc.mem.src, Table.entry abc.code.len b ≠ 0 :=
  ⟨fresh_noFailure _, fresh_writerOk [0x41], by decide +kernel⟩

theorem witness_EemitStopsAtAByteWithoutACode : ∃ s : State, s.mem.NoFailure ∧ s.WriterOk ∧
    s.mem.rewound.getD s.mem.src = [0x41] ++ 0x44 :: [0x42] ∧ (∀ c ∈ ([0x41] : List Byte), Table.entry s.code.len c ≠ 0) ∧
    Table.entry s.code.len 0x44 = 0 :=
  ⟨{ abc with mem := freshStreams [0x41, 0x44, 0x42] none [] }, fresh_noFailure [], fresh_writerOk [], rfl, by decide +kernel⟩

theorem witness_EncodeWritesTheContainer : InLimits [0x41] ∧ (fresh [0x41]).status ≠ .busy ∧ (fresh [0x41]).mem.NoFailure ∧
    (fresh [0x41]).mem.Stable ∧ (fresh [0x41]).mem.src = [0x41] :=
  ⟨inLimits_small (by decide), fresh_status _, fresh_noFailure _, rfl, rfl⟩

/-- The bounds 0 and 255 hold for every code. -/
theorem witness_PayloadLengthIsTheWeightedSum : (fresh [0x41]).status ≠ .busy ∧ (fresh [0x41]).mem.NoFailure ∧
    (fresh [0x41]).mem.Stable ∧ InLimits (fresh [0x41]).mem.src ∧ (fresh [0x41]).mem.src ≠ [] ∧
    ∀ (c : CodeTable) (b : Byte), 0 ≤ (Table.entry c.len b).toNat ∧ (Table.entry c.len b).toNat ≤ 255 :=
  ⟨fresh_status _, fresh_noFailure _, rfl, inLimits_small (by decide), by decide,
    fun c b => ⟨Nat.zero_le _, Nat.le_of_lt_succ (Table.entry c.len b).isLt⟩⟩

theorem witness_WritingFrame : (∃ t, exec .hwrite (answering [] [.fails 2]) = .next t) ∧
    (∃ t, exec .eemit (answering [0x41] [.fails 0]) = .next t) ∧ (answering [0x41] [.fails 0]).mem.Stable ∧
    ∃ t, exec .dwalk (fresh []) = .next t := ⟨⟨_, rfl⟩, ⟨_, rfl⟩, rfl, _, rfl⟩

theorem witness_DwalkWithoutATreeRaises : State.reset.tree.root = none := rfl

/-- The payload `0100 0000` under the tree of T3, for two symbols. -/
theorem witness_DwalkDecodesPaths : ∃ (s : State) (root : Handle) (ps : List (Byte × List Bool)) (rest : List Bool),
    s.tree.root = some root ∧ s.mem.NoFailure ∧ s.availableBits = ps.flatMap Prod.snd ++ rest ∧
    (∀ x ∈ ps, ∃ g f, s.tree.follow root x.2 = some g ∧ s.tree.nodeAt g = .leaf x.1 f) ∧ ps.length = s.size.toNat ∧ s.brN = 0 ∧
    s.mem.srcPos ≤ s.mem.src.length ∧ ps.length = 2 := by
  refine ⟨{ fresh [0x40] with tree := ab, size := 2 }, 2, [(0x41, [false]), (0x42, [true])],
    [false, false, false, false, false, false], rfl, fresh_noFailure [0x40], by decide +kernel, fun x hx => ?_, rfl, rfl,
    Nat.zero_le _, rfl⟩
  simp only [List.mem_cons, List.not_mem_nil, or_false] at hx
  rcases hx with rfl | rfl
  · exact ⟨0, 1, ab_follow.1, ab_nodes.1⟩
  · exact ⟨1, 1, ab_follow.2, ab_nodes.2.1⟩

/-- No payload, one symbol still to come. -/
theorem witness_DwalkRunsOutOfBits : ∃ (s : State) (root g : Handle) (ps : List (Byte × List Bool)) (q : List Bool) (f : Weight)
    (l r : Option Handle), s.tree.root = some root ∧ s.mem.NoFailure ∧ s.availableBits = ps.flatMap Prod.snd ++ q ∧
    (∀ x ∈ ps, ∃ g f, s.tree.follow root x.2 = some g ∧ s.tree.nodeAt g = .leaf x.1 f) ∧ s.tree.follow root q = some g ∧
    s.tree.nodeAt g = .internal f l r ∧ ps.length < s.size.toNat :=
  ⟨{ fresh [] with tree := ab, size := 1 }, 2, 2, [], [], 2, some 0, some 1, rfl,
    fresh_noFailure [], rfl, fun x hx => (by cases hx), rfl, ab_nodes.2.2, (show (0 : Nat) < 1 by decide)⟩

/-- The payload of X7 at its third bit. -/
theorem witness_DwalkMeetsAMissingChild : ∃ (s : State) (root g : Handle) (ps : List (Byte × List Bool)) (q rest : List Bool)
    (b : Bool) (f : Weight) (l r : Option Handle), s.tree.root = some root ∧ s.mem.NoFailure ∧
    s.availableBits = ps.flatMap Prod.snd ++ (q ++ b :: rest) ∧
    (∀ x ∈ ps, ∃ g f, s.tree.follow root x.2 = some g ∧ s.tree.nodeAt g = .leaf x.1 f) ∧ s.tree.follow root q = some g ∧
    s.tree.nodeAt g = .internal f l r ∧ (if b then r else l) = none ∧ ps.length < s.size.toNat := by
  obtain ⟨h0, h1, hf⟩ : single.nodeAt 0 = .leaf 0x41 4 ∧ single.nodeAt 1 = .internal 4 (some 0) none ∧
      single.follow 1 [false] = some 0 := by decide +kernel
  refine ⟨{ fresh [0x20] with tree := single, size := 4 }, 1, 1, [(0x41, [false]), (0x41, [false])], [],
    [false, false, false, false, false], true, 4, some 0, none, rfl, fresh_noFailure [0x20], by decide +kernel, fun x hx => ?_, rfl, h1,
    rfl, (show (2 : Nat) < 4 by decide)⟩
  simp only [List.mem_cons, List.not_mem_nil, or_false, or_self] at hx
  subst hx
  exact ⟨0, 4, hf, h0⟩

/-- A step on a leaf, and one on an internal node without bits. -/
theorem witness_WalkStepEmitsOrDescends : (∃ t, (walkStep 2 { State.reset with tree := ab }).outcome = .next t) ∧
    ∃ t, (walkStep 2 { State.reset with tree := ab, cur := 2 }).outcome = .next t ∧ t.err = .unexpectedEnd := by
  constructor
  · obtain ⟨t, h, _⟩ := next_of_after (show after (walkStep 2 { State.reset with tree := ab }).outcome (fun _ => true) = true by decide +kernel)
    exact ⟨t, h⟩
  · obtain ⟨t, h, h'⟩ := next_of_after (show after (walkStep 2 { State.reset with tree := ab, cur := 2 }).outcome
      (fun t => decide (t.err = .unexpectedEnd)) = true by decide +kernel)
    exact ⟨t, h, of_decide_eq_true h'⟩

theorem witness_DecodeOfSizeZeroIsEmpty : ∃ (s : State) (freq : Table Count), s.status ≠ .busy ∧ s.mem.NoFailure ∧
    s.mem.src = headerBytes Config.hdrOrder 0 freq ++ [0xE2] ∧ Table.entry freq 0x41 ≠ 0 :=
  ⟨fresh (headerBytes Config.hdrOrder 0 (Table.all 1) ++ [0xE2]), Table.all 1, fresh_status _, fresh_noFailure _, rfl, by decide +kernel⟩

theorem witness_CommandFrame : (∃ t, exec .encode (fresh [0x41]) = .next t) ∧ (fresh [0x41]).mem.Stable ∧
    ∃ t, exec .decode (fresh []) = .next t := by
  obtain ⟨t, h, _⟩ := encodes (l := [0x41]) (by decide)
  exact ⟨⟨_, h⟩, rfl, _, rfl⟩

/-- A container of one byte, with a byte behind it. -/
theorem witness_DecodeUndoesEncodeCommand : ∃ s s' t : State, s.status ≠ .busy ∧ s.mem.NoFailure ∧ s.mem.Stable ∧
    InLimits s.mem.src ∧ s'.status ≠ .busy ∧ s'.mem.NoFailure ∧ exec .encode s = .next t ∧ s'.mem.src = t.mem.snk ++ [0xFF] := by
  obtain ⟨t, h, _⟩ := encodes (l := [0x41]) (by decide)
  exact ⟨fresh [0x41], fresh (t.mem.snk ++ [0xFF]), _, fresh_status _, fresh_noFailure _,
    rfl, inLimits_small (by decide), fresh_status _, fresh_noFailure _, h, rfl⟩

/-- One byte, and as many as a count holds. -/
theorem witness_OneRepeatedByte (n : Nat) : ∃ s s' : State, s.status ≠ .busy ∧ s.mem.NoFailure ∧ s.mem.Stable ∧
    s.mem.src = List.replicate n 0x41 ∧ s'.status ≠ .busy ∧ s'.mem.NoFailure ∧ 1 ≤ 1 ∧ 1 ≤ 2 ^ 32 - 1 ∧
    2 ^ 32 - 1 ≤ 2 ^ 32 - 1 :=
  ⟨fresh (List.replicate n 0x41), fresh [], fresh_status _, fresh_noFailure _, rfl, rfl, fresh_status _, fresh_noFailure _,
    by decide, by decide, Nat.le_refl _⟩

theorem witness_EmptyInput : (fresh []).status ≠ .busy ∧ (fresh []).mem.NoFailure ∧ (fresh []).mem.Stable ∧ (fresh []).mem.src = [] :=
  ⟨fresh_status _, fresh_noFailure _, rfl, rfl⟩

/-- A wrong magic, a good one alone, and a container cut to its header. -/
theorem witness_CorruptContainersAreRejected : (fresh [0x48, 0x55, 0x46, 0x32]).mem.src.take 4 ≠ [0x48, 0x55, 0x46, 0x31] ∧
    ((fresh [0x48, 0x55, 0x46, 0x31]).mem.src.take 4 = [0x48, 0x55, 0x46, 0x31] ∧ (fresh [0x48, 0x55, 0x46, 0x31]).mem.src.length < 1036) ∧
    ∃ s s' t : State, s.status ≠ .busy ∧ s.mem.NoFailure ∧ s.mem.Stable ∧ InLimits s.mem.src ∧ exec .encode s = .next t ∧
      s'.status ≠ .busy ∧ s'.mem.NoFailure ∧ 1036 ≤ 1036 ∧ 1036 < t.mem.snk.length ∧ s'.mem.src = t.mem.snk.take 1036 := by
  refine ⟨by decide, ⟨by decide, by decide⟩, ?_⟩
  obtain ⟨t, h, hn⟩ := encodes (l := [0x41]) (by decide)
  exact ⟨fresh [0x41], fresh (t.mem.snk.take 1036), t, fresh_status _, fresh_noFailure _, rfl, inLimits_small (by decide), h,
    fresh_status _, fresh_noFailure _, Nat.le_refl _, hn 0x41 (.head _), rfl⟩

theorem witness_DecoderRebuildsTheTree : ∃ s s' t : State, s.status ≠ .busy ∧ s.mem.NoFailure ∧ s.mem.Stable ∧
    InLimits s.mem.src ∧ exec .encode s = .next t ∧ s'.status ≠ .busy ∧ s'.mem.NoFailure ∧ s'.mem.src = t.mem.snk ++ [] := by
  obtain ⟨t, h, _⟩ := encodes (l := [0x41, 0x42]) (by decide)
  exact ⟨fresh [0x41, 0x42], fresh (t.mem.snk ++ []), _, fresh_status _,
    fresh_noFailure _, rfl, inLimits_small (by decide), h, fresh_status _, fresh_noFailure _, rfl⟩

/-- A run that fails beside one that does not, on the same source. -/
theorem witness_CommandsSucceedOrFailOutright : ∃ s u v : State, s.status ≠ .busy ∧ s.mem.Stable ∧ InLimits s.mem.src ∧
    u.status ≠ .busy ∧ u.mem.NoFailure ∧ u.mem.Stable ∧ u.mem.src = s.mem.src ∧ exec .encode u = .next v := by
  obtain ⟨t, h, _⟩ := encodes (l := [0x41]) (by decide)
  exact ⟨answering [0x41] [.fails 0], fresh [0x41], _, fresh_status [], rfl, inLimits_small (by decide), fresh_status _, fresh_noFailure _,
    rfl, rfl, h⟩

/-- `EEMIT`: the read at the end of `AAABC`, behind seven bits; the write of the byte that the eighth of eight bits fills. -/
theorem witness_LaterFailingAccessEndsThePass_eemit (k : Nat) :
    (∃ s : State, s.WriterOk ∧ s.mem.rewound.getD s.mem.src = [0x41, 0x41, 0x41, 0x42, 0x43] ++ [] ∧
      (∀ c ∈ ([0x41, 0x41, 0x41, 0x42, 0x43] : List Byte), Table.entry s.code.len c ≠ 0) ∧
      s.mem.FailsAfter (1 + (5 + (fullBytes (s.pendingBits ++ s.code.encodeAll [0x41, 0x41, 0x41, 0x42, 0x43])).length)) k) ∧
    ∃ s : State, s.WriterOk ∧ s.mem.rewound.getD s.mem.src = List.replicate 7 0x41 ++ 0x41 :: [] ∧
      (∀ c ∈ List.replicate 7 (0x41 : Byte) ++ [0x41], Table.entry s.code.len c ≠ 0) ∧
      (fullBytes (s.pendingBits ++ s.code.encodeAll (List.replicate 7 0x41))).length = 0 ∧
      (fullBytes (s.pendingBits ++ s.code.encodeAll (List.replicate 7 0x41 ++ [0x41]))).length = 1 ∧ s.mem.FailsAfter (7 + 2 + 0) k := by
  refine ⟨⟨{ abc with mem := freshStreams [0x41, 0x41, 0x41, 0x42, 0x43] none (failing 6 k) }, fresh_writerOk [], rfl, (show ∀ c ∈ ([0x41, 0x41, 0x41, 0x42, 0x43] : List Byte), Table.entry abc.code.len c ≠ 0 by decide +kernel), ?_⟩,
    { abc with mem := freshStreams (List.replicate 8 0x41) none (failing 9 k) }, fresh_writerOk [], rfl,
    (show ∀ c ∈ List.replicate 7 (0x41 : Byte) ++ [0x41], Table.entry abc.code.len c ≠ 0 by decide +kernel), ?_, ?_,
    failing_failsAfter rfl⟩
  · have h : (fullBytes (abc.pendingBits ++ abc.code.encodeAll [0x41, 0x41, 0x41, 0x42, 0x43])).length = 0 := by decide +kernel
    show Memory.FailsAfter _ (1 + (5 + (fullBytes (abc.pendingBits ++ _)).length)) k
    rw [h]
    exact failing_failsAfter rfl
  · show (fullBytes (abc.pendingBits ++ abc.code.encodeAll (List.replicate 7 0x41))).length = 0
    decide +kernel
  · show (fullBytes (abc.pendingBits ++ abc.code.encodeAll (List.replicate 7 0x41 ++ [0x41]))).length = 1
    decide +kernel

/-- `DWALK` under the tree of T3: the write of the second of two symbols; the read of a byte behind eight symbols. -/
theorem witness_LaterFailingAccessEndsThePass_dwalk (k : Nat) :
    (∃ (s : State) (ps : List (Byte × List Bool)) (rest : List Bool), s.tree.root = some 2 ∧
      s.availableBits = ps.flatMap Prod.snd ++ ([true] ++ rest) ∧
      (∀ x ∈ ps, ∃ g f, s.tree.follow 2 x.2 = some g ∧ s.tree.nodeAt g = .leaf x.1 f) ∧ s.tree.follow 2 [true] = some 1 ∧
      s.tree.nodeAt 1 = .leaf 0x42 1 ∧ ps.length < s.size.toNat ∧
      s.brN.val = 0 ∧ ((ps.flatMap Prod.snd).length + 1 + 7 - 0) / 8 + ps.length = 2 ∧ s.mem.FailsAfter 2 k) ∧
    ∃ (s : State) (ps : List (Byte × List Bool)) (rest : List Bool), s.tree.root = some 2 ∧
      s.availableBits = ps.flatMap Prod.snd ++ ([] ++ rest) ∧
      (∀ x ∈ ps, ∃ g f, s.tree.follow 2 x.2 = some g ∧ s.tree.nodeAt g = .leaf x.1 f) ∧ s.tree.follow 2 [] = some 2 ∧
      s.tree.nodeAt 2 = .internal 2 (some 0) (some 1) ∧ ps.length < s.size.toNat ∧
      (ps.flatMap Prod.snd).length + 0 = s.brN.val + 8 * 1 ∧ s.mem.FailsAfter (1 + ps.length) k := by
  have hA : ∃ g f, ab.follow 2 [false] = some g ∧ ab.nodeAt g = .leaf 0x41 f := ⟨0, 1, ab_follow.1, ab_nodes.1⟩
  refine ⟨⟨{ answering [0x40] (failing 2 k) with tree := ab, size := 2 }, [(0x41, [false])],
    [false, false, false, false, false, false], rfl, ?_, fun x hx => ?_, ab_follow.2, ab_nodes.2.1, (show (1 : Nat) < 2 by decide),
    rfl, rfl, failing_failsAfter rfl⟩,
    { answering [0x00, 0xFF] (failing 9 k) with tree := ab, size := 9 }, List.replicate 8 (0x41, [false]), List.replicate 8 true, rfl,
    ?_, fun x hx => ?_, rfl, ab_nodes.2.2, (show (8 : Nat) < 9 by decide), rfl, (show Memory.FailsAfter _ 9 k from failing_failsAfter rfl)⟩
  · show (fresh [0x40]).availableBits = _
    decide +kernel
  · obtain rfl := List.mem_singleton.1 hx
    exact hA
  · show (fresh [0x00, 0xFF]).availableBits = _
    decide +kernel
  · obtain rfl := List.eq_of_mem_replicate hx
    exact hA

end Sys2Proof.Tests
end

section
/-! PROOFS. Reset, command start and the tree registers (`10_state.md` rules R27, R46; `46_encoder.md` rule R201). -/

namespace Sys2Proof.Machine

/-! ### Reset -/

/-- Settles O1: each value is a field of the literal `State.reset`, and `Memory.reset` for the streams. -/
theorem resetGivesTheStatedValues : Obligations.ResetGivesTheStatedValues := by
  unfold Obligations.ResetGivesTheStatedValues
  exact ⟨rfl, rfl, rfl, rfl, rfl, rfl, rfl, rfl, rfl, rfl, rfl, rfl, rfl, rfl, rfl⟩

/-! ### Command start -/

/-- A `CMD` write without waiting is taken off the pending actions and carried out (R41 (1), log 4). -/
theorem step_writeCmd {s : State} (hb : s.status ≠ .busy) (w : Byte) (tail : List HostAction) :
    step { s with host := .writeCmd w :: tail } = .next (writeCmd w { s with host := tail }) := if_neg hb

/-- The two command words start a command in its first phase (R111, R112). -/
theorem writeCmd_command {w : Byte} (hw : w = 0x01 ∨ w = 0x02) (s : State) :
    writeCmd w s = commandStart (if w = 0x01 then .eCount else .dHeader) s := by
  obtain rfl | rfl := hw <;> rfl

/-- Settles O8: the step is `commandStart`, whose fields are the command-start column. -/
theorem commandStartSetsEveryRegister : Obligations.CommandStartSetsEveryRegister := by
  unfold Obligations.CommandStartSetsEveryRegister
  intro s w tail hb hw
  refine ⟨commandStart (if w = 0x01 then .eCount else .dHeader) { s with host := tail }, ?_, rfl, rfl, rfl, rfl, rfl,
    Table.entry_all 0, Table.entry_all 0, rfl, rfl, rfl, rfl, rfl, rfl, rfl, rfl, rfl, rfl⟩
  rw [step_writeCmd hb, writeCmd_command hw]

/-! ### The tree registers are left alone -/

theorem Counted.tree {s t : State} (h : Counted s t) : t.tree = s.tree := by
  obtain ⟨⟨_, _, _, _, rfl⟩, _⟩ := h; rfl

theorem Wrote.tree {bits : List Bool} {s t : State} {v : List Byte} (h : Wrote bits s t v) : t.tree = s.tree := by
  obtain ⟨_, _, _, rfl⟩ := h.shape; rfl

theorem WroteSome.tree {bits : List Bool} {s t : State} {v : List Byte} (h : WroteSome bits s t v) : t.tree = s.tree := by
  obtain ⟨_, _, _, _, rfl⟩ := h.shape; rfl

theorem Flushed.tree {s t : State} (h : Flushed s t) : t.tree = s.tree := by
  obtain ⟨_, _, _, _, rfl, _⟩ := h; rfl

theorem Appended.tree {v : List Byte} {s t : State} (h : Appended v s t) : t.tree = s.tree := by
  obtain ⟨_, rfl⟩ := h; rfl

theorem HeaderRead.tree {s t : State} (h : HeaderRead s t) : t.tree = s.tree := by
  obtain ⟨⟨_, _, _, _, rfl⟩, _⟩ := h; rfl

theorem Emitted.tree {s t : State} (h : Emitted s t) : t.tree = s.tree := by
  obtain ⟨⟨_, _, _, _, _, _, _, _, rfl, _⟩, _⟩ := h; rfl

theorem BitPulled.tree {s t : State} (h : BitPulled s t) : t.tree = s.tree := by
  obtain ⟨⟨_, _, _, _, _, rfl⟩, _⟩ := h; rfl

/-- Every end of an operation, a raise included, has the tree registers it was started with (R27). -/
def Res.KeepsTree {α : Type} (r : Res α) (s : State) : Prop := r.Sat (fun _ t => t.tree = s.tree) fun t => t.tree = s.tree

theorem Res.KeepsTree.next {α : Type} {r : Res α} {s t : State} (h : r.KeepsTree s) (ht : r.outcome = .next t) :
    t.tree = s.tree := Res.Sat.next h ht

/-- Taking the error does not touch the tree registers either (R256). -/
theorem Res.Does.keepsTree {α : Type} {r : Res α} {s : State} {Q : α → State → Prop} {F : Err → State → Prop} (h : r.Does Q F)
    (hQ : ∀ a t, Q a t → t.tree = s.tree) (hF : ∀ e u, F e u → u.tree = s.tree) : r.KeepsTree s := h.sat hQ hF

theorem fcount_keepsTree (s : State) : (fcount s).KeepsTree s := by
  by_cases hl : InLimits s.mem.rest
  · exact (fcount_does hl).keepsTree (fun _ _ h => h.1.tree) fun _ _ h => h.2.tree
  · obtain h | h := fcount_refuses hl <;> rw [h] <;> trivial

theorem cderive_keepsTree (s : State) : (cderive s).KeepsTree s := by
  obtain ⟨c, h⟩ | h := cderive_cases s <;> rw [h]
  · rfl
  · trivial

theorem bwbit_keepsTree (b : Bool) (s : State) : (bwbit b s).KeepsTree s :=
  (bwbit_does b s).keepsTree (fun _ _ ⟨_, h⟩ => h.tree) fun _ _ ⟨_, _, h⟩ => h.tree

theorem bwbits_keepsTree (p : Pattern) (n : Nat) (s : State) : (bwbits p n s).KeepsTree s :=
  (bwbits_does p n s).keepsTree (fun _ _ ⟨_, h⟩ => h.tree) fun _ _ ⟨_, _, h⟩ => h.tree

theorem bwflush_keepsTree (s : State) : (bwflush s).KeepsTree s :=
  (bwflush_does s).keepsTree (fun _ _ h => h.1.tree) fun _ _ h => h.2.tree

theorem brbit_keepsTree (s : State) : (brbit s).KeepsTree s :=
  (brbit_does s).keepsTree (fun _ _ h => h.1.tree) fun _ _ h => h.2.tree

theorem hwrite_keepsTree (o : HdrOrder) (s : State) : (hwrite o s).KeepsTree s :=
  (hwrite_does o s).keepsTree (fun _ _ h => h.tree) fun _ _ ⟨_, _, _, h⟩ => h.tree

theorem hread_keepsTree (o : HdrOrder) (s : State) : (hread o s).KeepsTree s :=
  (hread_does o s).keepsTree (fun _ _ h => h.tree) fun _ _ h => h.2.tree

theorem eemit_keepsTree (s : State) : (eemit s).KeepsTree s :=
  (eemit_does s).keepsTree (fun _ _ h => h.1.tree) fun _ _ h => h.2.tree

theorem dwalk_keepsTree (s : State) : (dwalk s).KeepsTree s := by
  refine (dwalk_does s).keepsTree (fun _ _ ⟨_, h, _⟩ => h.tree) ?_
  rintro _ _ (⟨_, rfl⟩ | ⟨_, _, h, _⟩)
  · rfl
  · exact h.tree

/-- Among the internal operations only `TBUILD` writes the tree registers (R27). -/
theorem exec_tree {i : Instr} {s t : State} (hi : i.isCommand = false) (hne : i ≠ .tbuild) (ht : exec i s = .next t) :
    t.tree = s.tree := by
  cases i with
  | encode => cases hi
  | decode => cases hi
  | tbuild => exact absurd rfl hne
  | fcount => exact (fcount_keepsTree s).next ht
  | cderive => exact (cderive_keepsTree s).next ht
  | bwbit b => exact (bwbit_keepsTree b s).next ht
  | bwbits p n =>
    simp only [exec, execBwbits] at ht
    split at ht
    · exact (bwbits_keepsTree p n s).next ht
    · cases ht
  | bwflush => exact (bwflush_keepsTree s).next ht
  | brbit => exact (brbit_keepsTree s).next ht
  | hwrite => exact (hwrite_keepsTree _ s).next ht
  | hread => exact (hread_keepsTree _ s).next ht
  | eemit => exact (eemit_keepsTree s).next ht
  | dwalk => exact (dwalk_keepsTree s).next ht

/-! ### The tree `TBUILD` leaves -/

/-- In a tree each handle in use is at the end of exactly one path from the root (R27). -/
theorem OneTree.existsUnique_path {t : TreeRegs} {r h : Handle} (O : OneTree t r) (hh : h.val < t.cnt) :
    ∃! p, t.follow r p = some h := by
  obtain ⟨p, hp⟩ := O.reached hh
  exact ⟨p, hp, fun _ hq => O.path_unique hq hp⟩

/-- Settles O23: `TBUILD` leaves a `OneTree`, and no other internal operation writes the tree registers. -/
theorem treeHasNoSharingAndNoCycles : Obligations.TreeHasNoSharingAndNoCycles := by
  unfold Obligations.TreeHasNoSharingAndNoCycles
  refine ⟨?_, fun i s t hi hne ht => exec_tree hi hne ht⟩
  rintro s _ ⟨⟩ r hr h hh
  have O := buildTree_oneTree s.freq s.tree hr
  obtain ⟨hchild, hroot⟩ := O.count hh
  exact ⟨hchild, hroot, O.existsUnique_path hh⟩

end Sys2Proof.Machine
end

section
/-! PROOFS. What `ENCODE` and `DECODE` depend on and what they leave as it is (`20_memory.md` rule R64). -/

namespace Sys2Proof.Machine

/-! ### The sink before a command -/

/-- The state with another sink attached, at another position. -/
def State.withSink (v : List Byte) (n : Nat) (s : State) : State := { s with mem := { s.mem with snk := v, snkPos := n } }

/-- Command start writes both fields of the sink and tests only `STATUS` (R64, D12, log 7). -/
theorem startCommand_withSink (p : Phase) (v : List Byte) (n : Nat) (s : State) :
    startCommand p (s.withSink v n) = startCommand p s := rfl

theorem runEncode_withSink (o : HdrOrder) (v : List Byte) (n : Nat) (s : State) :
    runEncode o (s.withSink v n) = runEncode o s := by
  rw [runEncode, startCommand_withSink, runEncode]

theorem runDecode_withSink (o : HdrOrder) (v : List Byte) (n : Nat) (s : State) :
    runDecode o (s.withSink v n) = runDecode o s := by
  rw [runDecode, startCommand_withSink, runDecode]

/-! ### The two commands, once they answer next -/

theorem exec_encode_frame {s t : State} (h : exec .encode s = .next t) : EncodeFrame s t :=
  (runEncode_frame Config.hdrOrder s).next h

theorem exec_decode_frame {s t : State} (h : exec .decode s = .next t) : DecodeFrame s t :=
  (runDecode_frame Config.hdrOrder s).next h

/-- A byte of the source depends on the source's bytes only, not on the cursors, the sink or the answers. -/
theorem Memory.sourceByte_congr {m m' : Memory} (h : m.src = m'.src) (a : Nat) : m.sourceByte a = m'.sourceByte a :=
  congrArg (·[a]?) h

/-- Settles O53: the outcome starts from `startCommand`, which drops the former sink, and the rest is read off the frames. -/
theorem commandFrame : Obligations.CommandFrame := by
  unfold Obligations.CommandFrame
  refine ⟨fun s v n => ⟨?_, ?_⟩, fun s t => ⟨fun h => ?_, fun h => ?_⟩⟩
  · exact congrArg Res.outcome (runEncode_withSink Config.hdrOrder v n s)
  · exact congrArg Res.outcome (runDecode_withSink Config.hdrOrder v n s)
  · have F := exec_encode_frame h
    exact ⟨fun hs => Memory.sourceByte_congr (F.src hs).1, F.host, F.brN, F.brOk, F.emitted, F.snk⟩
  · have F := exec_decode_frame h
    exact ⟨Memory.sourceByte_congr F.src, F.host, F.draws, F.bwAcc, F.bwN, F.len, F.rewound, F.snk⟩

end Sys2Proof.Machine
end

section
/-! PROOFS. The Frequency Counter (`40_frequency_counter.md` rule R131). -/

namespace Sys2Proof.Machine

/-- In a well-formed memory the cursor and what is left to read make up the whole source (R60). -/
theorem Memory.srcPos_add_rest {m : Memory} (hw : m.wf) : m.srcPos + m.rest.length = m.src.length := by
  rw [Memory.rest, List.length_drop, Nat.add_sub_cancel' hw.1]

/-- The counts of an input within the limits add up to its length: no count wraps (R131, R132). -/
theorem countsOf_sum {l : List Byte} (hl : InLimits l) :
    (symbols.map fun b => (Table.entry (countsOf l) b).toNat).sum = l.length :=
  (congrArg List.sum (List.map_congr_left fun b _ => countsOf_toNat hl b)).trans (sum_counts l)

/-- Beyond the limits `FCOUNT` is refused, so a next state comes from an input within them (R132). -/
theorem inLimits_of_fcount_next {s t : State} (ht : (fcount s).outcome = .next t) : InLimits s.mem.rest := by
  by_contra hl
  obtain h | h := fcount_refuses hl <;> rw [h] at ht <;> cases ht

theorem Counted.control {s t : State} (h : Counted s t) : t.status = s.status ∧ t.err = s.err ∧ t.phase = s.phase := by
  obtain ⟨⟨_, _, _, _, rfl⟩, _⟩ := h
  exact ⟨rfl, rfl, rfl⟩

/-- `FCOUNT` returns and leaves the control registers, or takes `E_IO`, whatever its accesses answer (R131, R256). -/
theorem fcount_control {s t : State} (ht : (fcount s).outcome = .next t) :
    (t.status = s.status ∧ t.err = s.err ∧ t.phase = s.phase) ∨ (t.status = .fault ∧ t.err = .io ∧ t.phase = .fault) := by
  obtain ⟨_, h, _⟩ | ⟨_, u, ⟨rfl, _⟩, rfl⟩ := (fcount_does (inLimits_of_fcount_next ht)).next ht
  · exact .inl h.control
  · exact .inr ⟨rfl, rfl, rfl⟩

/-- Settles O19: without a failure `FCOUNT` leaves `countsOf` the bytes read, whose entries and sum are exact within the limits. -/
theorem fcountCountsTheSource : Obligations.FcountCountsTheSource := by
  unfold Obligations.FcountCountsTheSource
  refine ⟨fun s hw hf hl => ?_, fun s t ht => fcount_control ht⟩
  have hsize := length_toNat hl
  exact ⟨_, congrArg Res.outcome (fcount_works hf hl), countsOf_toNat hl, hsize, (countsOf_sum hl).trans hsize.symm,
    Memory.srcPos_add_rest hw, rfl⟩

end Sys2Proof.Machine
end

section
/-! PROOFS. The Tree Builder (`41_tree_builder.md` rules R141 to R147). -/

namespace Sys2Proof.Machine

/-! ### `PQInsert` -/

/-- The scan of `PQInsert` stops at a candidate of greater frequency (R143). -/
theorem lt_freq_of_dropWhile_eq_cons {freq : Handle → Weight} {h e : Handle} {l es : List Handle}
    (hd : l.dropWhile (fun x => decide (freq x ≤ freq h)) = e :: es) : freq h < freq e := by
  have hstop := List.head?_dropWhile_not (fun x => decide (freq x ≤ freq h)) l
  rw [hd] at hstop
  exact BitVec.not_le.1 (of_decide_eq_false hstop)

/-- In candidates in order of frequency, all from there on have a greater frequency (R31, R143). -/
theorem lt_freq_of_mem_dropWhile {freq : Handle → Weight} {h : Handle} {l : List Handle}
    (hs : l.Pairwise fun a b => freq a ≤ freq b) :
    ∀ x ∈ l.dropWhile (fun x => decide (freq x ≤ freq h)), freq h < freq x := by
  intro x hx
  have hdrop := hs.sublist (List.dropWhile_sublist fun x => decide (freq x ≤ freq h))
  match hd : l.dropWhile (fun x => decide (freq x ≤ freq h)) with
  | [] => rw [hd] at hx; cases hx
  | e :: es =>
    have hlt : freq h < freq e := lt_freq_of_dropWhile_eq_cons hd
    rw [hd] at hx hdrop
    obtain rfl | hmem := List.mem_cons.1 hx
    · exact hlt
    · exact Nat.lt_of_lt_of_le hlt (List.rel_of_pairwise_cons hdrop hmem)

/-- Settles O21: the two parts are `takeWhile` and `dropWhile` of the test `freq e ≤ freq h`. -/
theorem insertGoesBehindEqualFrequency : Obligations.InsertGoesBehindEqualFrequency := by
  unfold Obligations.InsertGoesBehindEqualFrequency
  intro h t
  refine ⟨t.pq.takeWhile fun e => decide (t.freqAt e ≤ t.freqAt h), t.pq.dropWhile fun e => decide (t.freqAt e ≤ t.freqAt h),
    List.takeWhile_append_dropWhile.symm, ?_, ?_, ?_, ?_⟩
  · rw [pqInsert, insertByFreq_eq]
  · exact fun e he => by simpa using List.mem_takeWhile_imp he
  · exact fun e es hd => lt_freq_of_dropWhile_eq_cons hd
  · exact fun hs => ⟨lt_freq_of_mem_dropWhile hs, insertByFreq_sorted h hs⟩

/-! ### `TBUILD` -/

/-- The frequency of a merged node is the exact sum of its children's (R26, R146). -/
theorem GoodNode.freq_toNat {freq : Table Count} {t : TreeRegs} {h l r : Handle} {f : Weight} (g : GoodNode freq t h)
    (hn : t.nodeAt h = .internal f (some l) (some r)) : f.toNat = (t.freqAt l).toNat + (t.freqAt r).toNat := by
  obtain ⟨b, hleaf, _⟩ | ⟨l', r', hmerged, _, _, _, hfit⟩ := g
  · cases hn.symm.trans hleaf
  · cases hn.symm.trans hmerged
    rw [BitVec.toNat_add, Nat.mod_eq_of_lt hfit]

/-- The tree at `ROOT` has the used symbols at its leaves and is no deeper than R147 says. -/
theorem buildTree_shape (freq : Table Count) (t : TreeRegs) {r : Handle} (hr : (buildTree freq t).root = some r) :
    ∃ sh, Rep (buildTree freq t) r sh ∧ sh.isInternal = true ∧ sh.symbols.Perm (usedSymbols freq) ∧
      sh.depth ≤ max 1 ((usedSymbols freq).length - 1) := by
  match hu : usedSymbols freq with
  | [] =>
    rw [buildTree_none hu] at hr
    cases hr
  | [v] =>
    obtain ⟨hcnt, hroot, _, hleaf, hnode⟩ := buildTree_one hu t
    cases hroot.symm.trans hr
    have hrep : Rep (buildTree freq t) 0 (.leaf v) := .leaf (by rw [hcnt]; decide) hleaf
    exact ⟨.one (.leaf v), .one (by rw [hcnt]; decide) hnode hrep, rfl, List.Perm.refl [v], Nat.le_max_left 1 0⟩
  | x :: y :: l =>
    have T := buildTree_full (freq := freq) (by rw [hu]; simp) t
    obtain ⟨r', hroot, _, _, sh, hrep, hint, hdepth, hperm⟩ := T.root
    cases hroot.symm.trans hr
    rw [hu] at hperm
    rw [hperm.length_eq] at hdepth
    exact ⟨sh, hrep, hint, hperm, le_max_of_le_right (Nat.le_sub_one_of_lt hdepth)⟩

/-- Settles O22: the three cases are `buildTree_none`, `buildTree_one` and `buildTree_full`, and the tree is
`buildTree_shape`. -/
theorem tbuildBuildsTheTree : Obligations.TbuildBuildsTheTree := by
  unfold Obligations.TbuildBuildsTheTree
  intro s
  have hpq : (buildTree s.freq s.tree).pq = [] := (buildTree_ok s.freq s.tree).1.1
  refine ⟨{ s with tree := buildTree s.freq s.tree }, rfl, rfl, hpq, fun hnone => ?_, fun v hone => ?_, fun htwo => ?_,
    fun r hr => buildTree_shape s.freq s.tree hr⟩
  · simp only [buildTree_none hnone, and_self]
  · obtain ⟨hcnt, hroot, _, hleaf, hnode⟩ := buildTree_one hone s.tree
    exact ⟨hcnt, hroot, hleaf, hnode⟩
  · have T := buildTree_full htwo s.tree
    obtain ⟨r, hroot, hlast, hsum, _⟩ := T.root
    refine ⟨T.count, ⟨r, hroot, hlast, hsum⟩, T.leaf, fun h hk hh => ?_⟩
    obtain ⟨f, l, r, hnode, hwl, hwr, hlr, hmin⟩ := T.chosen h hk hh
    exact ⟨f, l, r, hnode, hwl.1, hwr.1, (T.good h hh).freq_toNat hnode, hlr.le, hwl, hwr, hlr, hmin⟩

end Sys2Proof.Machine
end

section
/-! PROOFS. The Code Table Deriver (`42_code_table_deriver.md` rules R161, R162). -/

namespace Sys2Proof.Machine

/-- The pattern recorded for a symbol of the tree is its path read as a binary number (R101, R161). -/
theorem pat_recordAll_toNat {sh : Shape} (hd : sh.depth ≤ 255) (hn : sh.symbols.Nodup) (c : CodeTable) {b : Byte}
    {p : List Bool} (hp : (b, p) ∈ sh.paths) :
    (Table.entry (recordAll sh.paths 0 0 c).pat b).toNat = p.foldl (fun n x => 2 * n + x.toNat) 0 := by
  have hpat := (recordAll_mem sh.paths 0 0 c (by rwa [sh.paths_symbols]) hp).2
  rw [hpat]
  exact (growPath_toNat p ((Shape.paths_length hp).trans hd)).1

/-- A symbol whose leaf no walk from the top of the tree reaches has length 0 (R162). -/
theorem CodesOf.len_eq_zero_of_no_leaf {t : TreeRegs} {h : Handle} {sh : Shape} {c : CodeTable} (C : CodesOf sh c)
    (r : Rep t h sh) {b : Byte} (hno : ∀ p g f, t.follow h p = some g → t.nodeAt g ≠ .leaf b f) :
    Table.entry c.len b = 0 := by
  refine C.none b fun hb => ?_
  obtain ⟨p, hp⟩ := Shape.exists_path hb
  obtain ⟨g, f, hfollow, hleaf⟩ := r.follow hp
  exact hno p g f hfollow hleaf

/-- Settles O25: on the tree at `ROOT` the table is `recordAll` of the tree's paths, and a walk that ends at a leaf has gone
along that leaf's path. -/
theorem cderiveRecordsThePaths : Obligations.CderiveRecordsThePaths := by
  unfold Obligations.CderiveRecordsThePaths
  intro s hok
  cases hroot : s.tree.root with
  | none =>
    exact ⟨_, congrArg Res.outcome (cderive_none hroot), rfl, fun _ b => Table.entry_all 0 b, nofun⟩
  | some r =>
    obtain ⟨-, -, htree⟩ := hok
    obtain ⟨sh, hrep, hint, hdepth, hnodup⟩ := htree r hroot
    have C := codesOf_recordAll hdepth hnodup s.code
    refine ⟨_, congrArg Res.outcome (cderive_rep hroot hrep hdepth), rfl, nofun, ?_⟩
    rintro _ ⟨⟩ b
    refine ⟨fun p g f hfollow hleaf => ?_, C.len_eq_zero_of_no_leaf hrep⟩
    have hp := hrep.path_of_follow hfollow hleaf
    obtain ⟨hbits, hlen⟩ := C.path b p hp
    exact ⟨hbits, hlen, Shape.paths_ne_nil hint hp, pat_recordAll_toNat hdepth hnodup _ hp⟩

end Sys2Proof.Machine
end

section
/-! PROOFS. The Bit Writer (`43_bit_writer.md` rules R171 to R174). -/

namespace Sys2Proof.Machine

/-- An access that does not work fails, and lands some number of bytes (R65). -/
theorem exists_fails_of_ne_works {a : IOAnswer} (h : a ≠ .works) : ∃ k, a = .fails k := by
  cases a with
  | works => exact absurd rfl h
  | fails k => exact ⟨k, rfl⟩

/-! ### `BWBIT` -/

/-- With room for the bit after it, one bit is put into the buffer (R171). -/
theorem bwbit_of_lt {s : State} (b : Bool) (h : s.bwN.val < 7) :
    bwbit b s = .ok () { s with bwAcc := accWith s.bwAcc s.bwN.val b, bwN := s.bwN + 1 } := if_pos h

/-- The eighth bit appends the byte and empties the buffer, whatever the buffer held (R171). -/
theorem bwbit_emits {s : State} (b : Bool) (h : s.bwN.val = 7) (ha : s.mem.answer = .works) :
    bwbit b s =
      .ok () { s with bwAcc := 0, bwN := 0, mem := s.mem.answered.append [accWith s.bwAcc s.bwN.val b] } := by
  simp only [bwbit, if_neg (Nat.not_lt.2 h.ge)]
  rw [memWrite_works (s := { s with bwAcc := accWith s.bwAcc s.bwN.val b }) ha]

/-- When the write of the filled byte fails, `E_IO` is taken (R171, R256). -/
theorem bwbit_raises {s : State} (b : Bool) (h : s.bwN.val = 7) (ha : s.mem.answer ≠ .works) :
    ∃ t, bwbit b s = .raised (takeError .io t) := by
  obtain ⟨k, hk⟩ := exists_fails_of_ne_works ha
  simp only [bwbit, if_neg (Nat.not_lt.2 h.ge)]
  rw [memWrite_fails (s := { s with bwAcc := accWith s.bwAcc s.bwN.val b }) hk]
  exact ⟨{ s with
    bwAcc := accWith s.bwAcc s.bwN.val b, bwN := Config.freeBwN s.draws, draws := s.draws + 1
    mem := s.mem.answered.append ([accWith s.bwAcc s.bwN.val b].take k) }, rfl⟩

/-- Settles O28: the bit is put at its place, and the eighth one writes the byte, which works or fails. -/
theorem bwbitAppendsOneBit : Obligations.BwbitAppendsOneBit := by
  unfold Obligations.BwbitAppendsOneBit
  intro b s
  rw [← accWith_eq s.bwAcc s.bwN.isLt b]
  refine ⟨fun h => ?_, fun h ha => ?_, fun h ha => ?_⟩
  · exact congrArg Res.outcome (bwbit_of_lt b h)
  · exact congrArg Res.outcome (bwbit_emits b h ha)
  · obtain ⟨t, ht⟩ := bwbit_raises b h ha
    exact ⟨takeError .io t, congrArg Res.outcome ht, rfl, rfl, rfl⟩

/-! ### `BWBITS` -/

/-- For a bit count in range `BWBITS` writes the bits of `pat2bits` one by one (R172). -/
theorem exec_bwbits {n : Nat} (hn : n ≤ 255) (p : Pattern) (s : State) :
    exec (.bwbits p n) s = (writeBits (pat2bits p n) s).outcome := by
  rw [← bwbits_eq]
  exact if_pos hn

theorem Wrote.snk {bits : List Bool} {s t : State} {v : List Byte} (h : Wrote bits s t v) : t.mem.snk = s.mem.snk ++ v := by
  obtain ⟨_, _, _, rfl⟩ := h.shape; rfl

theorem WroteSome.snk {bits : List Bool} {s t : State} {v : List Byte} (h : WroteSome bits s t v) :
    t.mem.snk = s.mem.snk ++ v := by
  obtain ⟨_, _, _, _, rfl⟩ := h.shape; rfl

theorem Wrote.control {bits : List Bool} {s t : State} {v : List Byte} (h : Wrote bits s t v) :
    t.status = s.status ∧ t.err = s.err ∧ t.phase = s.phase := by
  obtain ⟨_, _, _, rfl⟩ := h.shape
  exact ⟨rfl, rfl, rfl⟩

/-- Whatever the writes answer, all the full bytes are appended, or `E_IO` is taken behind a prefix of them (R172, R256). -/
theorem writeBits_ends (bits : List Bool) {s : State} (hw : s.WriterOk) :
    ∃ t v, (writeBits bits s).outcome = .next t ∧ t.mem.snk = s.mem.snk ++ v ∧
      v <+: fullBytes (s.pendingBits ++ bits) ∧
      ((t.status = s.status ∧ t.err = s.err ∧ t.phase = s.phase ∧ v = fullBytes (s.pendingBits ++ bits)) ∨
        (t.status = .fault ∧ t.err = .io ∧ t.phase = .fault)) := by
  obtain ⟨t, ht, ⟨_, v, h⟩ | ⟨_, u, ⟨rfl, v, h⟩, rfl⟩⟩ := (writeBits_does bits s).ends
  · obtain ⟨hstatus, herr, hphase⟩ := h.control
    have hv := (h.value hw).1
    exact ⟨t, v, ht, h.snk, hv ▸ List.prefix_rfl, .inl ⟨hstatus, herr, hphase, hv⟩⟩
  · exact ⟨takeError .io u, v, ht, h.snk, h.value hw, .inr ⟨rfl, rfl, rfl⟩⟩

/-- Settles O29: `BWBITS` is `writeBits` of the pattern's bits, whose writes all work (`writeBits_works`), fail at a known
access (`writeBits_fails`) or answer anything (`writeBits_ends`). -/
theorem bwbitsAppendsThePattern : Obligations.BwbitsAppendsThePattern := by
  unfold Obligations.BwbitsAppendsThePattern
  intro p n s
  refine ⟨fun hn hf => ?_, fun hn hf hw => ?_, fun hn hw => ?_, fun hn hw j k ha => ⟨fun hj => ?_, fun hj => ?_⟩⟩ <;>
    rw [exec_bwbits hn]
  · exact (execAll_bits hf _).symm
  · exact congrArg Res.outcome (writeBits_works (hf.worksFor _) hw)
  · exact writeBits_ends _ hw
  · obtain ⟨acc, m, d, h⟩ := writeBits_fails ha hw hj
    exact ⟨_, congrArg Res.outcome h, (List.append_assoc ..).symm⟩
  · exact congrArg Res.outcome (writeBits_works (fun i hi => ha.1 i (hi.trans_le hj)) hw)

/-! ### `BWFLUSH` -/

/-- With no bit pending nothing is emitted (R173). -/
theorem bwflush_of_eq_zero {s : State} (h : s.bwN = 0) : bwflush s = .ok () s := if_pos (congrArg Fin.val h)

/-- Pending bits: the flush is the write of the buffer, then the buffer is emptied (R173). -/
theorem bwflush_of_ne_zero {s : State} (h : s.bwN ≠ 0) :
    bwflush s = (memWrite [s.bwAcc] s).bind fun _ t => .ok () { t with bwAcc := 0, bwN := 0 } :=
  if_neg fun h0 => h (Fin.ext h0)

/-- In a sound buffer that is not empty the byte flushed is the pending bits, padded with zeros (R173). -/
theorem pack_pendingBits {s : State} (h : s.bwN ≠ 0) (hw : s.WriterOk) : pack s.pendingBits = [s.bwAcc] := by
  have hlt : s.pendingBits.length < 8 := (pendingBits_length s).trans_lt s.bwN.isLt
  have hne : s.pendingBits ≠ [] := fun e => h (Fin.ext ((pendingBits_length s).symm.trans (congrArg List.length e)))
  rw [pack_eq, fullBytes_of_lt hlt, leftover_of_lt hlt, if_neg hne, ← bwAcc_eq hw, List.nil_append]

/-- Settles O30: with bits pending the flush is one write, of the packed pending bits, which works or fails. -/
theorem bwflushEmitsThePendingBits : Obligations.BwflushEmitsThePendingBits := by
  unfold Obligations.BwflushEmitsThePendingBits
  intro s
  refine ⟨fun h => congrArg Res.outcome (bwflush_of_eq_zero h), fun h ha => ?_, fun h hw => (pack_pendingBits h hw).symm,
    fun h ha => ?_⟩
  · have hflush := bwflush_of_ne_zero h
    rw [memWrite_works ha] at hflush
    exact congrArg Res.outcome hflush
  · obtain ⟨k, hk⟩ := exists_fails_of_ne_works ha
    have hflush := bwflush_of_ne_zero h
    rw [memWrite_fails hk] at hflush
    exact ⟨_, congrArg Res.outcome hflush, rfl, rfl, rfl⟩

/-- Behind a flush that works the buffer is empty and the pending bits are in the sink, packed (R173). -/
theorem bwflush_empties {s : State} (hf : s.mem.NoFailure) (hw : s.WriterOk) :
    ∃ t, bwflush s = .ok () t ∧ t.mem.snk = s.mem.snk ++ pack s.pendingBits ∧ t.bwN = 0 ∧ t.bwAcc = 0 :=
  ⟨_, bwflush_works hf hw, rfl, rfl, rfl⟩

/-- Settles O31: in the empty buffer a flush leaves, a second one finds nothing and a bit is the first of its byte. -/
theorem flushAgainEmitsNothing : Obligations.FlushAgainEmitsNothing := by
  unfold Obligations.FlushAgainEmitsNothing
  intro s hf hw
  obtain ⟨t, hflush, hsnk, hn, hacc⟩ := bwflush_empties hf hw
  exact ⟨t, congrArg Res.outcome hflush, hsnk, congrArg Res.outcome (bwflush_of_eq_zero hn),
    fun b => congrArg Res.outcome (bwbit_empty b hn hacc)⟩

end Sys2Proof.Machine
end

section
/-! PROOFS. The Bit Reader (`44_bit_reader.md` rule R181). -/

namespace Sys2Proof.Machine

/-- A read that works at the end of the source delivers no bit, whatever the answers after it (R181, R182). -/
theorem brbit_exhausted {s : State} (h : s.brN.val = 0) (ha : s.mem.answer = .works) (hr : s.mem.rest = []) :
    brbit s = .ok none { s with brOk := false, mem := s.mem.answered } := by
  rw [brbit, if_pos h, memRead_works ha, hr]
  rfl

/-- When the read of a byte fails, `E_IO` is taken and the buffer is as before (R181, R256, log 25). -/
theorem brbit_raises {s : State} (h : s.brN.val = 0) (ha : s.mem.answer ≠ .works) :
    brbit s = .raised (takeError .io { s with mem := s.mem.answered }) := by
  obtain ⟨k, hk⟩ := exists_fails_of_ne_works ha
  rw [brbit, if_pos h, memRead_fails hk]
  rfl

/-- With `BR_OK` set the bit delivered last is bit `BR_N` of the buffer (R39, R181, log 27). -/
theorem deliveredBit_of_brOk {s : State} (h : s.brOk = true) : s.deliveredBit = some (s.brBuf.getLsbD s.brN.val) := if_pos h

/-- Settles O34: the buffer holds a bit, or the read it asks for works with a byte, works with none, or fails. -/
theorem brbitDeliversTheNextBit : Obligations.BrbitDeliversTheNextBit := by
  unfold Obligations.BrbitDeliversTheNextBit
  intro s
  refine ⟨fun hn => ?_, fun b l h0 ha hr => ?_, fun h0 ha hr => ?_, fun h0 ha => ?_⟩
  · refine ⟨_, congrArg Res.outcome (brbit_buffered hn), ?_, rfl⟩
    rw [deliveredBit_of_brOk rfl, brN_pred hn]
  · exact ⟨_, congrArg Res.outcome (brbit_pulls h0 ha hr), deliveredBit_of_brOk rfl, rfl⟩
  · exact ⟨_, congrArg Res.outcome (brbit_exhausted h0 ha hr), rfl, rfl⟩
  · exact congrArg Res.outcome (brbit_raises h0 ha)

end Sys2Proof.Machine
end

section
/-! PROOFS. The command `ENCODE` (`46_encoder.md` rule R208, `48_properties.md` rule R236). -/

namespace Sys2Proof.Machine

/-! ### The container -/

/-- The container of an input under a code table: the header of its length and counts, then the packed codes (R90, R95). -/
def containerOf (c : CodeTable) (input : List Byte) : List Byte :=
  headerBytes Config.hdrOrder (BitVec.ofNat 64 input.length) (countsOf input) ++ pack (c.encodeAll input)

/-- R96. -/
theorem containerOf_length (c : CodeTable) (input : List Byte) :
    (containerOf c input).length = 1036 + ((c.encodeAll input).length + 7) / 8 := by
  rw [containerOf, List.length_append, headerBytes_length, pack_length, Config.hdrLen]

/-- Every frequency table has codes: those a state with its tree derives (R161). -/
theorem exists_derived (freq : Table Count) (s : State) :
    ∃ u c, u.tree = buildTree freq s.tree ∧ Derived freq u c := by
  obtain ⟨c, -, hcodes⟩ := cderive_codes freq s.tree (s := { s with tree := buildTree freq s.tree }) rfl
  exact ⟨_, c, rfl, hcodes⟩

/-- Code tables derived from the counts of the input give one container, whatever the states they were derived in (R236). -/
theorem Derived.containerOf_eq {input : List Byte} {t t' : TreeRegs} {s s' : State} {c c' : CodeTable}
    (hs : s.tree = buildTree (countsOf input) t) (hs' : s'.tree = buildTree (countsOf input) t')
    (h : Derived (countsOf input) s c) (h' : Derived (countsOf input) s' c') : containerOf c input = containerOf c' input := by
  rw [containerOf, Derived.encodeAll_eq hs hs' h h' input, containerOf]

/-! ### The end of `ENCODE` -/

section
variable (o : HdrOrder) (s : State) (c : CodeTable) (io : List IOAnswer)

@[simp] theorem encodeEnd_status : (encodeEnd o s c io).status = .done := rfl
@[simp] theorem encodeEnd_err : (encodeEnd o s c io).err = .none := rfl
@[simp] theorem encodeEnd_phase : (encodeEnd o s c io).phase = .done := rfl
@[simp] theorem encodeEnd_size : (encodeEnd o s c io).size = BitVec.ofNat 64 s.mem.src.length := rfl
@[simp] theorem encodeEnd_emitted : (encodeEnd o s c io).emitted = 0 := rfl
@[simp] theorem encodeEnd_freq : (encodeEnd o s c io).freq = countsOf s.mem.src := rfl
@[simp] theorem encodeEnd_code : (encodeEnd o s c io).code = c := rfl

theorem encodeEnd_snk : (encodeEnd Config.hdrOrder s c io).mem.snk = containerOf c s.mem.src := rfl

theorem encodeEnd_snkPos : (encodeEnd Config.hdrOrder s c io).mem.snkPos = (containerOf c s.mem.src).length := by
  rw [containerOf_length, ← pack_length]
  rfl

end

theorem exec_encode_works {s : State} (hb : s.status ≠ .busy) (hf : s.mem.NoFailure) (hs : s.mem.Stable)
    (hl : InLimits s.mem.src) :
    ∃ c io, exec .encode s = .next (encodeEnd Config.hdrOrder s c io) ∧ Derived (countsOf s.mem.src) (encodeBuilt s) c := by
  obtain ⟨c, io, hrun, hcodes⟩ := runEncode_works Config.hdrOrder hb hf hs hl
  exact ⟨c, io, congrArg Res.outcome hrun, hcodes⟩

/-- Settles O44: the container is the one under the codes derived from reset, and every run derives codes that give the same. -/
theorem encodeWritesTheContainer : Obligations.EncodeWritesTheContainer := by
  unfold Obligations.EncodeWritesTheContainer
  intro input hl
  obtain ⟨u, c₀, htree, hcodes₀⟩ := exists_derived (countsOf input) State.reset
  refine ⟨containerOf c₀ input, fun s hb hf hs hsrc => ?_⟩
  subst hsrc
  obtain ⟨c, io, hexec, hcodes⟩ := exec_encode_works hb hf hs hl
  have hone : containerOf c₀ s.mem.src = containerOf c s.mem.src :=
    Derived.containerOf_eq htree (encodeBuilt_tree s) hcodes₀ hcodes
  rw [hone]
  exact ⟨_, hexec, encodeEnd_status .., encodeEnd_err .., encodeEnd_phase .., length_toNat hl, encodeEnd_emitted ..,
    countsOf_toNat hl, encodeEnd_snk .., rfl, containerOf_length .., encodeEnd_snkPos ..⟩

end Sys2Proof.Machine
end

section
/-! PROOFS. The Decoder (`47_decoder.md` rules R217 to R223). -/

namespace Sys2Proof.Machine

/-! ### What a walk from the root leaves -/

/-- A stretch of the walk changes the walk's registers and the streams' positions and sink, and nothing else (R219). -/
theorem Walked.frame {s t : State} {root : Handle} {v : List Byte} (h : Walked { s with cur := root, emitted := 0 } t v) :
    { t with
      emitted := s.emitted, brBuf := s.brBuf, brN := s.brN, brOk := s.brOk, cur := s.cur
      mem := { t.mem with srcPos := s.mem.srcPos, snk := s.mem.snk, snkPos := s.mem.snkPos, io := s.mem.io } } = s := by
  obtain ⟨_, _, _, _, _, _, rfl⟩ := h; rfl

/-- The bytes written stand at the end of the sink (R221). -/
theorem Walked.snk {s t : State} {v : List Byte} (h : Walked s t v) : t.mem.snk = s.mem.snk ++ v := by
  obtain ⟨_, _, _, _, _, _, rfl⟩ := h; rfl

theorem Walked.snkPos {s t : State} {v : List Byte} (h : Walked s t v) : t.mem.snkPos = s.mem.snkPos + v.length := by
  obtain ⟨_, _, _, _, _, _, rfl⟩ := h; rfl

/-- From an empty buffer no byte is pulled beyond those the bits used need (R184, R219). -/
theorem Stretch.srcPos_of_empty {s t : State} {c r : Nat} {v : List Byte} (h : Stretch s t c v r) (h0 : s.brN = 0) :
    t.mem.srcPos = s.mem.srcPos + (c + 7) / 8 := by
  have hr : r = (c + 7 - s.brN.val) / 8 := h.reads
  rw [h.srcPos, hr, h0]
  rfl

/-! ### `DWALK` -/

/-- Settles O48: the whole walk is one stretch over the paths, whose reads and writes are counted. -/
theorem dwalkDecodesPaths : Obligations.DwalkDecodesPaths := by
  unfold Obligations.DwalkDecodesPaths
  intro s root ps rest hroot hf hbits hpaths hsize
  obtain ⟨t, r, hrun, hwalk, hcur, hrest, hem⟩ := dwalk_decodes hroot hf ps hbits hpaths hsize
  have hpos : t.mem.snkPos = s.mem.snkPos + ps.length := by
    rw [hwalk.walked.snkPos, List.length_map]
  exact ⟨t, congrArg Res.outcome hrun, hwalk.walked.snk, hpos, hem, hcur, hrest, fun h0 _ => hwalk.srcPos_of_empty h0,
    hwalk.walked.frame⟩

/-- Settles O49: the walk reaches the internal node, where `BRBIT` has no bit to deliver and the raise keeps the rest. -/
theorem dwalkRunsOutOfBits : Obligations.DwalkRunsOutOfBits := by
  unfold Obligations.DwalkRunsOutOfBits
  intro s root g ps q f l r hroot hf hbits hpaths hfollow hnode hsize
  obtain ⟨t, hrun, hwalked, hok, -, hcur⟩ := dwalk_unexpectedEnd hroot hf ps hbits hpaths hfollow hnode hsize
  have hem : t.emitted.toNat = ps.length := by
    rw [walked_emitted hwalked (by rwa [List.length_map]), List.length_map]
  exact ⟨takeError .unexpectedEnd t, congrArg Res.outcome hrun, rfl, rfl, rfl, hwalked.snk, hem, hok, hcur⟩

/-! ### `DECODE` -/

/-- `DECODE` of a header with size 0 ends right after `TBUILD` (R217). -/
theorem exec_decode_zero {s : State} {freq : Table Count} {tail : List Byte} (hb : s.status ≠ .busy) (hf : s.mem.NoFailure)
    (hsrc : s.mem.src = headerBytes Config.hdrOrder 0 freq ++ tail) :
    exec .decode s = .next (finishCommand (decodeBuilt s 0 freq)) :=
  congrArg Res.outcome ((runDecode_header Config.hdrOrder hb hf hsrc).trans (if_pos rfl))

theorem decodeBuilt_srcPos (s : State) (size : Size) (freq : Table Count) : (decodeBuilt s size freq).mem.srcPos = 1036 :=
  Nat.zero_add 1036

/-- The tree that `DECODE` has built is the one `TBUILD` makes of the counts, in whatever state it runs (R140, R216). -/
theorem decodeBuilt_tree_same (s : State) (size : Size) {freq : Table Count} {u v : State} (hfreq : u.freq = freq)
    (hv : exec .tbuild u = .next v) : (decodeBuilt s size freq).tree.Same v.tree := by
  cases hv
  subst hfreq
  exact buildTree_same u.freq (commandStart .dHeader s).tree u.tree

/-- Settles O52: with size 0 the command ends on the tree of the header's counts, before the walk. -/
theorem decodeOfSizeZeroIsEmpty : Obligations.DecodeOfSizeZeroIsEmpty := by
  unfold Obligations.DecodeOfSizeZeroIsEmpty
  intro s freq tail hb hf hsrc
  exact ⟨_, exec_decode_zero hb hf hsrc, rfl, rfl, rfl, rfl, rfl, decodeBuilt_srcPos s 0 freq, rfl, rfl,
    fun _ _ hfreq hv => decodeBuilt_tree_same s 0 hfreq hv⟩

end Sys2Proof.Machine
end

section
/-! PROOFS. The codes of a frequency table (`48_properties.md` rule R239, `42_code_table_deriver.md` rule R163). -/

namespace Sys2Proof.Machine

/-- Codes derived from a frequency table are prefix-free: they are the paths of a tree, or there are none (R239). -/
theorem Derived.prefixFree {freq : Table Count} {s : State} {c : CodeTable} (h : Derived freq s c) {a b : Byte}
    (ha : Table.entry c.len a ≠ 0) (hb : Table.entry c.len b ≠ 0) (hp : c.bits a <+: c.bits b) : a = b := by
  obtain ⟨-, rfl⟩ | ⟨_, _, -, -, -, -, -, hcodes⟩ := h
  · exact absurd (Table.entry_all 0 a) ha
  · exact hcodes.prefixFree ha hb hp

/-- Settles O27: `CDERIVE` after `TBUILD` leaves the codes derived from the table. -/
theorem codesArePrefixFree : Obligations.CodesArePrefixFree := by
  unfold Obligations.CodesArePrefixFree
  intro s
  obtain ⟨u, t, hbuild, hderive, -, hcodes⟩ := codes_after s
  exact ⟨u, t, hbuild, hderive, fun a b hne ha hb hp =>
    hne (hcodes.prefixFree (BitVec.toNat_ne.2 ha.ne') (BitVec.toNat_ne.2 hb.ne') hp)⟩

/-- A symbol that alone has a count is all of the used symbols. -/
theorem usedSymbols_eq_singleton {freq : Table Count} {v : Byte} (h : ∀ b, Table.entry freq b ≠ 0 ↔ b = v) :
    usedSymbols freq = [v] := by
  refine List.perm_singleton.1 ((List.perm_ext_iff_of_nodup (usedSymbols_nodup freq) (List.nodup_singleton v)).2 fun b => ?_)
  rw [mem_usedSymbols, h, List.mem_singleton]

/-- The code of the one symbol of a table is the path over the synthetic root, "0" (R163). -/
theorem Derived.bits_of_single {freq : Table Count} {t : TreeRegs} {s : State} {c : CodeTable} {v : Byte}
    (hs : s.tree = buildTree freq t) (h : Derived freq s c) (hu : usedSymbols freq = [v]) : c.bits v = [false] := by
  obtain ⟨hcnt, hroot, -, hleaf, hnode⟩ := buildTree_one hu t
  rw [← hs] at hcnt hroot hleaf hnode
  obtain ⟨hnone, -⟩ | ⟨r, sh, hr, hrep, -, -, -, hcodes⟩ := h
  · cases hroot.symm.trans hnone
  · cases hroot.symm.trans hr
    have hone : Rep s.tree 1 (.one (.leaf v)) := .one (by rw [hcnt]; decide) hnode (.leaf (by rw [hcnt]; decide) hleaf)
    cases hrep.unique hone
    exact (hcodes.path v [false] (List.mem_singleton.2 rfl)).1

/-- One tree serves all the symbols of a table that has any: the one rebuilt from the table, with the codes for paths (R242). -/
theorem Derived.tree {freq : Table Count} {t t' : TreeRegs} {s : State} {c : CodeTable} (hs : s.tree = buildTree freq t)
    (h : Derived freq s c) {a : Byte} (ha : Table.entry freq a ≠ 0) :
    ∃ r sh, (buildTree freq t').root = some r ∧ Rep (buildTree freq t') r sh ∧ CodesOf sh c ∧
      ∀ b, Table.entry freq b ≠ 0 → b ∈ sh.symbols := by
  obtain ⟨r, sh, hroot, hrep, hcodes, -, -⟩ := h.follow (t' := t') hs ha
  refine ⟨r, sh, hroot, hrep, hcodes, fun b hb => ?_⟩
  obtain ⟨r', sh', hroot', hrep', -, hmem, -⟩ := h.follow (t' := t') hs hb
  cases hroot.symm.trans hroot'
  rwa [hrep.unique hrep']

end Sys2Proof.Machine
end

section
/-! PROOFS. The round trip and the container's length (`48_properties.md` rules R235, R237, R238, R241, R242). -/

namespace Sys2Proof.Machine

/-! ### A container read back -/

theorem encodeEnd_tree (o : HdrOrder) (s : State) (c : CodeTable) (io : List IOAnswer) :
    (encodeEnd o s c io).tree = buildTree (countsOf s.mem.src) (commandStart .eCount s).tree := by
  rw [encodeEnd]

/-- When `ENCODE` without failures answers next, the state is the successful end (R208). -/
theorem eq_encodeEnd_of_next {s t : State} (hb : s.status ≠ .busy) (hf : s.mem.NoFailure) (hs : s.mem.Stable)
    (hl : InLimits s.mem.src) (ht : exec .encode s = .next t) :
    ∃ c io, t = encodeEnd Config.hdrOrder s c io ∧ Derived (countsOf s.mem.src) (encodeBuilt s) c := by
  obtain ⟨c, io, hexec, hcodes⟩ := exec_encode_works hb hf hs hl
  rw [hexec] at ht
  cases ht
  exact ⟨c, io, rfl, hcodes⟩

/-- What `DECODE` from `s` has made of a container of the input: the input, its length, and the tree of its counts. -/
structure Restores (s : State) (input : List Byte) (t : State) : Prop where
  status : t.status = .done
  err : t.err = .none
  snk : t.mem.snk = input
  size : t.size = BitVec.ofNat 64 input.length
  emitted : t.emitted = BitVec.ofNat 64 input.length
  tree : t.tree = buildTree (countsOf input) (commandStart .dHeader s).tree

/-- `DECODE` of a container, whatever bytes follow it (R116, R235). -/
theorem exec_decode_container {s u : State} {input extra : List Byte} {t : TreeRegs} {c : CodeTable} (hb : s.status ≠ .busy)
    (hf : s.mem.NoFailure) (hl : InLimits input) (hu : u.tree = buildTree (countsOf input) t)
    (hcodes : Derived (countsOf input) u c) (hsrc : s.mem.src = containerOf c input ++ extra) :
    ∃ t', exec .decode s = .next t' ∧ Restores s input t' := by
  obtain ⟨t', hrun, hstatus, -, herr, hsnk, hsize, hem, htree⟩ :=
    runDecode_container Config.hdrOrder hb hf hl hu hcodes hsrc
  exact ⟨t', congrArg Res.outcome hrun, hstatus, herr, hsnk, hsize, hem, htree⟩

/-- Settles O54: `ENCODE` leaves the container under the codes derived, and `DECODE` restores its input. -/
theorem decodeUndoesEncodeCommand : Obligations.DecodeUndoesEncodeCommand := by
  unfold Obligations.DecodeUndoesEncodeCommand
  intro s s' extra hb hf hs hl hb' hf'
  obtain ⟨c, io, hexec, hcodes⟩ := exec_encode_works hb hf hs hl
  refine ⟨_, hexec, rfl, fun hsrc => ?_⟩
  obtain ⟨t', hexec', R⟩ := exec_decode_container hb' hf' hl (encodeBuilt_tree s) hcodes hsrc
  exact ⟨t', hexec', R.status, R.err, R.snk, R.emitted.trans R.size.symm, R.size⟩

/-- Settles O58: both commands build the tree from the counts of the input. -/
theorem decoderRebuildsTheTree : Obligations.DecoderRebuildsTheTree := by
  unfold Obligations.DecoderRebuildsTheTree
  intro s s' t extra hb hf hs hl ht hb' hf' hsrc
  obtain ⟨c, io, rfl, hcodes⟩ := eq_encodeEnd_of_next hb hf hs hl ht
  obtain ⟨t', hexec', R⟩ := exec_decode_container hb' hf' hl (encodeBuilt_tree s) hcodes hsrc
  refine ⟨t', hexec', ?_⟩
  rw [encodeEnd_tree, R.tree]
  exact buildTree_same ..

/-! ### The empty input and the repeated byte -/

theorem countsOf_nil : countsOf [] = Table.all 0 :=
  Table.ext_entry fun b => (countsOf_entry [] b).trans (Table.entry_all 0 b).symm

/-- The container of nothing is a header of zeros (R238). -/
theorem containerOf_nil (c : CodeTable) : containerOf c [] = headerBytes Config.hdrOrder 0 (Table.all 0) := by
  have hpayload : pack (c.encodeAll []) = [] := pack_zeros 0
  rw [containerOf, countsOf_nil, hpayload, List.append_nil, List.length_nil]
  rfl

/-- Settles O56: the container of nothing is its header, and `DECODE` of size 0 ends behind the header. -/
theorem emptyInput : Obligations.EmptyInput := by
  unfold Obligations.EmptyInput
  intro s s' hb hf hs hsrc hb' hf'
  obtain ⟨c, io, hexec, -⟩ := exec_encode_works hb hf hs (hsrc ▸ inLimits_replicate (Nat.zero_le _) 0)
  have hsnk := encodeEnd_snk s c io
  rw [hsrc, containerOf_nil] at hsnk
  refine ⟨_, hexec, rfl, hsnk, by rw [hsnk, headerBytes_length]; rfl, fun hsrc' => ?_⟩
  rw [hsnk, ← List.append_nil (headerBytes _ _ _)] at hsrc'
  exact ⟨_, exec_decode_zero hb' hf' hsrc', rfl, rfl, decodeBuilt_srcPos s' 0 (Table.all 0)⟩

/-- The payload of a container begins behind the 1036 bytes of the header (R90, R95). -/
theorem containerOf_drop (c : CodeTable) (input : List Byte) : (containerOf c input).drop 1036 = pack (c.encodeAll input) :=
  List.drop_left' (headerBytes_length ..)

/-- With the code "0" an input of one byte value takes a bit 0 for each byte. -/
theorem encodeAll_replicate {c : CodeTable} {v : Byte} (h : c.bits v = [false]) (n : Nat) :
    c.encodeAll (List.replicate n v) = List.replicate n false := by
  induction n with
  | zero => rfl
  | succ n ih => rw [List.replicate_succ, encodeAll_cons, h, ih, List.replicate_succ, List.singleton_append]

/-- Of a repeated byte, only that byte has a count (R237). -/
theorem usedSymbols_replicate {n : Nat} (hn : 1 ≤ n) (hl : n ≤ 2 ^ 32 - 1) (v : Byte) :
    usedSymbols (countsOf (List.replicate n v)) = [v] := by
  refine usedSymbols_eq_singleton fun b => ?_
  rw [countsOf_ne_zero (inLimits_replicate hl v), List.mem_replicate, and_iff_right (Nat.ne_of_gt hn)]

/-- Settles O55: the one used symbol has the code "0", so the payload is zeros, one bit a byte. -/
theorem oneRepeatedByte : Obligations.OneRepeatedByte := by
  unfold Obligations.OneRepeatedByte
  intro s s' v n hn hmax hb hf hs hsrc hb' hf'
  have hl : InLimits s.mem.src := hsrc ▸ inLimits_replicate hmax v
  obtain ⟨c, io, hexec, hcodes⟩ := exec_encode_works hb hf hs hl
  have hbits : c.bits v = [false] :=
    hcodes.bits_of_single (encodeBuilt_tree s) (by rw [hsrc, usedSymbols_replicate hn hmax])
  refine ⟨_, hexec, rfl, fun b => ?_, ?_, fun hsrc' => ?_⟩
  · rw [encodeEnd_freq, countsOf_toNat hl, hsrc, List.count_replicate]
    exact if_congr (beq_iff_eq.trans eq_comm) rfl rfl
  · rw [encodeEnd_snk, containerOf_drop, hsrc, encodeAll_replicate hbits, pack_zeros]
  · obtain ⟨t', hexec', R⟩ := exec_decode_container hb' hf' hl (encodeBuilt_tree s) hcodes (hsrc'.trans (List.append_nil _).symm)
    exact ⟨t', hexec', R.status, R.snk.trans hsrc⟩

/-! ### The length of the payload -/

/-- Bounds on the code lengths of an input's bytes bound its code bits (R241). -/
theorem encodeAll_length_bounds {c : CodeTable} {input : List Byte} {lo hi : Nat}
    (h : ∀ b ∈ input, lo ≤ (Table.entry c.len b).toNat ∧ (Table.entry c.len b).toNat ≤ hi) :
    input.length * lo ≤ (c.encodeAll input).length ∧ (c.encodeAll input).length ≤ input.length * hi := by
  rw [encodeAll_length]
  constructor
  · simpa using List.card_nsmul_le_sum (input.map fun b => (Table.entry c.len b).toNat) lo (by simpa using fun b hb => (h b hb).1)
  · simpa using List.sum_le_card_nsmul (input.map fun b => (Table.entry c.len b).toNat) hi (by simpa using fun b hb => (h b hb).2)

/-- Settles O45: the payload packs the code bits, whose number is the weighted sum, and every byte of the input has a code. -/
theorem payloadLengthIsTheWeightedSum : Obligations.PayloadLengthIsTheWeightedSum := by
  unfold Obligations.PayloadLengthIsTheWeightedSum
  intro s hb hf hs hl _
  obtain ⟨c, io, hexec, hcodes⟩ := exec_encode_works hb hf hs hl
  refine ⟨_, hexec, ?_, fun lo hi hbounds => ?_⟩
  · rw [encodeEnd_snk, encodeEnd_freq, encodeEnd_code, containerOf_length, payload_sum hl]
  · have hall := encodeAll_length_bounds (c := c) fun b hbm =>
      hbounds b ((cderive_len_ne (encodeBuilt_tree s) hcodes b).2 ((countsOf_ne_zero hl).2 hbm))
    rw [encodeEnd_snk, containerOf_length]
    omega

end Sys2Proof.Machine
end

section
/-! PROOFS. Corrupt containers and failing accesses (`48_properties.md` rules R240, R244). -/

namespace Sys2Proof.Machine

/-! ### Cut containers -/

/-- A container cut inside its payload: behind the header stand the codes of the first bytes, as many as fit, and a proper
prefix of the next byte's code (R240). -/
theorem containerOf_take (c : CodeTable) (input : List Byte) {n : Nat} (hlo : 1036 ≤ n) (hhi : n < (containerOf c input).length) :
    ∃ payload k q x p, ∃ hk : k < input.length,
      (containerOf c input).take n =
        headerBytes Config.hdrOrder (BitVec.ofNat 64 input.length) (countsOf input) ++ payload ∧
      payload.flatMap byteBits = c.encodeAll (input.take k) ++ q ∧ c.bits input[k] = q ++ x :: p ∧
      (c.encodeAll (input.take k)).length ≤ 8 * (n - 1036) ∧ 8 * (n - 1036) < (c.encodeAll (input.take (k + 1))).length := by
  rw [containerOf_length, ← pack_length] at hhi
  obtain ⟨hbits, hlt⟩ := pack_take_bits (c.encodeAll input) (m := n - 1036) (by omega)
  obtain ⟨k, q, x, p, hk, htake, hcode, hfit, hnext⟩ := encodeAll_take c input hlt
  refine ⟨(pack (c.encodeAll input)).take (n - 1036), k, q, x, p, hk, ?_, hbits.trans htake, hcode, hfit, hnext⟩
  rw [containerOf, List.take_append, headerBytes_length, List.take_of_length_le ((headerBytes_length ..).trans_le hlo)]
  rfl

/-- `DECODE` of a container cut inside its payload (R223, R240, D17). -/
theorem exec_decode_cut {s u : State} {input : List Byte} {t : TreeRegs} {c : CodeTable} {n : Nat} (hb : s.status ≠ .busy)
    (hf : s.mem.NoFailure) (hl : InLimits input) (hu : u.tree = buildTree (countsOf input) t)
    (hcodes : Derived (countsOf input) u c) (hlo : 1036 ≤ n) (hhi : n < (containerOf c input).length)
    (hsrc : s.mem.src = (containerOf c input).take n) :
    ∃ t' k, exec .decode s = .next (takeError .unexpectedEnd t') ∧ k < input.length ∧ t'.mem.snk = input.take k ∧
      (c.encodeAll (input.take k)).length ≤ 8 * (n - 1036) ∧ 8 * (n - 1036) < (c.encodeAll (input.take (k + 1))).length := by
  obtain ⟨payload, k, q, x, p, hk, hcut, hbits, hcode, hfit, hnext⟩ := containerOf_take c input hlo hhi
  have hsize : (BitVec.ofNat 64 input.length).toNat = input.length := length_toNat hl
  have hmem : ∀ b ∈ input, Table.entry (countsOf input) b ≠ 0 := fun b hbm => (countsOf_ne_zero hl).2 hbm
  obtain ⟨r, sh, hroot, hrep, C, hsymbols⟩ :=
    hcodes.tree (t' := (commandStart .dHeader s).tree) hu (hmem _ (List.getElem_mem hk))
  obtain ⟨path, hpath⟩ := Shape.exists_path (hsymbols _ (hmem _ (List.getElem_mem hk)))
  obtain rfl : path = q ++ x :: p := (C.path _ _ hpath).1.symm.trans hcode
  obtain ⟨g, f, l, rr, hfollow, hnode⟩ := hrep.follow_prefix hpath
  obtain ⟨t', hrun, hsnk⟩ := runDecode_short Config.hdrOrder hb hf (hsrc.trans hcut)
    (BitVec.toNat_ne.2 (hsize.trans_ne (Nat.ne_zero_of_lt hk))) hroot ((input.take k).map fun b => (b, c.bits b))
    (by rw [hbits, List.flatMap_map]; rfl)
    (by
      intro y hy
      obtain ⟨b, hbm, rfl⟩ := List.mem_map.1 hy
      exact codes_follow hrep C (hsymbols b (hmem b (List.mem_of_mem_take hbm))))
    hfollow hnode (by rw [List.length_map, List.length_take, hsize]; omega)
  refine ⟨t', k, congrArg Res.outcome hrun, hk, ?_, hfit, hnext⟩
  rw [hsnk, List.map_map]
  exact List.map_id _

/-- Settles O57: without the magic, or with fewer bytes than a header, the raise stands before any write; in a cut payload
the walk stops inside the first code that does not fit. -/
theorem corruptContainersAreRejected : Obligations.CorruptContainersAreRejected := by
  unfold Obligations.CorruptContainersAreRejected
  refine ⟨fun s hb hf hm => ?_, fun s hb hf hm hlt => ?_, fun s s' t n hb hf hs hl ht hb' hf' hlo hhi hsrc => ?_⟩
  · exact ⟨_, congrArg Res.outcome (runDecode_badMagic Config.hdrOrder hb hf hm), rfl, rfl, rfl⟩
  · obtain ⟨z, f, k, hrun⟩ := runDecode_truncated Config.hdrOrder hb hf hm hlt
    exact ⟨_, congrArg Res.outcome hrun, rfl, rfl, rfl⟩
  · obtain ⟨c, io, rfl, hcodes⟩ := eq_encodeEnd_of_next hb hf hs hl ht
    obtain ⟨t', k, hexec, hk, hsnk, hfit, hnext⟩ :=
      exec_decode_cut hb' hf' hl (encodeBuilt_tree s) hcodes hlo hhi hsrc
    exact ⟨_, k, hexec, rfl, rfl, hk, hsnk, hfit, hnext⟩

/-! ### All or nothing -/

/-- Every run of `ENCODE` without failures leaves the container under codes derived from the input's counts anywhere (R236). -/
theorem snk_eq_containerOf {u v w : State} {input : List Byte} {t : TreeRegs} {c : CodeTable} (hb : u.status ≠ .busy)
    (hf : u.mem.NoFailure) (hs : u.mem.Stable) (hl : InLimits input) (hsrc : u.mem.src = input) (hv : exec .encode u = .next v)
    (hw : w.tree = buildTree (countsOf input) t) (hcodes : Derived (countsOf input) w c) : v.mem.snk = containerOf c input := by
  subst hsrc
  obtain ⟨c', io, rfl, hcodes'⟩ := eq_encodeEnd_of_next hb hf hs hl hv
  exact hcodes'.containerOf_eq (encodeBuilt_tree u) hw hcodes

/-- Settles O59: the ends of the two commands, whatever the accesses answer; a run without failures leaves the container
that the sink of every run is a prefix of. -/
theorem commandsSucceedOrFailOutright : Obligations.CommandsSucceedOrFailOutright := by
  unfold Obligations.CommandsSucceedOrFailOutright
  refine ⟨fun s hb hl => ?_, fun s hb hs hl => ?_, fun s hb => ?_⟩
  · obtain ⟨t, hexec, ⟨-, hdone⟩ | ⟨e, u, -, rfl⟩⟩ := (runEncode_ends Config.hdrOrder hb hl).ends
    · exact ⟨t, hexec, .inl hdone⟩
    · exact ⟨_, hexec, .inr ⟨rfl, rfl⟩⟩
  · obtain ⟨c, hcodes, hrun⟩ := runEncode_does Config.hdrOrder hb hs hl
    have hfull : ∀ u v : State, u.status ≠ .busy → u.mem.NoFailure → u.mem.Stable → u.mem.src = s.mem.src →
        exec .encode u = .next v → v.mem.snk = containerOf c s.mem.src := fun u v hbu hfu hsu hsrc hv =>
      snk_eq_containerOf hbu hfu hsu hl hsrc hv (encodeBuilt_tree s) hcodes
    obtain ⟨t, hexec, ⟨-, hstatus, hphase, herr, -, -, rfl, hsnk⟩ | ⟨e, u, ⟨rfl, hprefix⟩, rfl⟩⟩ := hrun.ends
    · have hlen : t.mem.snk.length = _ := (congrArg List.length hsnk).trans (containerOf_length t.code s.mem.src)
      exact ⟨t, hexec, .inl ⟨hstatus, hphase, herr, hsnk, hlen⟩, fun u v hbu hfu hsu hsrc hv =>
        hsnk ▸ hfull u v hbu hfu hsu hsrc hv ▸ List.prefix_rfl⟩
    · exact ⟨_, hexec, .inr ⟨rfl, rfl, rfl⟩, fun u v hbu hfu hsu hsrc hv => hfull u v hbu hfu hsu hsrc hv ▸ hprefix⟩
  · obtain ⟨t, hexec, ⟨-, hstatus, hphase, herr, hem, hlen⟩ | ⟨e, u, ⟨hlen, he⟩, rfl⟩⟩ :=
      (runDecode_does Config.hdrOrder hb).ends
    · exact ⟨t, hexec, hlen.le, .inl ⟨hstatus, hphase, herr, hlen, hem⟩⟩
    · refine ⟨_, hexec, hlen, .inr ⟨rfl, rfl, ?_⟩⟩
      obtain (rfl | rfl | rfl) | ⟨rfl | rfl | rfl, -⟩ := he <;> exact nofun

end Sys2Proof.Machine
end

section
/-! PROOFS. Taking an error, and where a later access fails (`60_exceptions.md` rules R251, R256). -/

namespace Sys2Proof.Machine

/-! ### A raise -/

/-- Settles O11: a raise is `takeError`, which nothing follows; every internal operation is one that keeps the three
registers where it returns and ends in `takeError` where it raises (`exec_keep`, `Res.Keep.control`). -/
theorem raiseTakesTheError : Obligations.RaiseTakesTheError := by
  unfold Obligations.RaiseTakesTheError
  refine ⟨fun _ _ _ => rfl, fun i s t hi ht => ?_⟩
  obtain ⟨_, r, hkeep, hexec⟩ | hrefused := exec_keep hi s
  · exact hkeep.control (hexec.symm.trans ht)
  · cases hrefused.symm.trans ht

/-! ### A later access fails -/

/-- `EMITTED` counts the symbols of the paths walked while there are more to come (R219). -/
theorem Walked.emitted_of_paths {s t : State} {root : Handle} {ps : List (Byte × List Bool)}
    (h : Walked { s with cur := root, emitted := 0 } t (ps.map Prod.fst)) (hs : ps.length < s.size.toNat) :
    t.emitted.toNat = ps.length := by
  rw [walked_emitted h (by rwa [List.length_map]), List.length_map]

/-- A stretch of the walk pulls the bytes that its bits need and no further one (R184, R219). -/
theorem Stretch.srcPos_of_bits {s t : State} {c r : Nat} {v : List Byte} (h : Stretch s t c v r) :
    t.mem.srcPos = s.mem.srcPos + (c + 7 - s.brN.val) / 8 := h.reads ▸ h.srcPos

/-- Settles O60: behind the accesses that work, `EEMIT` stands at a read (`eemit_read_fails`) or at the write of a full byte
(`eemit_write_fails`), `DWALK` at the write of a symbol (`dwalk_write_fails`) or at the read of a payload byte
(`dwalk_read_fails`); the raise there keeps what was done before. -/
theorem laterFailingAccessEndsThePass : Obligations.LaterFailingAccessEndsThePass := by
  unfold Obligations.LaterFailingAccessEndsThePass
  refine ⟨fun s l tail k hw hin hcodes hfails => ?_, fun s l tail b m k hw hin hcodes hlo hhi hfails => ?_,
    fun s root g ps p rest b f k hroot hbits hpaths hfollow hnode hsize hfails => ?_,
    fun s root g ps q rest f l r reads k hroot hbits hpaths hfollow hnode hsize hused hfails => ?_⟩
  · exact ⟨_, congrArg Res.outcome (eemit_read_fails hfails hw hin hcodes), Nat.zero_add _, rfl, rfl,
      afterBits_pending _ _, rfl⟩
  · obtain ⟨acc, n, d, io, hrun⟩ := eemit_write_fails hfails hw hin hcodes hlo hhi
    exact ⟨_, congrArg Res.outcome hrun, rfl, rfl, rfl, rfl⟩
  · obtain ⟨t, r, hrun, hwalk, hcur, hrest⟩ := dwalk_write_fails hroot ps hfails hbits hpaths hfollow hnode hsize
    exact ⟨_, congrArg Res.outcome hrun, congrArg (· ++ [b].take k) hwalk.walked.snk, hwalk.walked.emitted_of_paths hsize, hcur,
      hrest, hwalk.srcPos_of_bits, hwalk.walked.frame⟩
  · obtain ⟨t, hrun, hwalk, hcur, hempty, hrest⟩ :=
      dwalk_read_fails hroot ps hused hfails hbits hpaths hfollow hnode hsize
    exact ⟨_, congrArg Res.outcome hrun, hwalk.walked.snk, hwalk.walked.emitted_of_paths hsize, hcur, hempty, hrest,
      hwalk.srcPos, hwalk.walked.frame⟩

end Sys2Proof.Machine
end

section
/-! PROOFS. The step of the machine: host actions, the invariant, the phases of a running command (`10_state.md` rules R33, R41,
`30_encoding.md` rules R111 to R114, `70_reset_and_hazards.md` rules R282, R287, R288). -/

namespace Sys2Proof.Machine

/-! ### Host actions -/

/-- While `BUSY` only a wait is no offence against the protocol (R114, R288, log 14). -/
theorem hostAct_busy {s : State} (hb : s.status = .busy) {a : HostAction} (ha : a ≠ .wait) :
    hostAct a s = .fault .hostProtocol := by
  cases a with
  | wait => exact absurd rfl ha
  | attach _ _ _ | runCmd _ | writeCmd _ | operate _ => exact if_pos hb

theorem step_attach {s : State} (hb : s.status ≠ .busy) (src : List Byte) (rewound : Option (List Byte)) (io : List IOAnswer)
    (tail : List HostAction) : step { s with host := .attach src rewound io :: tail } =
      .next { s with host := tail, mem := freshStreams src rewound io } := if_neg hb

theorem step_runCmd {s : State} (hb : s.status ≠ .busy) (w : Byte) (tail : List HostAction) :
    step { s with host := .runCmd w :: tail } = runCmd w { s with host := tail } := if_neg hb

theorem step_wait {s : State} (hb : s.status ≠ .busy) (tail : List HostAction) :
    step { s with host := .wait :: tail } = .next { s with host := tail } := if_neg hb

theorem step_operate {s : State} (hb : s.status ≠ .busy) (word : List Byte) (tail : List HostAction) :
    step { s with host := .operate word :: tail } = operate word { s with host := tail } := if_neg hb

theorem step_idle {s : State} (hb : s.status ≠ .busy) (hh : s.host = []) : step s = .next s := by
  rw [step, hh]
  exact if_neg hb

/-- A running command takes a step of its sequencer, whether the host waits or has nothing more to do (logs 3, 14). -/
theorem step_busy {s : State} (hb : s.status = .busy) (hh : s.host = [] ∨ ∃ tail, s.host = .wait :: tail) :
    step s = sequence s := by
  obtain hh | ⟨tail, hh⟩ := hh
  · rw [step, hh]
    exact if_pos hb
  · rw [step, hh]
    exact (if_pos hb).trans (congrArg sequence (by rw [← hh]))

theorem operate_ok {word rest : List Byte} {i : Instr} (h : decode word = .ok (i, rest)) (s : State) :
    operate word s = exec i s := by rw [operate, h]

theorem operate_error {word : List Byte} {e : DecodeError} (h : decode word = .error e) (s : State) :
    operate word s = .refused (.noOperation word) := by rw [operate, h]

theorem decodeCmd_reserved {w : Byte} (h1 : w ≠ 0x01) (h2 : w ≠ 0x02) : decodeCmd w = none := by
  rw [decodeCmd, if_neg h1, if_neg h2]

theorem writeCmd_reserved {w : Byte} (h1 : w ≠ 0x01) (h2 : w ≠ 0x02) (s : State) : writeCmd w s = takeError .usage s := by
  rw [writeCmd, decodeCmd_reserved h1 h2]

theorem runCmd_reserved {w : Byte} (h1 : w ≠ 0x01) (h2 : w ≠ 0x02) (s : State) :
    runCmd w s = .next (takeError .usage s) := by
  rw [runCmd, decodeCmd_reserved h1 h2]

/-- The next step of a state prepared for an opcode-table word runs that word's operation (logs 4, 5, 20). -/
theorem step_withFetchWord {s : State} (hb : s.status ≠ .busy) {nbits w : Nat} {i : Instr}
    (h : decodeTableWord nbits w = some i) : step (s.withFetchWord nbits w) = exec i s := by
  have hdecode : ∃ rest, decode (tableBytes nbits w) = .ok (i, rest) := by
    rw [decodeTableWord] at h
    split at h
    next j rest hd => cases h; exact ⟨rest, hd⟩
    next => cases h
  obtain ⟨rest, hdecode⟩ := hdecode
  rw [State.withFetchWord, h]
  cases i with
  | encode => exact step_runCmd hb 0x01 s.host
  | decode => exact step_runCmd hb 0x02 s.host
  | _ => exact (step_operate hb _ s.host).trans (operate_ok hdecode s)

/-- Settles O5: one equation of `step` per host action while no command runs, and the sequencer while one does. -/
theorem stepRunsTheOperation : Obligations.StepRunsTheOperation := by
  unfold Obligations.StepRunsTheOperation
  refine ⟨fun s hb => ⟨fun i word rest tail hd => ?_, step_runCmd hb 0x01, step_runCmd hb 0x02,
    fun nbits w i => step_withFetchWord hb, step_attach hb, step_wait hb, fun word e tail hd => ?_, step_idle hb⟩,
    fun s t i hb hh hi ht => ?_⟩
  · exact (step_operate hb word tail).trans (operate_ok hd _)
  · exact (step_operate hb word tail).trans (operate_error hd _)
  · rw [step_busy hb hh, sequence, hi]
    simp only [ht]

/-- Settles O6: `CMD` decodes no reserved word, and both ways of writing it then take the usage error. -/
theorem reservedCommandWordIsUsageError : Obligations.ReservedCommandWordIsUsageError := by
  unfold Obligations.ReservedCommandWordIsUsageError
  intro s w tail hb h1 h2
  exact ⟨(step_runCmd hb w tail).trans (runCmd_reserved h1 h2 _),
    (step_writeCmd hb w tail).trans (congrArg _ (writeCmd_reserved h1 h2 _))⟩

/-- A command does not start while one runs (R114, log 14). -/
theorem startCommand_busy {s : State} (hb : s.status = .busy) (p : Phase) : startCommand p s = .fault .hostProtocol := if_pos hb

theorem startCommand_idle {s : State} (hb : s.status ≠ .busy) (p : Phase) : startCommand p s = .ok () (commandStart p s) :=
  if_neg hb

theorem exec_encode_busy {s : State} (hb : s.status = .busy) : exec .encode s = .fault .hostProtocol := by
  rw [exec, execEncode, runEncode, startCommand_busy hb]
  rfl

theorem exec_decode_busy {s : State} (hb : s.status = .busy) : exec .decode s = .fault .hostProtocol := by
  rw [exec, execDecode, runDecode, startCommand_busy hb]
  rfl

/-- Settles O7: the step by `hostAct_busy`, the two commands at their start. -/
theorem hostActionWhileBusyHasNoStep : Obligations.HostActionWhileBusyHasNoStep := by
  unfold Obligations.HostActionWhileBusyHasNoStep
  intro s a tail hb ha
  exact ⟨hostAct_busy (s := { s with host := tail }) hb ha, exec_encode_busy hb, exec_decode_busy hb⟩

/-- Settles O2: the tables of codes are those of `Status.code`, `Phase.code` and `Err.code`, entry by entry. -/
theorem hostReadsTheCodes : Obligations.HostReadsTheCodes := by
  unfold Obligations.HostReadsTheCodes
  intro s
  have hstatus {c : Status} (h : s.status = c) : hostRead .status s = c.code.setWidth 64 := by rw [← h]; rfl
  refine ⟨hstatus, hstatus, hstatus, hstatus, rfl, rfl, ?_, ?_⟩
  · intro p c hmem hp
    have hcode : c = p.code.setWidth 64 := by
      fin_cases hmem <;> rfl
    rw [hcode, ← hp]
    rfl
  · intro e c hmem he
    have hcode : c = e.code.setWidth 64 := by
      fin_cases hmem <;> rfl
    rw [hcode, ← he]
    rfl

/-! ### What a step does -/

/-- What a step that answers a next state has done: a phase of the running command, or, with none running, nothing or the next
host action (R282, R287, R288, logs 3, 4). -/
inductive StepCase (s t : State) : Prop where
  | phase (busy : s.status = .busy) (run : sequence s = .next t)
  | idle (ready : s.status ≠ .busy) (tail : List HostAction) (next : t = { s with host := tail })
  | attach (ready : s.status ≠ .busy) (src : List Byte) (rewound : Option (List Byte)) (io : List IOAnswer)
      (tail : List HostAction) (next : t = { s with host := tail, mem := freshStreams src rewound io })
  | runCmd (w : Byte) (tail : List HostAction) (action : s.host = .runCmd w :: tail)
      (run : Machine.runCmd w { s with host := tail } = .next t)
  | writeCmd (ready : s.status ≠ .busy) (w : Byte) (tail : List HostAction)
      (next : t = Machine.writeCmd w { s with host := tail })
  | operate (word : List Byte) (tail : List HostAction) (action : s.host = .operate word :: tail)
      (run : Machine.operate word { s with host := tail } = .next t)

/-- Everything a step can do. -/
theorem step_cases {s t : State} (h : step s = .next t) : StepCase s t := by
  cases hh : s.host with
  | nil =>
    by_cases hb : s.status = .busy
    · exact .phase hb ((step_busy hb (.inl hh)).symm.trans h)
    · rw [step_idle hb hh] at h
      cases h
      exact .idle hb s.host rfl
  | cons a tail =>
    have hs : step { s with host := a :: tail } = .next t := by rwa [← hh]
    by_cases hb : s.status = .busy
    · by_cases ha : a = .wait
      · exact .phase hb ((step_busy hb (.inr ⟨tail, ha ▸ hh⟩)).symm.trans h)
      · cases (hostAct_busy (s := { s with host := tail }) hb ha).symm.trans hs
    · cases a with
      | attach src rewound io =>
        cases (step_attach hb src rewound io tail).symm.trans hs
        exact .attach hb src rewound io tail rfl
      | runCmd w => exact .runCmd w tail hh ((step_runCmd hb w tail).symm.trans hs)
      | writeCmd w => cases (step_writeCmd hb w tail).symm.trans hs; exact .writeCmd hb w tail rfl
      | wait => cases (step_wait hb tail).symm.trans hs; exact .idle hb tail rfl
      | operate word => exact .operate word tail hh ((step_operate hb word tail).symm.trans hs)

/-! ### The invariant -/

/-- Settles O3: the empty streams, no tree, an empty buffer. -/
theorem resetMeetsTheInvariant : Obligations.ResetMeetsTheInvariant := by
  unfold Obligations.ResetMeetsTheInvariant
  refine ⟨by decide, Memory.wf_reset, ⟨rfl, Nat.zero_le _, nofun⟩, fun _ i _ => ?_⟩
  exact BitVec.getLsbD_zero

theorem writeCmd_inv {s : State} (h : s.Inv) (w : Byte) : (writeCmd w s).Inv := by
  by_cases hw : w = 0x01 ∨ w = 0x02
  · rw [writeCmd_command hw]
    refine (commandStart_running ?_ s).1
    split <;> rfl
  · rw [not_or] at hw
    rw [writeCmd_reserved hw.1 hw.2]
    exact takeError_inv nofun h

theorem runCmd_inv {w : Byte} {s t : State} (h : s.Inv) (ht : runCmd w s = .next t) : t.Inv := by
  rw [runCmd] at ht
  split at ht
  · exact exec_inv h ht
  · cases ht
    exact takeError_inv nofun h

theorem operate_inv {word : List Byte} {s t : State} (h : s.Inv) (ht : operate word s = .next t) : t.Inv := by
  rw [operate] at ht
  split at ht
  · exact exec_inv h ht
  · cases ht

/-- Settles O4: the sequencer, the commands and every operation keep the invariant, and so do the host's other actions. -/
theorem stepKeepsTheInvariant : Obligations.StepKeepsTheInvariant := by
  unfold Obligations.StepKeepsTheInvariant
  intro s t h ht
  cases step_cases ht with
  | phase busy run => exact sequence_inv h busy run
  | idle _ tail next => exact next ▸ inv_host tail h
  | attach _ src rewound io tail next => exact next ▸ ⟨h.control, Memory.wf_fresh src rewound io, h.tree, h.writer⟩
  | runCmd w tail _ run => exact runCmd_inv (inv_host tail h) run
  | writeCmd _ w tail next => exact next ▸ writeCmd_inv (inv_host tail h) w
  | operate word tail _ run => exact operate_inv (inv_host tail h) run

/-! ### The moves of `PHASE` -/

theorem advance_phase (s : State) : (advance s).phase = nextPhase s.size s.phase := by
  rw [advance]
  split
  next h => exact h.symm
  next => rfl

/-- A phase moves on along its pipeline (R41, R217). -/
theorem phaseMove_nextPhase (size : Size) {p : Phase} (hp : p.working = true) : PhaseMove size p (nextPhase size p) := by
  cases p with
  | idle | done | fault => cases hp
  | eBuild | eDerive => rfl
  | dBuild =>
    by_cases hz : size = 0
    · rw [nextPhase, if_pos hz]; exact .inr ⟨rfl, hz⟩
    · rw [nextPhase, if_neg hz]; exact .inl ⟨rfl, hz⟩
  | eCount | eHeader | eEmit | eFlush | dHeader | dWalk => exact .inl rfl

/-- With no command running, `PHASE` goes where a write of `CMD` sends it (R41, R113). -/
theorem phaseMove_resting (size : Size) {p q : Phase} (hp : p.working = false)
    (hq : q = .eCount ∨ q = .dHeader ∨ q = .fault) : PhaseMove size p q := by
  cases p with
  | idle | done | fault => exact hq
  | _ => cases hp

/-- When `CDERIVE` answers a next state, it has written the code table only (R161). -/
theorem exec_cderive_next {s t : State} (h : exec .cderive s = .next t) : ∃ c, t = { s with code := c } := by
  obtain ⟨c, hc⟩ | hc := cderive_cases s <;> cases (congrArg Res.outcome hc).symm.trans h
  exact ⟨c, rfl⟩

/-- The operation of a phase leaves `PHASE`, and `SIZE` where the move depends on it, or raises where an error may be raised. -/
theorem phaseOp_next {s t : State} {i : Instr} (hi : phaseOp s.phase = some i) (ht : exec i s = .next t) :
    (t.phase = s.phase ∧ nextPhase t.size s.phase = nextPhase s.size s.phase) ∨
      (t.phase = .fault ∧ PhaseMove s.size s.phase .fault) := by
  obtain ⟨r, hkeep, hexec⟩ := phaseOp_keep hi s
  have hphase : t.phase = s.phase ∨ t.phase = .fault := (hkeep.control (hexec.symm.trans ht)).imp (·.2.2) (·.2.2)
  cases hp : s.phase with rw [hp] at hi hphase
  | idle | done | fault => cases hi
  | eBuild | dBuild => cases hi; cases ht; exact .inl ⟨hp, rfl⟩
  | eDerive =>
    cases hi
    obtain ⟨c, rfl⟩ := exec_cderive_next ht
    exact .inl ⟨hp, rfl⟩
  | eCount | eHeader | eEmit | eFlush | dHeader | dWalk => exact hphase.imp (⟨·, rfl⟩) (⟨·, .inr rfl⟩)

theorem sequence_phaseMove {s t : State} (h : sequence s = .next t) :
    t.phase = s.phase ∨ PhaseMove s.size s.phase t.phase := by
  obtain ⟨-, rfl⟩ | ⟨i, u, hi, hexec, ⟨-, hfault, rfl⟩ | ⟨hne, rfl⟩⟩ := sequence_cases h
  · exact .inl rfl
  · obtain ⟨hp, -⟩ | ⟨hp, hmove⟩ := phaseOp_next hi hexec
    · exact .inl hp
    · exact .inr (hp ▸ hmove)
  · obtain ⟨hp, hnext⟩ | ⟨hp, -⟩ := phaseOp_next hi hexec
    · rw [advance_phase, hp, hnext]
      exact .inr (phaseMove_nextPhase s.size (phaseOp_working.2 ⟨i, hi⟩))
    · exact absurd hp hne

theorem writeCmd_phase (w : Byte) (s : State) :
    (writeCmd w s).phase = .eCount ∨ (writeCmd w s).phase = .dHeader ∨ (writeCmd w s).phase = .fault := by
  by_cases h1 : w = 0x01
  · rw [writeCmd_command (.inl h1), if_pos h1]
    exact .inl rfl
  · by_cases h2 : w = 0x02
    · rw [writeCmd_command (.inr h2), if_neg h1]
      exact .inr (.inl rfl)
    · rw [writeCmd_reserved h1 h2]
      exact .inr (.inr rfl)

/-- Settles O9: a phase of a command moves along its pipeline or faults; a host that does neither run a command nor drive an
operation leaves `PHASE`, but for a write of `CMD`, which meets a resting phase by the invariant. -/
theorem phaseMovesAlongThePipelines : Obligations.PhaseMovesAlongThePipelines := by
  unfold Obligations.PhaseMovesAlongThePipelines
  intro s t h hrun hop ht
  cases step_cases ht with
  | phase _ run => exact sequence_phaseMove run
  | idle _ tail next | attach _ _ _ _ tail next => exact .inl (next ▸ rfl)
  | runCmd w tail action _ => exact absurd action (hrun w tail)
  | operate word tail action _ => exact absurd action (hop word tail)
  | writeCmd ready w tail next =>
    obtain ⟨hbusy, -⟩ := h.control
    have hresting : s.phase.working = false := Bool.eq_false_iff.2 fun hw => ready (hbusy.2 hw)
    exact .inr (phaseMove_resting s.size hresting (next ▸ writeCmd_phase w _))

/-! ### The phases make up the commands -/

/-- A command runs in the given phase, and the host has nothing more to do. -/
structure InPhase (p : Phase) (s : State) : Prop where
  busy : s.status = .busy
  host : s.host = []
  phase : s.phase = p

theorem InPhase.keeps {p : Phase} {s t : State} (h : InPhase p s) (k : Keeps s t) : InPhase p t :=
  ⟨k.status.trans h.busy, k.host.trans h.host, k.phase.trans h.phase⟩

theorem InPhase.go {p : Phase} {s : State} (h : InPhase p s) (q : Phase) : InPhase q (goPhase q s) := ⟨h.busy, h.host, rfl⟩

/-- Where the operation of the phase returns, `PHASE` moves and the run goes on from the next phase (R41). -/
theorem InPhase.run {p : Phase} {i : Instr} {s : State} {r : Res Unit} {K : Unit → State → Res Unit} (k : Nat)
    (h : InPhase p s) (hi : phaseOp p = some i) (hr : r.Keep s) (he : exec i s = r.outcome)
    (hK : ∀ t, InPhase p t → Host.Core.run core k (advance t) = (K () t).outcome) :
    Host.Core.run core (k + 1) s = (r.bind K).outcome :=
  run_phase k h.busy h.host (h.phase ▸ hi) hr he fun t ht => hK t (h.keeps ht)

theorem InPhase.advance {p : Phase} {t : State} (h : InPhase p t) (q : Phase) (hnext : nextPhase t.size p = q)
    (hq : q ≠ .done) : Machine.advance t = goPhase q t := by
  rw [Machine.advance, h.phase, hnext]
  cases q with
  | done => exact absurd rfl hq
  | _ => rfl

theorem InPhase.finish {p : Phase} {t : State} (h : InPhase p t) (hnext : nextPhase t.size p = .done) :
    Machine.advance t = finishCommand t := by
  rw [Machine.advance, h.phase, hnext]

/-- The six phases of `ENCODE` in order (R200). -/
theorem run_encode_phases {s : State} (h : InPhase .eCount s) : Host.Core.run core 6 s =
    ((fcount s).bind fun _ s =>
      (tbuild (goPhase .eBuild s)).bind fun _ s =>
      (cderive (goPhase .eDerive s)).bind fun _ s =>
      (hwrite Config.hdrOrder (goPhase .eHeader s)).bind fun _ s =>
      (eemit (goPhase .eEmit s)).bind fun _ s =>
      (bwflush (goPhase .eFlush s)).bind fun _ s => .ok () (finishCommand s)).outcome := by
  refine h.run 5 rfl (fcount_keep _) rfl fun s h => ?_
  rw [h.advance .eBuild rfl nofun]
  refine (h.go .eBuild).run 4 rfl (tbuild_keep _) rfl fun s h => ?_
  rw [h.advance .eDerive rfl nofun]
  refine (h.go .eDerive).run 3 rfl (cderive_keep _) rfl fun s h => ?_
  rw [h.advance .eHeader rfl nofun]
  refine (h.go .eHeader).run 2 rfl (hwrite_keep _ _) rfl fun s h => ?_
  rw [h.advance .eEmit rfl nofun]
  refine (h.go .eEmit).run 1 rfl (eemit_keep _) rfl fun s h => ?_
  rw [h.advance .eFlush rfl nofun]
  refine (h.go .eFlush).run 0 rfl (bwflush_keep _) rfl fun s h => ?_
  rw [h.finish rfl]
  rfl

/-- The phases of `DECODE` in order, two of them when `SIZE = 0` (R215, R217). -/
theorem run_decode_phases {s : State} (h : InPhase .dHeader s) : Host.Core.run core 3 s =
    ((hread Config.hdrOrder s).bind fun _ s =>
      (tbuild (goPhase .dBuild s)).bind fun _ s =>
      if s.size = 0 then .ok () (finishCommand s)
      else (dwalk (goPhase .dWalk s)).bind fun _ s => .ok () (finishCommand s)).outcome := by
  refine h.run 2 rfl (hread_keep _ _) rfl fun s h => ?_
  rw [h.advance .dBuild rfl nofun]
  refine (h.go .dBuild).run 1 rfl (tbuild_keep _) rfl fun s h => ?_
  by_cases hz : s.size = 0
  · rw [h.finish (if_pos hz), if_pos hz]
    exact run_idle 1 h.host nofun
  · rw [h.advance .dWalk (if_neg hz) nofun, if_neg hz]
    refine (h.go .dWalk).run 0 rfl (dwalk_keep _) rfl fun s h => ?_
    rw [h.finish rfl]
    rfl

/-- A run that begins with a write of `CMD` goes on from the state that the write leaves. -/
theorem run_writeCmd {s : State} (hb : s.status ≠ .busy) (w : Byte) (k : Nat) :
    Host.Core.run core (k + 1) { s with host := [.writeCmd w] } = Host.Core.run core k (writeCmd w { s with host := [] }) :=
  run_next core k (step_writeCmd hb w [])

theorem run_writeCmd_busy {s : State} (hb : s.status = .busy) (w : Byte) (k : Nat) :
    Host.Core.run core (k + 1) { s with host := [.writeCmd w] } = .fault .hostProtocol :=
  run_fault core k (hostAct_busy (s := { s with host := [] }) (a := .writeCmd w) hb nofun)

/-- Settles O10: each phase step runs its operation and moves `PHASE`, as the lines of the command do. -/
theorem phaseStepsMakeUpTheCommands : Obligations.PhaseStepsMakeUpTheCommands := by
  unfold Obligations.PhaseStepsMakeUpTheCommands
  intro s
  by_cases hb : s.status = .busy
  · exact ⟨(run_writeCmd_busy hb _ 6).trans (exec_encode_busy (s := { s with host := [] }) hb).symm,
      (run_writeCmd_busy hb _ 3).trans (exec_decode_busy (s := { s with host := [] }) hb).symm⟩
  · have hstart (p : Phase) : startCommand p { s with host := [] } = .ok () (commandStart p { s with host := [] }) :=
      if_neg hb
    constructor
    · rw [run_writeCmd hb, exec, execEncode, runEncode, hstart]
      exact run_encode_phases ⟨rfl, rfl, rfl⟩
    · rw [run_writeCmd hb, exec, execDecode, runDecode, hstart]
      exact run_decode_phases ⟨rfl, rfl, rfl⟩

end Sys2Proof.Machine
end

section
/-! PROOFS. Operation words (`30_encoding.md` rules R110, R111, log 5). -/

namespace Sys2Proof

/-- The id of an operation is the number of its first byte (R110). -/
theorem eq_id_of_toNat {w : Byte} {i : Instr} (h : w.toNat = i.id.toNat) : w = i.id.setWidth 8 := by
  apply BitVec.eq_of_toNat_eq
  rw [h, BitVec.toNat_setWidth, Nat.mod_eq_of_lt (by omega)]

/-- Settles O16: each word is a literal, which `decode` evaluates. -/
theorem wordsDecodeToTheirOperations : Obligations.WordsDecodeToTheirOperations := by
  unfold Obligations.WordsDecodeToTheirOperations
  exact ⟨rfl, rfl, rfl, rfl, rfl, rfl, rfl, rfl, rfl, rfl, rfl, rfl, rfl, rfl⟩

/-- Settles O17, operation by operation. -/
theorem decodeUndoesEncode : Obligations.DecodeUndoesEncode := by
  unfold Obligations.DecodeUndoesEncode
  intro i rest hi
  cases i with
  | encode => exact Laws.RoundTrip.encode hi rest
  | decode => exact Laws.RoundTrip.decode hi rest
  | fcount => exact Laws.RoundTrip.fcount hi rest
  | tbuild => exact Laws.RoundTrip.tbuild hi rest
  | cderive => exact Laws.RoundTrip.cderive hi rest
  | bwbit b => exact Laws.RoundTrip.bwbit b hi rest
  | bwbits p n => exact Laws.RoundTrip.bwbits p n hi rest
  | bwflush => exact Laws.RoundTrip.bwflush hi rest
  | brbit => exact Laws.RoundTrip.brbit hi rest
  | hwrite => exact Laws.RoundTrip.hwrite hi rest
  | hread => exact Laws.RoundTrip.hread hi rest
  | eemit => exact Laws.RoundTrip.eemit hi rest
  | dwalk => exact Laws.RoundTrip.dwalk hi rest

/-- The operand bytes that `BWBIT` takes are those it is encoded with (log 5). -/
theorem eq_encode_of_decodeBit {word rest : List Byte} {i : Instr} (h : decodeBit word = .ok (i, rest)) :
    0x06 :: word = encode i ++ rest ∧ WellFormed i = true := by
  cases word with
  | nil => cases h
  | cons b tail =>
    rw [decodeBit] at h
    split_ifs at h with h0 h1 <;> cases h
    · exact ⟨by rw [h0]; rfl, rfl⟩
    · exact ⟨by rw [h1]; rfl, rfl⟩

/-- The operand bytes that `BWBITS` takes are those it is encoded with (log 5). -/
theorem eq_encode_of_decodeBits {word rest : List Byte} {i : Instr} (h : decodeBits word = .ok (i, rest)) :
    0x07 :: word = encode i ++ rest ∧ WellFormed i = true := by
  cases word with
  | nil => cases h
  | cons n tail =>
    simp only [decodeBits] at h
    split_ifs at h with hlen hp
    cases h
    have htake : (tail.take 32).length = 32 := List.length_take_of_le (not_lt.1 hlen)
    have hpattern : bytesLE 32 (BitVec.ofNat 255 (ofBytesLE (tail.take 32))).toNat = tail.take 32 := by
      rw [BitVec.toNat_ofNat, Nat.mod_eq_of_lt hp]
      have h := bytesLE_ofBytesLE (tail.take 32)
      rwa [htake] at h
    refine ⟨?_, decide_eq_true (Nat.le_of_lt_succ n.isLt)⟩
    show 0x07 :: n :: tail = 0x07 :: BitVec.ofNat 8 n.toNat :: (bytesLE 32 _ ++ tail.drop 32)
    rw [hpattern, List.take_append_drop, BitVec.ofNat_toNat, BitVec.setWidth_eq]

/-- What decodes is the encoding of a well-formed operation. -/
theorem eq_encode_of_decode {word rest : List Byte} {i : Instr} (h : decode word = .ok (i, rest)) :
    word = encode i ++ rest ∧ WellFormed i = true := by
  cases word with
  | nil => cases h
  | cons w tail =>
    rw [decode] at h
    split at h
    case h_6 hw => exact eq_id_of_toNat (i := .bwbit true) hw ▸ eq_encode_of_decodeBit h
    case h_7 hw => exact eq_id_of_toNat (i := .bwbits 0 0) hw ▸ eq_encode_of_decodeBits h
    case h_14 => cases h
    all_goals
      next hw =>
        cases h
        exact ⟨congrArg (· :: rest) (eq_id_of_toNat hw), rfl⟩

/-- First bytes that are no id are refused by name (R110). -/
theorem decode_reserved {w : Byte} (hw : w = 0 ∨ 0x0E ≤ w) (rest : List Byte) :
    decode (w :: rest) = .error (.reservedId w) := by
  have hnat : w.toNat = 0 ∨ 14 ≤ w.toNat := hw.imp (congrArg BitVec.toNat) BitVec.le_def.1
  rw [decode]
  split
  case h_14 => rfl
  all_goals omega

/-- Settles O18: `decode` case by case, and the range of `BWBITS` tested before it runs. -/
theorem onlyEncodingsDecode : Obligations.OnlyEncodingsDecode := by
  unfold Obligations.OnlyEncodingsDecode
  refine ⟨fun word rest i => eq_encode_of_decode, fun w rest hw => decode_reserved hw rest, fun p n s hn => ?_⟩
  have hrange : ¬ n ≤ Config.codeLenMax := not_le.2 hn
  exact ⟨decide_eq_false hrange, if_neg hrange⟩

end Sys2Proof
end

section
/-! PROOFS. How the operations end, and on what a command depends (`60_exceptions.md` rule R250, `70_reset_and_hazards.md`
rules R281, R294, `40_frequency_counter.md` rule R132). -/

namespace Sys2Proof.Machine

/-! ### Refusals -/

/-- Settles O20: `FCOUNT` refuses such an input before its first access, and `ENCODE` begins with `FCOUNT`. -/
theorem inputsBeyondTheLimitsAreRefused : Obligations.InputsBeyondTheLimitsAreRefused := by
  unfold Obligations.InputsBeyondTheLimitsAreRefused
  exact fun s => ⟨fun hl => (fcount_refuses hl).imp (congrArg Res.outcome) (congrArg Res.outcome),
    fun hb hl => (runEncode_refuses Config.hdrOrder hb hl).imp (congrArg Res.outcome) (congrArg Res.outcome)⟩

theorem inLimits_of_encode_next {s t : State} (hb : s.status ≠ .busy) (ht : exec .encode s = .next t) : InLimits s.mem.src := by
  by_contra hl
  obtain h | h := runEncode_refuses Config.hdrOrder hb hl <;> cases (congrArg Res.outcome h).symm.trans ht

/-! ### Errors -/

/-- An internal operation leaves `ERR`, or takes an error listed for it (R250). -/
theorem exec_internal_err {i : Instr} (hi : i.isCommand = false) {s t : State} (ht : exec i s = .next t) :
    t.err = s.err ∨ (t.err ∈ raisedBy i ∧ t.status = .fault) := by
  cases i with
  | encode => cases hi
  | decode => cases hi
  | fcount =>
    exact Res.Does.errs (fcount_keep s) (fcount_does (inLimits_of_fcount_next ht)) (fun _ _ h => List.mem_singleton.2 h.1) ht
  | tbuild => cases ht; exact .inl rfl
  | cderive => obtain ⟨c, rfl⟩ := exec_cderive_next ht; exact .inl rfl
  | bwbit b => exact Res.Does.errs (bwbit_keep b s) (bwbit_does b s) (fun _ _ h => List.mem_singleton.2 h.1) ht
  | bwbits p n =>
    simp only [exec, execBwbits] at ht
    split at ht
    · exact Res.Does.errs (bwbits_keep p n s) (bwbits_does p n s) (fun _ _ h => List.mem_singleton.2 h.1) ht
    · cases ht
  | bwflush => exact Res.Does.errs (bwflush_keep s) (bwflush_does s) (fun _ _ h => List.mem_singleton.2 h.1) ht
  | brbit => exact Res.Does.errs (brbit_keep s) (brbit_does s) (fun _ _ h => List.mem_singleton.2 h.1) ht
  | hwrite => exact Res.Does.errs (hwrite_keep _ s) (hwrite_does _ s) (fun _ _ h => List.mem_singleton.2 h.1) ht
  | hread =>
    refine Res.Does.errs (hread_keep _ s) (hread_does _ s) ?_ ht
    rintro _ _ ⟨rfl | rfl | rfl, -⟩ <;> decide
  | eemit => exact Res.Does.errs (eemit_keep s) (eemit_does s) (fun _ _ h => List.mem_pair.2 (h.1.imp_right And.left)) ht
  | dwalk =>
    refine Res.Does.errs (dwalk_keep s) (dwalk_does s) ?_ ht
    rintro _ _ (⟨rfl, -⟩ | ⟨rfl | rfl | rfl, -⟩) <;> decide

theorem not_busy_of_encode_next {s t : State} (ht : exec .encode s = .next t) : s.status ≠ .busy := by
  intro hb
  cases (exec_encode_busy hb).symm.trans ht

theorem not_busy_of_decode_next {s t : State} (ht : exec .decode s = .next t) : s.status ≠ .busy := by
  intro hb
  cases (exec_decode_busy hb).symm.trans ht

/-- `ENCODE` ends `DONE` without an error code, as the invariant has it then, or takes an error listed for it (R250). -/
theorem exec_encode_err {s t : State} (ht : exec .encode s = .next t) :
    (t.status = .done ∧ t.err = .none) ∨ (t.err ∈ raisedBy .encode ∧ t.status = .fault) := by
  have hb := not_busy_of_encode_next ht
  obtain ⟨-, hdone, -⟩ | ⟨e, u, he, rfl⟩ := (runEncode_ends Config.hdrOrder hb (inLimits_of_encode_next hb ht)).next ht
  · have hinv : t.Inv := (runEncode_inv Config.hdrOrder s).next ht
    obtain ⟨-, -, -, -, herr⟩ := hinv.control
    exact .inl ⟨hdone, not_not.1 (mt herr.2 (by rw [hdone]; nofun))⟩
  · exact .inr ⟨List.mem_pair.2 he, rfl⟩

/-- `DECODE` ends `DONE` without an error code or takes an error listed for it, the sink empty for the header errors and
`NoTree` (R226, R250). -/
theorem exec_decode_err {s t : State} (ht : exec .decode s = .next t) :
    (t.status = .done ∧ t.err = .none) ∨ (t.err ∈ raisedBy .decode ∧ t.status = .fault ∧
      (t.err = .badMagic ∨ t.err = .truncHeader ∨ t.err = .noTree → t.mem.snk = [])) := by
  obtain ⟨-, hdone, -, herr, -⟩ | ⟨e, u, ⟨-, he⟩, rfl⟩ :=
    (runDecode_does Config.hdrOrder (not_busy_of_decode_next ht)).next ht
  · exact .inl ⟨hdone, herr⟩
  · have hmem : e ∈ raisedBy .decode := by
      obtain (rfl | rfl | rfl) | ⟨rfl | rfl | rfl, -⟩ := he <;> decide
    refine .inr ⟨hmem, rfl, fun hempty => ?_⟩
    obtain hwalk | ⟨-, hsnk⟩ := he
    · obtain rfl | rfl | rfl := hwalk <;> simp at hempty
    · exact hsnk

/-- Settles O12: the internal operations by `exec_internal_err`, the commands by their ends. -/
theorem operationsRaiseOnlyTheirErrors : Obligations.OperationsRaiseOnlyTheirErrors := by
  unfold Obligations.OperationsRaiseOnlyTheirErrors
  refine ⟨fun i s t ht => ?_, fun s t ht herr => ?_⟩
  · by_cases hi : i.isCommand = false
    · exact (exec_internal_err hi ht).imp (⟨hi, ·⟩) .inr
    · cases i with
      | encode => exact .inr ((exec_encode_err ht).imp_left (⟨rfl, ·⟩))
      | decode => exact .inr ((exec_decode_err ht).imp (⟨rfl, ·⟩) fun ⟨hmem, hfault, _⟩ => ⟨hmem, hfault⟩)
      | _ => exact absurd rfl hi
  · obtain ⟨-, hnone⟩ | ⟨-, -, hempty⟩ := exec_decode_err ht
    · rw [hnone] at herr
      simp at herr
    · exact hempty herr

/-! ### Every operation ends -/

theorem Res.Does.exists_next {α : Type} {r : Res α} {Q : α → State → Prop} {F : Err → State → Prop} (h : r.Does Q F) :
    ∃ t, r.outcome = .next t := h.ends.imp fun _ => And.left

/-- A result that returns in `DONE` ends there or in `FAULT` (R294). -/
theorem Res.Does.done_or_fault {α : Type} {r : Res α} {Q : α → State → Prop} {F : Err → State → Prop} (h : r.Does Q F)
    (hQ : ∀ a t, Q a t → t.status = .done ∧ t.phase = .done) :
    ∃ t, r.outcome = .next t ∧ (t.status = .done ∧ t.phase = .done ∨ t.status = .fault ∧ t.phase = .fault) := by
  obtain ⟨t, ht, ⟨a, ha⟩ | ⟨e, u, -, rfl⟩⟩ := h.ends
  · exact ⟨t, ht, .inl (hQ a t ha)⟩
  · exact ⟨_, ht, .inr ⟨rfl, rfl⟩⟩

/-- Settles O13: what each operation does, whatever its accesses answer, includes that it ends. -/
theorem everyOperationEnds : Obligations.EveryOperationEnds := by
  unfold Obligations.EveryOperationEnds
  intro s
  refine ⟨fun hb hl => (runEncode_ends Config.hdrOrder hb hl).done_or_fault fun _ _ h => h,
    fun hb => (runDecode_does Config.hdrOrder hb).done_or_fault fun _ _ h => ⟨h.1, h.2.1⟩,
    fun hl => (fcount_does hl).exists_next, ⟨_, rfl⟩, fun hok => ?_, ?_, fun b => (bwbit_does b s).exists_next,
    fun p n hn => ?_, (bwflush_does s).exists_next, (brbit_does s).exists_next, (hwrite_does _ s).exists_next,
    (hread_does _ s).exists_next, (eemit_does s).exists_next, (dwalk_does s).exists_next⟩
  · exact (cderive_after s hok).exists_next
  · exact (cderive_cases s).imp (fun ⟨_, h⟩ => ⟨_, congrArg Res.outcome h⟩) (congrArg Res.outcome)
  · rw [exec_bwbits hn]
    exact (writeBits_does _ s).exists_next

/-! ### Two runs of a command -/

/-- Settles O15: two runs from states with the same source and answers stay in step to the end. -/
theorem resultIsAFunctionOfTheSource : Obligations.ResultIsAFunctionOfTheSource := by
  unfold Obligations.ResultIsAFunctionOfTheSource
  intro s t hs ht hsrc hrewound hio
  have hb : s.status = .busy ↔ t.status = .busy := iff_of_false hs ht
  exact ⟨(runEncode_inStep Config.hdrOrder hb hsrc hrewound hio).outcome fun _ _ => Twin.same,
    (runDecode_inStep Config.hdrOrder hb hsrc hrewound hio).outcome fun _ _ => Twin.same⟩

end Sys2Proof.Machine
end

section
/-! PROOFS. The tree and the codes as functions of the frequency table (`41_tree_builder.md` rule R140,
`42_code_table_deriver.md` rules R162, R163). -/

namespace Sys2Proof.Machine

/-- Settles O24: `buildTree` makes the same tree of a table over any two arenas. -/
theorem tbuildIsAFunctionOfTheTable : Obligations.TbuildIsAFunctionOfTheTable := by
  unfold Obligations.TbuildIsAFunctionOfTheTable
  rintro s s' _ _ hfreq ⟨⟩ ⟨⟩
  show (buildTree s.freq s.tree).Same (buildTree s'.freq s'.tree)
  rw [hfreq]
  exact buildTree_same s'.freq s.tree s'.tree

theorem CodeTable.bits_length (c : CodeTable) (b : Byte) : (c.bits b).length = (Table.entry c.len b).toNat :=
  pat2bits_length _ _

/-- Settles O26: after `TBUILD` and `CDERIVE` the symbols with a code are those that occur (`cderive_len_ne`). -/
theorem codesGoToSymbolsThatOccur : Obligations.CodesGoToSymbolsThatOccur := by
  unfold Obligations.CodesGoToSymbolsThatOccur
  intro s
  obtain ⟨u, t, hu, ht, rfl, hcodes⟩ := codes_after s
  have hlen (b : Byte) : Table.entry t.code.len b ≠ 0 ↔ Table.entry s.freq b ≠ 0 := cderive_len_ne rfl hcodes b
  refine ⟨_, t, hu, ht, fun b => ?_, fun b => Nat.le_of_lt_succ (Table.entry t.code.len b).isLt, fun hnone b => ?_,
    fun v hone => ?_⟩
  · rw [← hlen b, Nat.pos_iff_ne_zero, ne_eq, ne_eq, BitVec.toNat_eq]
    rfl
  · by_contra hb
    have hmem := mem_usedSymbols.2 ((hlen b).1 hb)
    rw [hnone] at hmem
    cases hmem
  · have hbits : t.code.bits v = [false] := hcodes.bits_of_single rfl hone
    exact ⟨hbits, by rw [← CodeTable.bits_length, hbits]; rfl⟩

end Sys2Proof.Machine
end

section
/-! PROOFS. Bits written and bits read, call by call (`43_bit_writer.md` rules R170 to R176, `44_bit_reader.md` rules R182 to
R184). -/

namespace Sys2Proof.Machine

/-! ### The Bit Writer -/

theorem writerOk_of_zero {s : State} (h : s.bwAcc = 0) : s.WriterOk := fun i _ => by
  rw [h]
  exact BitVec.getLsbD_zero

theorem pendingBits_of_zero {s : State} (h : s.bwN = 0) : s.pendingBits = [] :=
  List.eq_nil_of_length_eq_zero ((pendingBits_length s).trans (congrArg Fin.val h))

theorem afterBits_bwN (s : State) (bits : List Bool) :
    (s.afterBits bits).bwN.val = (s.pendingBits ++ bits).length % 8 := rfl

theorem afterBits_snk (s : State) (bits : List Bool) :
    (s.afterBits bits).mem.snk = s.mem.snk ++ fullBytes (s.pendingBits ++ bits) := rfl

/-- Settles O32: the bits leave `afterBits` of them, their full bytes and their leftover, and the flush packs the leftover. -/
theorem bitsThenFlushIsPack : Obligations.BitsThenFlushIsPack := by
  unfold Obligations.BitsThenFlushIsPack
  intro bits s hf hn hacc
  have hw : s.WriterOk := writerOk_of_zero hacc
  have hbits : s.pendingBits ++ bits = bits := congrArg (· ++ bits) (pendingBits_of_zero hn)
  have hwrite : execAll (bits.map Instr.bwbit) s = .next (s.afterBits bits) :=
    (execAll_bits hf bits).trans (congrArg Res.outcome (writeBits_works (hf.worksFor _) hw))
  obtain ⟨u, hflush, hsnk, hn', hacc'⟩ := bwflush_empties (afterBits_noFailure hf bits) (afterBits_writerOk s bits)
  rw [afterBits_pending, afterBits_snk, hbits, List.append_assoc, ← pack_split] at hsnk
  refine ⟨_, u, hwrite, congrArg Res.outcome hflush, ?_, ?_, hsnk, pack_length bits, hn', hacc', fun _ => pack_bit bits⟩
  · rw [afterBits_snk, hbits, pack_take]
  · rw [afterBits_bwN, hbits]

/-- What the Bit Writer leaves as it is when it appends at most `n` bytes (R170 to R173). -/
def WriterKeeps (n : Nat) (s t : State) : Prop :=
  (∀ a, a < s.mem.snk.length ∨ s.mem.snk.length + n ≤ a → t.mem.sinkByte a = s.mem.sinkByte a) ∧
    (∀ a, t.mem.sourceByte a = s.mem.sourceByte a) ∧
    { t with
      bwAcc := s.bwAcc, bwN := s.bwN, draws := s.draws, status := s.status, err := s.err, phase := s.phase
      mem := { t.mem with snk := s.mem.snk, snkPos := s.mem.snkPos, io := s.mem.io } } = s

/-- Taking an error writes none of what the frame keeps (R256). -/
theorem WriterKeeps.takeError {n : Nat} {s t : State} (h : WriterKeeps n s t) (e : Err) :
    WriterKeeps n s (Machine.takeError e t) := h

theorem WroteSome.writerKeeps {bits : List Bool} {s t : State} {v : List Byte} (h : WroteSome bits s t v) :
    WriterKeeps ((s.bwN.val + bits.length) / 8) s t := by
  have hlen := h.length
  obtain ⟨_, _, _, _, rfl⟩ := h.shape
  exact ⟨fun a => sinkByte_append s.mem hlen, fun _ => rfl, rfl⟩

theorem Wrote.writerKeeps {bits : List Bool} {s t : State} {v : List Byte} (h : Wrote bits s t v) :
    WriterKeeps ((s.bwN.val + bits.length) / 8) s t := by
  have hsome := (h.some []).writerKeeps
  rwa [List.append_nil] at hsome

theorem Flushed.writerKeeps {s t : State} (h : Flushed s t) : WriterKeeps (if s.bwN.val = 0 then 0 else 1) s t := by
  obtain ⟨_, _, _, _, rfl, hlen, -⟩ := h
  exact ⟨fun a => sinkByte_append s.mem hlen, fun _ => rfl, rfl⟩

theorem writeBits_keeps {bits : List Bool} {s t : State} (ht : (writeBits bits s).outcome = .next t) :
    WriterKeeps ((s.bwN.val + bits.length) / 8) s t := by
  obtain ⟨_, v, h⟩ | ⟨_, u, ⟨rfl, v, h⟩, rfl⟩ := (writeBits_does bits s).next ht
  · exact h.writerKeeps
  · exact h.writerKeeps.takeError .io

/-- `BWBIT` is the Bit Writer on a string of one bit (R172). -/
theorem writeBits_singleton (b : Bool) (s : State) : (writeBits [b] s).outcome = (bwbit b s).outcome := by
  rw [writeBits]
  cases bwbit b s <;> rfl

theorem count_le_of_bwbits_next {p : Pattern} {n : Nat} {s t : State} (ht : exec (.bwbits p n) s = .next t) : n ≤ 255 := by
  by_contra hn
  cases (if_neg hn : exec (.bwbits p n) s = .refused .operandRange).symm.trans ht

/-- Settles O33: at every end the three operations have appended at most the bytes that fill, and written their own registers. -/
theorem writerFrame : Obligations.WriterFrame := by
  unfold Obligations.WriterFrame
  rintro i s t n (⟨b, rfl, rfl⟩ | ⟨p, k, rfl, rfl⟩ | ⟨rfl, rfl⟩) ht
  · exact writeBits_keeps ((writeBits_singleton b s).trans ht)
  · rw [exec_bwbits (count_le_of_bwbits_next ht)] at ht
    have hkeeps := writeBits_keeps ht
    rwa [pat2bits_length] at hkeeps
  · obtain ⟨_, h, -⟩ | ⟨_, u, ⟨rfl, h⟩, rfl⟩ := (bwflush_does s).next ht
    · exact h.writerKeeps
    · exact h.writerKeeps.takeError .io

/-! ### The Bit Reader -/

/-- Settles O35: the state behind a failed read meets the same hypotheses, so that a further read fails alike. -/
theorem brbitFailsAtTheEnd : Obligations.BrbitFailsAtTheEnd := by
  unfold Obligations.BrbitFailsAtTheEnd
  intro s hf h0 hr
  have hagain := brbit_end (s := { s with brOk := false, mem := s.mem.answered }) (Memory.noFailure_tail hf rfl) h0 hr
  exact ⟨_, congrArg Res.outcome (brbit_end hf h0 hr), rfl, rfl, rfl, _, congrArg Res.outcome hagain, rfl, rfl⟩

/-- Call number `i` over a payload delivers its bit `i`, with no byte pulled before it is needed (R183, R184). -/
theorem brbit_call {s : State} (hf : s.mem.NoFailure) (h0 : s.brN = 0) {i : Nat} (hi : i < 8 * s.mem.rest.length) :
    ∃ t, execAll (List.replicate (i + 1) Instr.brbit) s = .next t ∧
      t.deliveredBit = some ((s.mem.rest.getD (i / 8) 0).getLsbD (7 - i % 8)) ∧
      t.mem.srcPos = s.mem.srcPos + (i + 8) / 8 := by
  obtain ⟨io, -, hrun⟩ := brbit_many hf h0 i hi
  refine ⟨_, hrun, ?_, rfl⟩
  have hmod : (Fin.ofNat 9 (7 - i % 8)).val = 7 - i % 8 := Nat.mod_eq_of_lt (by omega)
  rw [deliveredBit_of_brOk rfl, hmod]

/-- The calls for all bits of a payload leave an empty buffer at the end of the source (R183). -/
theorem brbit_all {s : State} (hf : s.mem.NoFailure) (h0 : s.brN = 0) :
    ∃ t, execAll (List.replicate (8 * s.mem.rest.length) Instr.brbit) s = .next t ∧ t.mem.NoFailure ∧ t.brN = 0 ∧
      t.mem.rest = [] := by
  by_cases hr : s.mem.rest = []
  · exact ⟨s, by rw [hr]; rfl, hf, h0, hr⟩
  · have hpos : 0 < s.mem.rest.length := List.length_pos_iff.2 hr
    obtain ⟨io, hio, hrun⟩ := brbit_many hf h0 (8 * s.mem.rest.length - 1) (by omega)
    have hcount : 8 * s.mem.rest.length - 1 + 1 = 8 * s.mem.rest.length := by omega
    have hbuf : 7 - (8 * s.mem.rest.length - 1) % 8 = 0 := by omega
    have hpulled : (8 * s.mem.rest.length - 1 + 8) / 8 = s.mem.rest.length := by omega
    rw [hcount, hbuf, hpulled] at hrun
    refine ⟨_, hrun, hio, rfl, ?_⟩
    show s.mem.src.drop (s.mem.srcPos + s.mem.rest.length) = []
    rw [← List.drop_drop]
    exact List.drop_length

/-- No call beyond the last bit delivers one (R182). -/
theorem brbit_call_beyond {s : State} (hf : s.mem.NoFailure) (h0 : s.brN = 0) {i : Nat} (hi : 8 * s.mem.rest.length ≤ i) :
    ∃ t, execAll (List.replicate (i + 1) Instr.brbit) s = .next t ∧ t.deliveredBit = none := by
  obtain ⟨u, hall, hfu, h0u, hru⟩ := brbit_all hf h0
  obtain ⟨t, hbeyond, hnone⟩ := brbit_beyond hfu h0u hru (i - 8 * s.mem.rest.length)
  refine ⟨t, ?_, hnone⟩
  have hcount : i + 1 = 8 * s.mem.rest.length + (i - 8 * s.mem.rest.length + 1) := by omega
  rw [hcount, ← List.replicate_append_replicate, execAll_append _ _ hall]
  exact hbeyond

/-- Settles O36: over a packed bit string the payload's bits are the string's (`pack_bit`). -/
theorem readerReturnsThePayloadBits : Obligations.ReaderReturnsThePayloadBits := by
  unfold Obligations.ReaderReturnsThePayloadBits
  intro s hf h0
  refine ⟨fun i => brbit_call hf h0, fun i => brbit_call_beyond hf h0, fun bits hr i hi => ?_⟩
  have hlen : i < 8 * (pack bits).length := by rw [pack_length]; omega
  obtain ⟨t, hrun, hbit, -⟩ := brbit_call hf h0 (i := i) (by rw [hr]; exact hlen)
  exact ⟨t, hrun, by rw [hbit, hr, pack_bit bits hlen, if_pos hi]⟩

end Sys2Proof.Machine
end

section
/-! PROOFS. The header written and read, and what the reading operations leave as it is (`45_container_format.md` rules R90 to
R100, R191 to R197, `10_state.md` rule R24). -/

namespace Sys2Proof.Machine

/-! ### `HWRITE` and `HREAD` -/

/-- Settles O37: the 258 accesses of `HWRITE` append `headerBytes`, of a length that no table changes. -/
theorem hwriteAppendsTheHeader : Obligations.HwriteAppendsTheHeader := by
  unfold Obligations.HwriteAppendsTheHeader
  intro s hf
  have hlen : (headerBytes Config.hdrOrder s.size s.freq).length = 1036 := headerBytes_length _ _ _
  exact ⟨_, congrArg Res.outcome (hwrite_works Config.hdrOrder hf), rfl, hlen, congrArg (s.mem.snkPos + ·) hlen, rfl⟩

/-- Count field `b`, counted from the beginning of the header (R90). -/
theorem countField_drop (o : HdrOrder) (header : List Byte) (b : Byte) :
    countField o (header.drop 12) b = BitVec.ofNat 32 (unhdr o ((header.drop (12 + 4 * b.toNat)).take 4)) := by
  rw [countField, List.drop_drop]

/-- Settles O38: the table that `HREAD` leaves has in entry `b` the count field `b` of the header. -/
theorem hreadReadsTheHeader : Obligations.HreadReadsTheHeader := by
  unfold Obligations.HreadReadsTheHeader
  intro s hf hmagic hlen
  refine ⟨_, congrArg Res.outcome (hread_works Config.hdrOrder hf hmagic hlen), rfl, fun b => ?_, rfl, rfl⟩
  rw [readTable_symbols, countField_drop]

/-- Settles O39: a bad magic ends `HREAD` at its first read, a short source at the field it cuts. -/
theorem hreadRejectsBadHeaders : Obligations.HreadRejectsBadHeaders := by
  unfold Obligations.HreadRejectsBadHeaders
  intro s hf
  refine ⟨fun hmagic => ?_, fun hmagic hlen => ?_⟩
  · exact ⟨_, congrArg Res.outcome (hread_badMagic Config.hdrOrder hf hmagic),
      congrArg (s.mem.srcPos + ·) List.length_take, rfl⟩
  · obtain ⟨size, freq, k, hrun⟩ := hread_truncated Config.hdrOrder hf hmagic hlen
    exact ⟨_, congrArg Res.outcome hrun, rfl⟩

/-! ### The header read back -/

/-- The fields of a header, whatever follows it (R90). -/
theorem header_fields (o : HdrOrder) (size : Size) (freq : Table Count) (tail : List Byte) :
    (headerBytes o size freq ++ tail).take 4 = magic ∧
      ((headerBytes o size freq ++ tail).drop 4).take 8 = hdrBytes o 8 size.toNat ∧
      (headerBytes o size freq ++ tail).drop 12 =
        (symbols.flatMap fun b => hdrBytes o 4 (Table.entry freq b).toNat) ++ tail := by
  have hsplit : headerBytes o size freq ++ tail = magic ++ (hdrBytes o 8 size.toNat ++
      ((symbols.flatMap fun b => hdrBytes o 4 (Table.entry freq b).toNat) ++ tail)) := by
    simp only [headerBytes, List.append_assoc]
  have hdrop : (headerBytes o size freq ++ tail).drop 4 = hdrBytes o 8 size.toNat ++
      ((symbols.flatMap fun b => hdrBytes o 4 (Table.entry freq b).toNat) ++ tail) := by
    rw [hsplit, List.drop_left' magic_length]
  refine ⟨by rw [hsplit, List.take_left' magic_length], by rw [hdrop, List.take_left' (hdrBytes_length _ _ _)], ?_⟩
  rw [show 12 = 4 + 8 from rfl, ← List.drop_drop, hdrop, List.drop_left' (hdrBytes_length _ _ _)]

/-- `HREAD` under any byte order, over a header written under any (R197). -/
theorem hread_crossed (o o' : HdrOrder) {s : State} {size : Size} {freq : Table Count} {tail : List Byte} (hf : s.mem.NoFailure)
    (hr : s.mem.rest = headerBytes o size freq ++ tail) :
    ∃ t, hread o' s = .ok () t ∧ t.size = BitVec.ofNat 64 (unhdr o' (hdrBytes o 8 size.toNat)) ∧
      ∀ b, Table.entry t.freq b = BitVec.ofNat 32 (unhdr o' (hdrBytes o 4 (Table.entry freq b).toNat)) := by
  obtain ⟨hmagic, hsize, hcounts⟩ := header_fields o size freq tail
  rw [← hr] at hmagic hsize hcounts
  have hlen : Config.hdrLen ≤ s.mem.rest.length := by
    rw [hr, List.length_append, headerBytes_length]
    exact Nat.le_add_right _ _
  refine ⟨_, hread_works o' hf hmagic hlen, congrArg (BitVec.ofNat 64 <| unhdr o' ·) hsize, fun b => ?_⟩
  rw [readTable_symbols, hcounts, countField_bytes]

/-- A byte-reversed integer fits the width of its field. -/
theorem ofBytesLE_reverse_lt (n v : Nat) : ofBytesLE (bytesLE n v).reverse < 2 ^ (8 * n) := by
  have h := ofBytesLE_lt (bytesLE n v).reverse
  rwa [List.length_reverse, bytesLE_length, show 256 = 2 ^ 8 from rfl, ← Nat.pow_mul] at h

/-- Settles O40: the fields `HREAD` finds are those `HWRITE` appended, taken under its own order. -/
theorem headerRoundTrip : Obligations.HeaderRoundTrip := by
  unfold Obligations.HeaderRoundTrip
  intro o o' s s' tail hf hf'
  obtain ⟨t', ht'⟩ := (hread_does o' s').exists_next
  refine ⟨_, t', congrArg Res.outcome (hwrite_works o hf), fun hr => ⟨ht', ?_⟩⟩
  have hheader : s'.mem.rest = headerBytes o s.size s.freq ++ tail := hr.trans (congrArg (· ++ tail) List.drop_left)
  refine ⟨fun ho => ?_, fun ho => ?_⟩
  · subst ho
    cases (congrArg Res.outcome (hread_header o hf' hheader)).symm.trans ht'
    exact ⟨rfl, rfl⟩
  · obtain ⟨u, hrun, hsize, hcounts⟩ := hread_crossed o o' hf' hheader
    cases (congrArg Res.outcome hrun).symm.trans ht'
    refine ⟨?_, fun b => ?_⟩
    · rw [hsize, hdrBytes_other ho, BitVec.toNat_ofNat, Nat.mod_eq_of_lt (ofBytesLE_reverse_lt 8 _)]
    · rw [hcounts, hdrBytes_other ho, BitVec.toNat_ofNat, Nat.mod_eq_of_lt (ofBytesLE_reverse_lt 4 _)]

/-! ### The frame of the reading operations -/

theorem Counted.frame {s t : State} (h : Counted s t) :
    { t with
      freq := s.freq, size := s.size, status := s.status, err := s.err, phase := s.phase
      mem := { t.mem with srcPos := s.mem.srcPos, io := s.mem.io } } = s := by
  obtain ⟨⟨_, _, _, _, rfl⟩, _⟩ := h; rfl

theorem HeaderRead.frame {s t : State} (h : HeaderRead s t) :
    { t with
      freq := s.freq, size := s.size, status := s.status, err := s.err, phase := s.phase
      mem := { t.mem with srcPos := s.mem.srcPos, io := s.mem.io } } = s := by
  obtain ⟨⟨_, _, _, _, rfl⟩, _⟩ := h; rfl

theorem BitPulled.frame {s t : State} (h : BitPulled s t) :
    { t with
      brBuf := s.brBuf, brN := s.brN, brOk := s.brOk, status := s.status, err := s.err, phase := s.phase
      mem := { t.mem with srcPos := s.mem.srcPos, io := s.mem.io } } = s := by
  obtain ⟨⟨_, _, _, _, _, rfl⟩, _⟩ := h; rfl

/-- Settles O41: where the operation raises, the error is taken in a state that meets its frame. -/
theorem readingFrame : Obligations.ReadingFrame := by
  unfold Obligations.ReadingFrame
  intro s t
  refine ⟨fun ht => ?_, fun ht => ?_, fun ht => ?_⟩
  · obtain ⟨_, h, -⟩ | ⟨_, u, ⟨-, h⟩, rfl⟩ := (fcount_does (inLimits_of_fcount_next ht)).next ht <;> exact h.frame
  · obtain ⟨_, h⟩ | ⟨_, u, ⟨-, h⟩, rfl⟩ := (hread_does Config.hdrOrder s).next ht <;> exact h.frame
  · obtain ⟨_, h, -⟩ | ⟨_, u, ⟨-, h⟩, rfl⟩ := (brbit_does s).next ht <;> exact h.frame

end Sys2Proof.Machine
end

section
/-! PROOFS. The second pass of the Encoder, the walk of the Decoder, and the frame of the operations that write the sink
(`46_encoder.md` rules R204 to R206, `47_decoder.md` rules R219 to R222, `20_memory.md` rule R74). -/

namespace Sys2Proof.Machine

/-! ### `EEMIT` -/

/-- Settles O42: the second pass leaves `afterBits` of the codes, over the rewound source read to its end. -/
theorem eemitWritesTheCodes : Obligations.EemitWritesTheCodes := by
  unfold Obligations.EemitWritesTheCodes
  intro s hf hw hcodes
  obtain ⟨io, hrun, -⟩ := eemit_works hf hw hcodes
  exact ⟨_, congrArg Res.outcome hrun, rfl, congrArg List.length (Memory.again_rest s.mem),
    congrArg (s.mem.snk ++ ·) (pack_take _).symm, congrArg (s.mem.snkPos + ·) (fullBytes_length _), afterBits_bwN _ _,
    afterBits_pending _ _, rfl⟩

/-- Settles O43: the codes before the byte have been written as in `afterBits`, and the raise keeps that. -/
theorem eemitStopsAtAByteWithoutACode : Obligations.EemitStopsAtAByteWithoutACode := by
  unfold Obligations.EemitStopsAtAByteWithoutACode
  intro s l tail b hf hw hin hcodes hb
  obtain ⟨io, hrun⟩ := eemit_noCode hf hw hin hcodes hb
  exact ⟨_, congrArg Res.outcome hrun, rfl, rfl, rfl, rfl, rfl, congrArg (s.mem.snkPos + ·) (fullBytes_length _)⟩

/-! ### The walk -/

/-- Settles O47: `DWALK` looks at `ROOT` first. -/
theorem dwalkWithoutATreeRaises : Obligations.DwalkWithoutATreeRaises := by
  unfold Obligations.DwalkWithoutATreeRaises
  exact fun s hroot => congrArg Res.outcome (dwalk_noTree hroot)

/-- Settles O50: the walk reaches the node, reads the bit and finds no child there. -/
theorem dwalkMeetsAMissingChild : Obligations.DwalkMeetsAMissingChild := by
  unfold Obligations.DwalkMeetsAMissingChild
  intro s root g ps q rest b f l r hroot hf hbits hpaths hfollow hnode hchild hsize
  obtain ⟨t, hrun, hwalked, -, hrest⟩ := dwalk_missingChild hroot hf ps hbits hpaths hfollow hnode hchild hsize
  exact ⟨_, congrArg Res.outcome hrun, rfl, rfl, rfl, hwalked.snk, hwalked.emitted_of_paths hsize, hrest⟩

theorem walkStep_leaf {root : Handle} {s : State} {b : Byte} {f : Weight} (hn : s.tree.nodeAt s.cur = .leaf b f) :
    walkStep root s = emitStep root b s := by rw [walkStep, hn]

theorem walkStep_internal {root : Handle} {s : State} {f : Weight} {l r : Option Handle}
    (hn : s.tree.nodeAt s.cur = .internal f l r) : walkStep root s = descendStep l r s := by rw [walkStep, hn]

theorem emitStep_works {s : State} (root : Handle) (b : Byte) (ha : s.mem.answer = .works) : emitStep root b s =
    .ok () { s with emitted := s.emitted + 1, cur := root, mem := s.mem.answered.append [b] } := by
  rw [emitStep, memWrite_works ha]
  rfl

/-- A descend step with no bit left (R223). -/
theorem descendStep_noBit {s : State} (hf : s.mem.NoFailure) (h : s.availableBits = []) (l r : Option Handle) :
    descendStep l r s = .raised (takeError .unexpectedEnd { s with brOk := false, mem := s.mem.consumed 0 1 }) := by
  rw [descendStep, brbit_none hf h]
  rfl

/-- A descend step takes the next bit, to the child it selects or to `MissingChild` (R221, R222). -/
theorem descendStep_bit {s : State} (hf : s.mem.NoFailure) {b : Bool} {bs : List Bool} (h : s.availableBits = b :: bs)
    (l r : Option Handle) : ∃ t n, BitRead s t n ∧ t.availableBits = bs ∧
      ((if b then r else l) = none → descendStep l r s = .raised (takeError .missingChild t)) ∧
      ∀ child, (if b then r else l) = some child → descendStep l r s = .ok () { t with cur := child } := by
  obtain ⟨t, n, hbit, hread, hbs, -⟩ := brbit_some (fun _ => Memory.answer_of_noFailure hf) h
  refine ⟨t, n, hread, hbs, fun hchild => ?_, fun child hchild => ?_⟩
  · simp only [descendStep, hbit, Res.bind_ok, hchild, raise]
  · simp only [descendStep, hbit, Res.bind_ok, hchild]

/-- Settles O51: the two kinds of nodes, and on an internal one no bit, a bit to a child, or a bit to none. -/
theorem walkStepEmitsOrDescends : Obligations.WalkStepEmitsOrDescends := by
  unfold Obligations.WalkStepEmitsOrDescends
  intro s t root hf ht
  cases hn : s.tree.nodeAt s.cur with
  | leaf b f =>
    rw [walkStep_leaf hn, emitStep_works root b (Memory.answer_of_noFailure hf)] at ht
    cases ht
    exact .inl ⟨b, f, rfl, rfl, rfl, rfl, rfl⟩
  | internal f l r =>
    rw [walkStep_internal hn] at ht
    refine .inr ⟨f, l, r, rfl, ?_⟩
    cases hbits : s.availableBits with
    | nil =>
      rw [descendStep_noBit hf hbits] at ht
      cases ht
      exact ⟨rfl, rfl, .inl ⟨rfl, rfl, rfl⟩⟩
    | cons b bs =>
      obtain ⟨u, n, ⟨buf, m, hu, -⟩, hbs, hmissing, hdescend⟩ := descendStep_bit hf hbits l r
      cases hchild : (if b then r else l) with
      | none =>
        rw [hmissing hchild] at ht
        cases ht
        exact ⟨by rw [hu]; rfl, by rw [hu]; rfl, .inr ⟨b, bs, rfl, hbs, .inr ⟨hchild, rfl⟩⟩⟩
      | some child =>
        rw [hdescend child hchild] at ht
        cases ht
        exact ⟨by rw [hu]; rfl, by rw [hu], .inr ⟨b, bs, rfl, hbs, .inl ⟨hchild, by rw [hu]⟩⟩⟩

/-! ### The frame of the writing operations -/

/-- What `HWRITE` leaves as it is (R191). -/
theorem Appended.frame {v : List Byte} {s t : State} (h : Appended v s t) :
    { t with
      status := s.status, err := s.err, phase := s.phase
      mem := { t.mem with snk := s.mem.snk, snkPos := s.mem.snkPos, io := s.mem.io } } = s := by
  obtain ⟨_, rfl⟩ := h; rfl

/-- Below the old end of the sink, and behind the bytes appended, no byte changes (R74). -/
theorem sinkByte_of_snk {s t : State} {v : List Byte} (h : t.mem.snk = s.mem.snk ++ v) {n : Nat} (hv : v.length ≤ n) :
    ∀ a, a < s.mem.snk.length ∨ s.mem.snk.length + n ≤ a → t.mem.sinkByte a = s.mem.sinkByte a :=
  fun a ha => (congrArg (·[a]?) h).trans (sinkByte_append s.mem hv ha)

theorem Appended.snk {v : List Byte} {s t : State} (h : Appended v s t) : t.mem.snk = s.mem.snk ++ v := by
  obtain ⟨_, rfl⟩ := h; rfl

theorem WalkPart.snk {s t : State} {v : List Byte} (h : WalkPart s t v) : t.mem.snk = s.mem.snk ++ v := by
  obtain ⟨⟨_, _, _, _, _, _, _, rfl⟩, _⟩ := h; rfl

/-- What the walk leaves as it is (R221). -/
theorem WalkPart.frame {s t : State} {v : List Byte} (h : WalkPart s t v) :
    { t with
      emitted := s.emitted, brBuf := s.brBuf, brN := s.brN, brOk := s.brOk, cur := s.cur
      status := s.status, err := s.err, phase := s.phase
      mem := { t.mem with srcPos := s.mem.srcPos, snk := s.mem.snk, snkPos := s.mem.snkPos, io := s.mem.io } } = s := by
  obtain ⟨⟨_, _, _, _, _, _, _, rfl⟩, _⟩ := h; rfl

/-- What `EEMIT` leaves as it is: the sink but for the full bytes of the codes, a stable source, and the registers that are
not the Bit Writer's (R74, R204). -/
def EmitKeeps (s t : State) : Prop :=
  (∀ a, a < s.mem.snk.length ∨
      s.mem.snk.length + (s.bwN.val + (s.code.encodeAll (s.mem.rewound.getD s.mem.src)).length) / 8 ≤ a →
    t.mem.sinkByte a = s.mem.sinkByte a) ∧
    (s.mem.Stable → ∀ a, t.mem.sourceByte a = s.mem.sourceByte a) ∧
    { t with
      bwAcc := s.bwAcc, bwN := s.bwN, draws := s.draws, status := s.status, err := s.err, phase := s.phase
      mem := s.mem } = s

theorem Emitted.keeps {s t : State} (h : Emitted s t) : EmitKeeps s t := by
  obtain ⟨⟨_, _, _, v, src, _, _, _, rfl, hsrc, hlen, -⟩, -⟩ := h
  refine ⟨sinkByte_of_snk rfl hlen, fun hstable => Memory.sourceByte_congr ?_, rfl⟩
  obtain ⟨rfl, -⟩ | ⟨rfl, -⟩ := hsrc
  · rfl
  · show s.mem.rewound.getD s.mem.src = s.mem.src
    rw [hstable]
    rfl

/-- Settles O46: the bytes appended are at most those of the header, of the codes, of `SIZE` symbols. -/
theorem writingFrame : Obligations.WritingFrame := by
  unfold Obligations.WritingFrame
  intro s t
  refine ⟨fun ht => ?_, fun ht => ?_, fun ht => ?_⟩
  · have hlen : (headerBytes Config.hdrOrder s.size s.freq).length = 1036 := headerBytes_length _ _ _
    obtain ⟨_, h⟩ | ⟨_, u, ⟨-, v, hv, h⟩, rfl⟩ := (hwrite_does Config.hdrOrder s).next ht
    · exact ⟨sinkByte_of_snk h.snk hlen.le, h.frame⟩
    · exact ⟨sinkByte_of_snk h.snk (hv.length_le.trans hlen.le), h.frame⟩
  · obtain ⟨_, h, -⟩ | ⟨_, u, ⟨-, h⟩, rfl⟩ := (eemit_does s).next ht
    · exact h.keeps
    · exact h.keeps
  · obtain ⟨_, v, h, -, hlen⟩ | ⟨_, u, ⟨-, rfl⟩ | ⟨-, v, h, hlen⟩, rfl⟩ := (dwalk_does s).next ht
    · exact ⟨sinkByte_of_snk h.snk hlen.le, h.frame⟩
    · exact ⟨fun _ _ => rfl, rfl⟩
    · exact ⟨sinkByte_of_snk h.snk hlen, h.frame⟩

end Sys2Proof.Machine
end

section
/-! PROOFS. Where an access of an operation fails, the first one or a later one (`20_memory.md` rules R63, R65,
`60_exceptions.md` rule R251). -/

namespace Sys2Proof.Machine

/-! ### The first access -/

theorem Memory.failsAfter_zero {m : Memory} {k : Nat} (h : m.answer = .fails k) : m.FailsAfter 0 k :=
  ⟨nofun, m.answer_eq.symm.trans h⟩

theorem Memory.consumed_zero_one (m : Memory) : m.consumed 0 1 = m.answered := by
  simp only [Memory.consumed, Memory.answered, Nat.add_zero, List.drop_one]

section
variable {s : State} {k : Nat} (ha : s.mem.answer = .fails k)
include ha

theorem fcount_first_fails (hl : InLimits s.mem.rest) :
    ∃ t, exec .fcount s = .next (takeError .io t) ∧ t.mem = s.mem.answered :=
  ⟨_, congrArg Res.outcome (fcount_fails (Memory.failsAfter_zero ha) hl (Nat.zero_le _)), s.mem.consumed_zero_one⟩

theorem hread_first_fails : exec .hread s = .next (takeError .io { s with mem := s.mem.answered }) := by
  rw [exec, execHread, hread, memRead_fails ha]
  rfl

theorem hwrite_first_fails :
    exec .hwrite s = .next (takeError .io { s with mem := s.mem.answered.append (magic.take k) }) := by
  rw [exec, execHwrite, hwrite, memWrite_fails ha]
  rfl

theorem eemit_rewind_fails : exec .eemit s = .next (takeError .io { s with mem := s.mem.answered }) := by
  rw [exec, execEemit, eemit, srcRewind_fails ha]
  rfl

theorem brbit_read_fails (h0 : s.brN = 0) : brbit s = .raised (takeError .io { s with mem := s.mem.answered }) :=
  brbit_raises (congrArg Fin.val h0) (by rw [ha]; exact nofun)

theorem bwflush_write_fails (hn : s.bwN ≠ 0) :
    exec .bwflush s = .next (takeError .io { s with mem := s.mem.answered.append ([s.bwAcc].take k) }) := by
  rw [exec, execBwflush, bwflush_of_ne_zero hn, memWrite_fails ha]
  rfl

/-- The byte whose write fails holds the bit in its last place; `BW_N` is a free value then (R171, log 12). -/
theorem bwbit_write_fails (b : Bool) (h7 : s.bwN.val = 7) :
    ∃ n d, exec (.bwbit b) s = .next (takeError .io { s with
      bwAcc := accWith s.bwAcc 7 b, bwN := n, draws := d, mem := s.mem.answered.append ([accWith s.bwAcc 7 b].take k) }) := by
  have hfull : ¬ s.bwN.val < 7 := Nat.not_lt.2 h7.ge
  refine ⟨Config.freeBwN s.draws, s.draws + 1, ?_⟩
  simp only [exec, execBwbit, bwbit, if_neg hfull]
  rw [memWrite_fails (s := { s with bwAcc := accWith s.bwAcc s.bwN.val b }) ha, h7]
  rfl

theorem descendStep_read_fails (h0 : s.brN = 0) (l r : Option Handle) :
    descendStep l r s = .raised (takeError .io { s with mem := s.mem.answered }) := by
  rw [descendStep, brbit_read_fails ha h0]
  rfl

end

/-- As long as symbols are missing the walk goes on with a step (R219). -/
theorem walkLoop_step {root : Handle} {s : State} (h : s.emitted ≠ s.size) (fuel : Nat) :
    walkLoop root (fuel + 1) s = (walkStep root s).bind fun _ t => walkLoop root fuel t := if_neg h

theorem dwalk_first_read_fails {s : State} {k : Nat} (ha : s.mem.answer = .fails k) {root : Handle} {f : Weight}
    {l r : Option Handle} (hroot : s.tree.root = some root) (hnode : s.tree.nodeAt root = .internal f l r) (hsize : s.size ≠ 0)
    (h0 : s.brN = 0) :
    exec .dwalk s = .next (takeError .io { s with cur := root, emitted := 0, mem := s.mem.answered }) := by
  have hstep : walkStep root { s with cur := root, emitted := 0 } =
      .raised (takeError .io { s with cur := root, emitted := 0, mem := s.mem.answered }) :=
    (walkStep_internal hnode).trans (descendStep_read_fails (s := { s with cur := root, emitted := 0 }) ha h0 l r)
  have hloop := walkLoop_step (root := root) (s := { s with cur := root, emitted := 0 }) hsize.symm
  rw [hstep] at hloop
  rw [exec, execDwalk, dwalk, hroot]
  exact congrArg Res.outcome (hloop _)

/-- The last place of the buffer is bit 0 (R171). -/
theorem accWith_seven (acc : Byte) (b : Bool) : accWith acc 7 b = if b then acc ||| 0x01 else acc :=
  accWith_eq acc (by decide) b

/-- The counts read before a failing read are in the table, the others are kept (R193, log 24). -/
theorem readTable_take_drop (o : HdrOrder) (header : List Byte) (f : Table Count) (i : Nat) (b : Byte) :
    Table.entry (readTable o (symbols.take i) (header.drop 12) f) b =
      if b.toNat < i then BitVec.ofNat 32 (unhdr o ((header.drop (12 + 4 * b.toNat)).take 4)) else Table.entry f b := by
  rw [readTable_take, countField_drop]

/-- Settles O14: the first access by its operation's lemma here, a later one by `fcount_fails`, `hwrite_fails`,
`hread_fails_early` and `hread_fails`. -/
theorem failingAccessIsFatal : Obligations.FailingAccessIsFatal := by
  unfold Obligations.FailingAccessIsFatal
  refine ⟨fun s k ha => ⟨fun hl => ?_, hread_first_fails ha, hwrite_first_fails ha, eemit_rewind_fails ha,
    fun h0 => congrArg Res.outcome (brbit_read_fails ha h0), bwflush_write_fails ha,
    fun root f l r hroot hnode hsize h0 => dwalk_first_read_fails ha hroot hnode hsize h0, fun b h7 => ?_⟩,
    fun s j k ha => ⟨fun hl hj => ?_, fun hj => ?_, fun hj hmagic => ?_, fun i hij hi hmagic hlen => ?_⟩⟩
  · obtain ⟨t, ht, hmem⟩ := fcount_first_fails ha hl
    exact ⟨_, ht, rfl, rfl, hmem⟩
  · rw [← accWith_seven]
    exact bwbit_write_fails ha b h7
  · exact congrArg Res.outcome (fcount_fails ha hl hj)
  · exact congrArg Res.outcome (hwrite_fails Config.hdrOrder ha hj)
  · exact congrArg Res.outcome (hread_fails_early Config.hdrOrder ha hj hmagic)
  · subst hij
    exact ⟨_, congrArg Res.outcome (hread_fails Config.hdrOrder ha hi hmagic hlen),
      readTable_take_drop Config.hdrOrder s.mem.rest s.freq i⟩

end Sys2Proof.Machine
end
